-- ==== Sys2Proof/Word.lean ====
section
/-! DEFINITION. The bit vectors of the block: 8-bit bytes and 32-bit registers (00_scope.md R8, R9). -/

namespace Sys2Proof

/-- A byte, an unsigned number 0..255 (R8). -/
abbrev Byte := BitVec 8

/-- A register: every register is 32 bits wide (R32, `REG_W` of R6). -/
abbrev Word := BitVec 32

end Sys2Proof
end

