-- ==== Sys2Proof/Machine/Params.lean ====
section
/-! DEFINITION. The codec parameters of 00_scope.md R6, each a named constant so that a corrected literal changes one
definition (R240, D33). -/

namespace Sys2Proof.Machine

/-- WINDOW, the LZ77 search window in prior bytes (R6, R240). -/
def lzWindow : Nat := 255

/-- LOOKAHEAD, the longest LZ77 match (R6, R240). -/
def lzLookahead : Nat := 15

/-- MIN_MATCH, the shortest LZ77 match emitted as a token, "> 2" (R6, R240). -/
def lzMinMatch : Nat := 3

/-- TOK_OPEN, the byte `<` (R6, R244). -/
def tokOpen : Byte := 0x3C#8

/-- TOK_SEP, the byte `,` (R6, R244). -/
def tokSep : Byte := 0x2C#8

/-- TOK_CLOSE, the byte `>` (R6, R244). -/
def tokClose : Byte := 0x3E#8

/-- NODE_MAX, the entries of the node store, 2 × 256 − 1 (R6). -/
def nodeMax : Nat := 511

end Sys2Proof.Machine
end

