-- ==== Sys2Proof/Config.lean ====
section
/-! DEFINITION. What an implementation fixes and what the spec leaves open: the default capacity (00_scope.md R6)
and the free values of 93_implementation_defined.md U1 to U4. The free values have no body. -/

namespace Sys2Proof

/-- The default of the OPEN parameter MAX_LEN (R6, D5). -/
def Config.maxLenDefault : Nat := 4096

/-- The largest MAX_LEN the spec admits (R6). -/
def Config.maxLenLimit : Nat := 1048576

/-- FREE VALUE (U1; DESIGN CHOICE, log entry 2): byte `j` of the unspecified contents number `fill` of IBUF. -/
opaque Config.ibufByte (fill j : Nat) : Byte

/-- FREE VALUE (U1, U3; DESIGN CHOICE, log entry 2): byte `j` of the unspecified contents number `fill` of OBUF. -/
opaque Config.obufByte (fill j : Nat) : Byte

/-- FREE VALUE (U2, U3; DESIGN CHOICE, log entry 3): word `w` of entry `k` of the unspecified contents number `fill` of
NODE. -/
opaque Config.nodeWord (fill k w : Nat) : Word

/-- FREE VALUE (U4; DESIGN CHOICE, log entry 4): what the `n`-th host read of a result while BUSY returns. -/
opaque Config.busyRead (n : Nat) : Word

end Sys2Proof
end

