-- ==== Sys2Proof/Syntax.lean ====
section
/-! DEFINITION. The commands of spec/opcode_table.json, the algorithms that own a result record, and the
host's side of the language: bus accesses and host operations (30_encoding.md R112, R119, R120). -/

namespace Sys2Proof

/-- The ten commands. A command has no operand fields (R110, R113). -/
inductive Instr where
  | nop
  | freq
  | build
  | codegen
  | henc
  | huff
  | rle
  | delta
  | lz77
  | bench
deriving DecidableEq, Repr

/-- The four encoders that publish a result, in the fixed order of R42. -/
inductive Alg where
  | huffman
  | rle
  | delta
  | lz77
deriving DecidableEq, Repr

/-- The width of one bus access: 8, 16 or 32 bits (R80). -/
inductive Width where
  | w8
  | w16
  | w32
deriving DecidableEq, Repr

/-- One bus transaction of the host at a window offset (R119): `(read, off, n)` or `(write, off, n, v)`.
A write moves the low `n` bytes of `val`. -/
inductive Access where
  | read (w : Width) (off : Nat)
  | write (w : Width) (off : Nat) (val : Word)
deriving DecidableEq, Repr

/-- One entry of the host's pending program: a bus access, one of the two pseudo-instructions of R120 whose
number of accesses is not known beforehand, or an assertion of the platform's RST input (R340). -/
inductive HostOp where
  /-- One bus access (R119). -/
  | access (a : Access)
  /-- WAITDONE: `R32 STATUS` again and again until BUSY is clear (R120). -/
  | waitDone
  /-- READOUT: `R32 OUT_BYTES -> k`, then `R8 OBUF+j` for j below k (R120). -/
  | readOut
  /-- The platform asserts RST (R340). -/
  | hardReset
deriving DecidableEq, Repr

/-- The two agents of R80. -/
inductive Agent where
  | host
  | sequencer
deriving DecidableEq, Repr

end Sys2Proof
end

