-- ==== Sys2Proof/Decode.lean ====
section
/-! DEFINITION. Decoding a command word (30_encoding.md R110, R111, R112, R116, R117) and, after it, encoding one. -/

namespace Sys2Proof

/-- The field OPC, bits 7:0 (R110). -/
def opcField (w : Word) : BitVec 8 := w.extractLsb' 0 8

/-- The field RSVD, bits 31:8 (R110). -/
def rsvdField (w : Word) : BitVec 24 := w.extractLsb' 8 24

/-- The opcode map (R112); `none` for OPC 0x0A..0xFF (R117). -/
def decodeOpc (opc : BitVec 8) : Option Instr :=
  match opc.toNat with
  | 0x00 => some .nop
  | 0x01 => some .freq
  | 0x02 => some .build
  | 0x03 => some .codegen
  | 0x04 => some .henc
  | 0x05 => some .huff
  | 0x06 => some .rle
  | 0x07 => some .delta
  | 0x08 => some .lz77
  | 0x09 => some .bench
  | _ => none

/-- The decoder, total over all words: one of the ten commands, or `none` for an illegal word, which Execute
answers with ILLEGAL_CMD (R116, R117). -/
def decode (w : Word) : Option Instr :=
  if rsvdField w = 0 then decodeOpc (opcField w) else none

/-- A command word as the four byte lanes of the bus carry it, lowest first (R86). -/
def decodeBytes : List Byte → Option Instr
  | [b0, b1, b2, b3] => decode (b3 ++ b2 ++ b1 ++ b0)
  | _ => none

/-- The decoder's reading of an opcode-table row's bits: `nbits` of them are given and the rest of the 32-bit
word is 0; no command is longer than one word (R111). -/
def decodeTableWord (nbits w : Nat) : Option Instr :=
  if nbits ≤ 32 then
    decodeBytes ((List.range 4).map fun i => BitVec.ofNat 8 (w % 2 ^ nbits / 2 ^ (8 * i)))
  else none

/-- The opcode of each command (R112). -/
def opcodeOf : Instr → BitVec 8
  | .nop => 0x00#8
  | .freq => 0x01#8
  | .build => 0x02#8
  | .codegen => 0x03#8
  | .henc => 0x04#8
  | .huff => 0x05#8
  | .rle => 0x06#8
  | .delta => 0x07#8
  | .lz77 => 0x08#8
  | .bench => 0x09#8

/-- The word of a command in the format CMD32: RSVD = 0, then OPC (R110, R112). -/
def encode (i : Instr) : Word := 0#24 ++ opcodeOf i

/-- The word of a command on the byte lanes of the bus, lowest first (R86). -/
def encodeBytes (i : Instr) : List Byte :=
  (List.range 4).map fun k => (encode i).extractLsb' (8 * k) 8

end Sys2Proof
end

