-- ==== Sys2Proof/WellFormed.lean ====
section
/-! DEFINITION. Which terms are well formed: command words (30_encoding.md R110, R112), commands, bus accesses and
host operations (20_memory.md R81, 30_encoding.md R119). -/

namespace Sys2Proof

/-- A command word is well formed when RSVD is 0 and OPC names a command (R110, R112); the block accepts any other
word too and completes it with ILLEGAL_CMD (R117). -/
def commandWordWf (w : Word) : Bool := rsvdField w == 0 && (opcField w).toNat ≤ 9

/-- A command is well formed when the word it is encoded as is. A command has no operand (R110), so every term is. -/
def Instr.wellFormed (i : Instr) : Bool := commandWordWf (encode i)

/-- The number of bytes an access moves (R84). -/
def Width.bytes : Width → Nat
  | .w8 => 1
  | .w16 => 2
  | .w32 => 4

/-- The size of the register window, 8 MiB: offsets have 23 bits (R81). -/
def windowSize : Nat := 0x800000

/-- The offset an access names. -/
def Access.offset : Access → Nat
  | .read _ off => off
  | .write _ off _ => off

/-- The width of an access. -/
def Access.width : Access → Width
  | .read w _ => w
  | .write w _ _ => w

/-- A bus access is well formed when its offset lies in the window (R81) and a written value fits its width (R119). -/
def Access.wellFormed : Access → Bool
  | .read _ off => off < windowSize
  | .write w off val => off < windowSize && val.toNat < 2 ^ (8 * w.bytes)

/-- A host operation is well formed when its access is. -/
def HostOp.wellFormed : HostOp → Bool
  | .access a => a.wellFormed
  | .waitDone => true
  | .readOut => true
  | .hardReset => true

end Sys2Proof
end

