-- ==== Sys2Proof/Machine/State.lean ====
section
/-! DEFINITION. The state of one block instance and of the host that drives it, as plain data (10_state.md R30 to
R57), the reasons a step can stop, and the state after hardware reset (70_reset_and_hazards.md R340). -/

namespace Sys2Proof.Machine

/-- The error codes 1 to 5 of STATUS.ERR; 0 is `none`, and 6 to 15 are never produced (60_exceptions.md R300, U10). -/
inductive CmdError where
  /-- Code 1: RSVD is not 0, or OPC names no command. -/
  | illegalCmd
  /-- Code 2: LEN > MAX_LEN. -/
  | lenRange
  /-- Code 3: the stage before has no valid result. -/
  | seq
  /-- Code 4: BUILD on an empty frequency table. -/
  | emptyTable
  /-- Code 5: an input byte has no codeword. -/
  | noCode
deriving DecidableEq, Repr

/-- Why the machine stops with a fault. A bus error is none of them: the block goes on (R90), and `State.hostFaults` records
it. -/
inductive Fault where
  /-- Raised by an encoder whose output is longer than OBUF: R97 says that a model should fault there. SAFE. R91 says that
  no command does it; only HENC with a code built from another input can, for a large MAX_LEN (DEDUCED, log entry 7). -/
  | outByteRange
  /-- Raised by BUILD when NSYM is not 0 and yet no FREQ entry is positive: BuildStep is not defined there (R141).
  SAFE: no run reaches such a state. -/
  | emptyQueue
  /-- Raised by CODEGEN when its walk meets a NODE entry that nothing has written or does not end: R152 says that
  TREE_VALID = 1 rules it out. SAFE: no run reaches such a state. -/
  | brokenTree
deriving DecidableEq, Repr

/-- Why a step has no meaning. -/
inductive Refusal where
  /-- An instruction that the model has not reached; no arm of `exec` uses it now. SAFE. -/
  | notModelled (mnemonic : String)
  /-- Raised by a host access outside the 8 MiB window: it belongs to the platform, whose behaviour the spec does not
  give (20_memory.md R81, R82; DEDUCED, log entry 16). SAFE. -/
  | platformAccess (a : Access)
deriving DecidableEq, Repr

/-- A NODE entry (R53): `leaf sym freq` or `internal freq left right`, the children as NODE indices. -/
inductive Node where
  | leaf (sym : Byte) (freq : Nat)
  | internal (freq left right : Nat)
deriving DecidableEq, Repr

/-- One result record RES[a] (R47). -/
structure ResRec where
  /-- ALG, the algorithm id. -/
  alg : BitVec 2
  /-- VALID. -/
  valid : Bool
  /-- SIZE_BITS. -/
  sizeBits : Word
  /-- RNUM, two's complement. -/
  rnum : Word
  /-- RDEN. -/
  rden : Word
deriving DecidableEq, Repr

/-- One read the host made and the data it got, zero-extended to 32 bits (R119). -/
structure ReadData where
  width : Width
  off : Nat
  data : Word
deriving DecidableEq, Repr

/-- Bytes by index, strictly rising; an index that is not listed has not been written since the contents last became
unspecified (R54, R55, U5). -/
abbrev Memory := List Host.Cell

/-- A codeword, a bit-string (R52): `false` is 0, `true` is 1, the first bit emitted first. -/
abbrev Code := List Bool

/-- The whole state: the block's registers, tables and memories (10_state.md), the hidden command latch (R56), and the
host's side (its pending program, what it read, its faults, who moves next). -/
structure State where
  /-- MAX_LEN, the value of PARAM; constant (R6, R34). -/
  maxLen : Nat
  /-- CTRL.IE (R35). -/
  ie : Bool
  /-- The latched command word; STATUS.BUSY is 1 exactly while one is latched (R36, R56, R114). -/
  latched : Option Word
  /-- STATUS.DONE (R36). -/
  done : Bool
  /-- STATUS.ERR (R36, R300). -/
  err : Option CmdError
  /-- STATUS.OVR (R36, R306). -/
  ovr : Bool
  /-- STATUS.EMPTY (R36, R301). -/
  empty : Bool
  /-- STATUS.FREQ_VALID (R48). -/
  freqValid : Bool
  /-- STATUS.TREE_VALID (R48). -/
  treeValid : Bool
  /-- STATUS.CODE_VALID (R48). -/
  codeValid : Bool
  /-- LEN (R38). -/
  len : Word
  /-- NSYM, bits 8:0 (R39). -/
  nsym : BitVec 9
  /-- NNODES, bits 9:0 (R40). -/
  nnodes : BitVec 10
  /-- ROOT, bits 8:0 (R41). -/
  root : BitVec 9
  /-- OUT_ALG; `none` is 0xF (R42). -/
  outAlg : Option Alg
  /-- OUT_BYTES (R43). -/
  outBytes : Word
  /-- OUT_BITS (R44). -/
  outBits : Word
  /-- RATIO_NUM, two's complement (R45). -/
  ratioNum : Word
  /-- RATIO_DEN (R46). -/
  ratioDen : Word
  /-- RES[0..3] (R47). -/
  res : Vector ResRec 4
  /-- FREQ[0..255] (R50). -/
  freq : Vector Word 256
  /-- CODE[0..255]; CODE_LEN and CODE_BITS are its images (R51, R52). -/
  code : Vector Code 256
  /-- NODE[0..510]; `none` is an entry whose contents are unspecified (R53, U2, U3). -/
  node : Vector (Option Node) 511
  /-- IBUF (R54). -/
  ibuf : Memory
  /-- OBUF (R55). -/
  obuf : Memory
  /-- The model's own: which unspecified contents IBUF's unwritten bytes have (U1; DESIGN CHOICE, log entry 2). -/
  ibufFill : Nat
  /-- The model's own: which unspecified contents the unwritten bytes of OBUF and NODE have (U1 to U3; DESIGN CHOICE, log entry 2). -/
  outFill : Nat
  /-- The model's own: how many free draws reads while BUSY have taken (U4; DESIGN CHOICE, log entry 4). -/
  draws : Nat
  /-- What is left of the host's program, next operation first (R31, R119; DESIGN CHOICE, log entry 5). -/
  host : List HostOp
  /-- The data the host has read, newest first (R119; DESIGN CHOICE, log entry 5). -/
  reads : List ReadData
  /-- The bus errors so far: the accesses that R83 to R88 rejected, newest first, each a fault of the host agent that
  nothing clears (R90, R305, U14; log entry 5). -/
  hostFaults : List Access
  /-- Who moves next while a command is running and the host has an operation pending (U6; DESIGN CHOICE, log entry 6). -/
  turns : List Agent
deriving DecidableEq, Repr

/-- Every word of a result record is 0 at reset (R47, R340). -/
def ResRec.cleared : ResRec := { alg := 0, valid := false, sizeBits := 0, rnum := 0, rden := 0 }

/-- The state after hardware reset of a block whose IBUF holds `maxLen` bytes (R340), with a host that has nothing
to do. -/
def State.resetWith (maxLen : Nat) : State where
  maxLen := maxLen
  ie := false
  latched := none
  done := false
  err := none
  ovr := false
  empty := false
  freqValid := false
  treeValid := false
  codeValid := false
  len := 0
  nsym := 0
  nnodes := 0
  root := 0
  outAlg := none
  outBytes := 0
  outBits := 0
  ratioNum := 0
  ratioDen := 0
  res := Vector.replicate 4 ResRec.cleared
  freq := Vector.replicate 256 0
  code := Vector.replicate 256 []
  node := Vector.replicate 511 none
  ibuf := []
  obuf := []
  ibufFill := 0
  outFill := 0
  draws := 0
  host := []
  reads := []
  hostFaults := []
  turns := []

/-- The machine right after hardware reset, with the default MAX_LEN (R6, R340). -/
def State.reset : State := State.resetWith Config.maxLenDefault

/-- STATUS.BUSY: 1 from the acceptance of a command to its completion (R36). -/
def State.busy (s : State) : Bool := s.latched.isSome

end Sys2Proof.Machine
end

