-- ==== Sys2Proof/Machine/Ops.lean ====
section
/-! DEFINITION. The named operations over memory and registers: reading and writing IBUF and OBUF by index, accepting a
command, completing one with or without an error, publishing a result, and the two resets. -/

namespace Sys2Proof.Machine

/-! ### Bytes by index (10_state.md R54, R55) -/

/-- The byte last written at index `a`, if any has been since the contents became unspecified (U5). -/
def Memory.read : Memory → Nat → Option Byte
  | [], _ => none
  | (k, v) :: m, a => if k = a then some v else Memory.read m a

/-- Write one byte at index `a`, keeping the list sorted. -/
def Memory.write : Memory → Nat → Byte → Memory
  | [], a, v => [(a, v)]
  | (k, w) :: m, a, v =>
    if a < k then (a, v) :: (k, w) :: m
    else if k = a then (a, v) :: m
    else (k, w) :: Memory.write m a v

/-- Write the bytes of a list at `a`, `a + 1`, and so on. -/
def Memory.writeBytes : Memory → Nat → List Byte → Memory
  | m, _, [] => m
  | m, a, b :: bs => Memory.writeBytes (Memory.write m a b) (a + 1) bs

/-- The canonical form: indices strictly rising. An unlisted index reads as no byte at all, so that no listed byte can
equal what an unlisted one reads as. -/
abbrev Memory.wf (m : Memory) : Prop := m.Pairwise fun x y => x.1 < y.1

/-- OBUF_SIZE = 3 × MAX_LEN (R6). -/
def obufSize (s : State) : Nat := 3 * s.maxLen

/-- OBUF byte `j` as the host sees it while idle: the last byte written, or an unspecified one (R55, U1, U5). -/
def outByte (s : State) (j : Nat) : Byte := (s.obuf.read j).getD (Config.obufByte s.outFill j)

/-! ### Acceptance and completion (30_encoding.md R114, R115; 60_exceptions.md R302) -/

/-- Acceptance of the command word `w` by an idle block (R114): BUSY is 1 from here on. -/
def accept (w : Word) (s : State) : State :=
  { s with latched := some w, done := false, err := none, empty := false }

/-- Why a command ends without its result: a command error (R302), or a fault of the model. -/
inductive Stop where
  | error (e : CmdError)
  | fault (f : Fault)
deriving DecidableEq, Repr

/-- What a command computes from the acceptance state: a value, or the reason it stops (R115, R116). -/
abbrev Run (α : Type) := Except Stop α

/-- `raise e` of the command rules (R302). -/
def raise {α : Type} (e : CmdError) : Run α := .error (.error e)

/-- Stop with a fault of the model. -/
def faultWith {α : Type} (f : Fault) : Run α := .error (.fault f)

/-- Completion without an error (R115): EMPTY is what the command says, BUSY becomes 0 and DONE 1; ERR is not
written (log entry 15). -/
def completeOk (empty : Bool) (t : State) : State :=
  { t with empty := empty, latched := none, done := true }

/-- Completion with an error (R115, R302): ERR holds its code, BUSY becomes 0 and DONE 1, and nothing else changes. It is
all the exception entry the block has: no trap, no saved state, no change of mode (R307); there is no return (R308). -/
def completeError (e : CmdError) (s : State) : State :=
  { s with err := some e, latched := none, done := true }

/-- The sequencer's step around a command's result (R115): `s` is the acceptance state, and a result is the state with the
command's writes applied, paired with the command's `empty`. -/
def finish (s : State) (r : Run (State × Bool)) : Host.Outcome State Fault Refusal :=
  match r with
  | .ok (t, empty) => .next (completeOk empty t)
  | .error (.error e) => .next (completeError e s)
  | .error (.fault f) => .fault f

/-! ### The ratio and result publication (44_ratio_bench.md R271, R273) -/

/-- The algorithm id (R42). -/
def algId : Alg → Fin 4
  | .huffman => 0
  | .rle => 1
  | .delta => 2
  | .lz77 => 3

/-- Ratio(bits, n): numerator and denominator, (0, 0) for an empty input (R271). -/
def ratio (bits n : Nat) : Int × Nat :=
  if n = 0 then (0, 0) else ((8 * n : Nat) - (bits : Nat), 8 * n)

/-- The result record Publish leaves for algorithm `a` (R273). -/
def resultRecord (a : Alg) (bits n : Nat) : ResRec where
  alg := BitVec.ofNat 2 (algId a)
  valid := true
  sizeBits := BitVec.ofNat 32 bits
  rnum := BitVec.ofInt 32 (ratio bits n).1
  rden := BitVec.ofNat 32 (ratio bits n).2

/-- The writes of Publish(a, out, bits, n): OBUF[0..|out|), the OUT_* and RATIO_* registers and RES[a] (R273). -/
def publishWrites (a : Alg) (out : List Byte) (bits n : Nat) (s : State) : State :=
  { s with
    obuf := s.obuf.writeBytes 0 out
    outAlg := some a
    outBytes := BitVec.ofNat 32 out.length
    outBits := BitVec.ofNat 32 bits
    ratioNum := BitVec.ofInt 32 (ratio bits n).1
    ratioDen := BitVec.ofNat 32 (ratio bits n).2
    res := s.res.set (algId a) (resultRecord a bits n) (algId a).isLt }

/-- Publish (R273); an OutByte index at or beyond OBUF_SIZE faults (R97). -/
def publish (a : Alg) (out : List Byte) (bits n : Nat) (s : State) : Run State :=
  if out.length ≤ obufSize s then .ok (publishWrites a out bits n s) else faultWith .outByteRange

/-! ### Reset (70_reset_and_hazards.md R340, R342) -/

/-- Every register and table at its reset value (R340); MAX_LEN, the three memories and the host's side as in `s`. -/
def resetRegisters (s : State) : State :=
  { State.resetWith s.maxLen with
    node := s.node
    ibuf := s.ibuf
    obuf := s.obuf
    ibufFill := s.ibufFill
    outFill := s.outFill
    draws := s.draws
    host := s.host
    reads := s.reads
    hostFaults := s.hostFaults
    turns := s.turns }

/-- NODE and OBUF hold new unspecified contents (R342, U3). -/
def forgetOutputs (s : State) : State :=
  { s with node := Vector.replicate 511 none, obuf := [], outFill := s.outFill + 1 }

/-- IBUF holds new unspecified contents (R340, U1). -/
def forgetInput (s : State) : State :=
  { s with ibuf := [], ibufFill := s.ibufFill + 1 }

/-- Hardware reset by RST (R340). -/
def hardReset (s : State) : State := forgetInput (forgetOutputs (resetRegisters s))

/-- Soft reset by CTRL.SRST (R342): a running command is discarded, and then NODE and OBUF become unspecified
(the new contents: DESIGN CHOICE, log entry 2). -/
def softReset (s : State) : State :=
  if s.busy then forgetOutputs (resetRegisters s) else resetRegisters s

end Sys2Proof.Machine
end

