-- ==== Sys2Proof/Machine/Operands.lean ====
section
/-! DEFINITION. The operands of the commands, all of them fixed state (30_encoding.md R113): LEN, IBUF, CODE, NODE; and
the decimal text that RLE and LZ77 emit (00_scope.md R10). -/

namespace Sys2Proof.Machine

/-- InByte(j) = IBUF[j]: the last byte the host wrote, or an unspecified one (20_memory.md R97, R345, U1). -/
def inByte (s : State) (j : Nat) : Byte := (s.ibuf.read j).getD (Config.ibufByte s.ibufFill j)

/-- The input ByteBuffer IBUF[0..n) (R12, R54). -/
def inputBytes (s : State) (n : Nat) : List Byte := (List.range n).map (inByte s)

/-- `n <- CSR.LEN`, with the check every input-reading command makes first (R38, R300). -/
def inputLen (s : State) : Run Nat :=
  if s.len.toNat > s.maxLen then raise .lenRange else .ok s.len.toNat

/-- CODE[b] (R52). -/
def codeOf (codes : Vector Code 256) (b : Byte) : Code := codes[b.toNat]'b.isLt

/-- NODE[k], `none` where nothing has been written (R53). -/
def nodeAt (s : State) (k : Nat) : Option Node := (s.node[k]?).join

/-- The ASCII byte of a decimal digit (R10). -/
def digitByte (d : Nat) : Byte := BitVec.ofNat 8 (0x30 + d)

/-- The decimal digits of `v`, most significant first, with at most `fuel + 1` of them. -/
def decDigits : Nat → Nat → List Byte
  | 0, v => [digitByte v]
  | fuel + 1, v => if v < 10 then [digitByte v] else decDigits fuel (v / 10) ++ [digitByte (v % 10)]

/-- dec(v), the shortest decimal text of `v` (R10). -/
def dec (v : Nat) : List Byte := decDigits v v

end Sys2Proof.Machine
end

