-- ==== Sys2Proof/Machine/Delta.lean ====
section
/-! DEFINITION. The delta encoder and its command (42_delta.md). -/

namespace Sys2Proof.Machine

/-- Each byte minus the input byte before it, modulo 256; `prev` is the input byte before the list (R220). -/
def deltaFrom (prev : Byte) : List Byte → List Byte
  | [] => []
  | b :: bs => (b - prev) :: deltaFrom b bs

/-- DeltaStep (R220): the first byte unchanged, then the differences. -/
def deltaStep : List Byte → List Byte
  | [] => []
  | b :: bs => b :: deltaFrom b bs

/-- The body of DELTA after its LEN check, which BENCH runs too (R225, R276). -/
def deltaBody (n : Nat) (s : State) : Run State :=
  if n = 0 then publish .delta [] 0 0 s
  else publish .delta (deltaStep (inputBytes s n)) (8 * n) n s

/-- DELTA (R225). -/
def execDelta (s : State) : Host.Outcome State Fault Refusal :=
  finish s do
    let n ← inputLen s
    let t ← deltaBody n s
    .ok (t, n == 0)

end Sys2Proof.Machine
end

