-- ==== Sys2Proof/Machine/Flags.lean ====
section
/-! DEFINITION. The flags: STATUS as the host reads it and writes it, the pipeline validity flags, and the interrupt line
(10_state.md R36, R48, R49, R57). -/

namespace Sys2Proof.Machine

/-- The code of an error in STATUS.ERR (60_exceptions.md R300). -/
def CmdError.code : CmdError → BitVec 4
  | .illegalCmd => 1
  | .lenRange => 2
  | .seq => 3
  | .emptyTable => 4
  | .noCode => 5

/-- STATUS.ERR, bits 7:4 (R36). -/
def errField (s : State) : BitVec 4 :=
  match s.err with
  | none => 0
  | some e => CmdError.code e

/-- STATUS as a read returns it, reserved bits 0 (R36). -/
def statusWord (s : State) : Word :=
  0#17 ++ BitVec.ofBool s.codeValid ++ BitVec.ofBool s.treeValid ++ BitVec.ofBool s.freqValid ++ 0#2
    ++ BitVec.ofBool s.empty ++ BitVec.ofBool s.ovr ++ errField s ++ 0#2 ++ BitVec.ofBool s.done
    ++ BitVec.ofBool s.busy

/-- A write to STATUS: clears DONE and OVR where the written bit is 1, and nothing else (R36). -/
def writeStatus (v : Word) (s : State) : State :=
  { s with done := s.done && !v.getLsbD 1, ovr := s.ovr && !v.getLsbD 8 }

/-- A dropped write sets OVR (60_exceptions.md R306). -/
def dropWrite (s : State) : State := { s with ovr := true }

/-- CTRL as a read returns it: IE in bit 0, SRST and the reserved bits 0 (R35). -/
def ctrlWord (s : State) : Word := 0#31 ++ BitVec.ofBool s.ie

/-- A write to CTRL, honoured while BUSY too: SRST = 1 is a soft reset, which leaves IE = 0; otherwise IE is written
(R35, R342). -/
def writeCtrl (v : Word) (s : State) : State :=
  if v.getLsbD 1 then softReset s else { s with ie := v.getLsbD 0 }

/-- The interrupt output, IRQ = CTRL.IE ∧ STATUS.DONE (R49, R310). -/
def irq (s : State) : Bool := s.ie && s.done

/-- The validity flags after a frequency analysis (R48). -/
def freqFlags (s : State) : State := { s with freqValid := true, treeValid := false, codeValid := false }

/-- The validity flags after a tree has been built (R48). -/
def treeFlags (s : State) : State := { s with treeValid := true, codeValid := false }

/-- The validity flags after codewords have been assigned (R48). -/
def codeFlags (s : State) : State := { s with codeValid := true }

end Sys2Proof.Machine
end

