-- ==== Sys2Proof/Machine/Huffman.lean ====
section
/-! DEFINITION. The Huffman pipeline (40_huffman.md): the four stage functions, then FREQ, BUILD, CODEGEN, HENC, HUFF. -/

namespace Sys2Proof.Machine

/-! ### Frequency analysis (R140) -/

/-- FreqStep: how often each byte value occurs in the input (R140). -/
def freqStep (input : List Byte) : Vector Nat 256 :=
  Vector.ofFn fun s => input.count (BitVec.ofFin s)

/-- m, the number of distinct byte values of a frequency table (R140). -/
def symbolCount (f : List Nat) : Nat := f.countP (0 < ·)

/-- The writes of the frequency stage: FREQ, NSYM and the flags (R150). -/
def setFreq (f : Vector Nat 256) (s : State) : State :=
  freqFlags { s with freq := f.map (BitVec.ofNat 32), nsym := BitVec.ofNat 9 (symbolCount f.toList) }

/-! ### Tree building (R141 to R145) -/

/-- An entry of the priority queue: its key is (freq, seq), and seq is also the NODE index (R142). -/
structure QueueEntry where
  freq : Nat
  seq : Nat
deriving DecidableEq, Repr

/-- The total key order: smaller freq first, then smaller seq (R142). -/
def QueueEntry.before (x y : QueueEntry) : Bool :=
  x.freq < y.freq || (x.freq == y.freq && x.seq < y.seq)

/-- Insert an entry into the queue, which is kept in key order, so that min(Q) is its first entry (R142). -/
def enqueue (e : QueueEntry) : List QueueEntry → List QueueEntry
  | [] => [e]
  | x :: q => if QueueEntry.before e x then e :: x :: q else x :: enqueue e q

/-- A prefix tree: the node store from index 0 on, and the root's index (R143). -/
structure Tree where
  nodes : List Node
  root : Nat
deriving DecidableEq, Repr

/-- One Leaf per byte value that occurs, in ascending byte value; `s` is the value of the table's first entry (R141). -/
def leavesFrom (s : Nat) : List Nat → List Node
  | [] => []
  | f :: fs => if 0 < f then .leaf (BitVec.ofNat 8 s) f :: leavesFrom (s + 1) fs else leavesFrom (s + 1) fs

/-- A node's frequency (R53). -/
def Node.freq : Node → Nat
  | .leaf _ f => f
  | .internal f _ _ => f

/-- The queue after the leaves have been inserted in order, the first of them with sequence number `k` (R141, R142). -/
def enqueueLeaves (k : Nat) : List Node → List QueueEntry → List QueueEntry
  | [], q => q
  | n :: ns, q => enqueueLeaves (k + 1) ns (enqueue { freq := Node.freq n, seq := k } q)

/-- The merge loop (R143): while the queue holds two entries, the two smallest become the children of a new Internal node
at the next index `k`. Answers the new nodes in order and the root, the one entry that is left; `fuel` bounds the turns,
and an empty queue has no root. -/
def mergeQueue : Nat → Nat → List QueueEntry → Option (List Node × Nat)
  | _, _, [] => none
  | _, _, [e] => some ([], e.seq)
  | 0, _, _ :: _ :: _ => none
  | fuel + 1, k, a :: b :: q =>
    match mergeQueue fuel (k + 1) (enqueue { freq := a.freq + b.freq, seq := k } q) with
    | none => none
    | some (ns, root) => some (.internal (a.freq + b.freq) a.seq b.seq :: ns, root)

/-- BuildStep (R141 to R144); `none` for a table with no positive entry, on which it is not defined. -/
def buildStep (f : List Nat) : Option Tree :=
  let leaves := leavesFrom 0 f
  match mergeQueue leaves.length leaves.length (enqueueLeaves 0 leaves []) with
  | none => none
  | some (ns, root) => some { nodes := leaves ++ ns, root := root }

/-- The writes of the tree stage: NODE[0..k), NNODES, ROOT and the flags; entries from k on are kept (R151). -/
def setTree (t : Tree) (s : State) : State :=
  treeFlags { s with
    node := Vector.ofFn fun k => (t.nodes[k.val]?).or s.node[k]
    nnodes := BitVec.ofNat 10 t.nodes.length
    root := BitVec.ofNat 9 t.root }

/-! ### Code assignment (R146) -/

/-- The codewords of a subtree whose root has path `p`, the last one bound first; `none` where the walk meets no node or
does not end within `fuel` levels (R146). -/
def walkTree (node : Nat → Option Node) : Nat → Nat → Code → Option (List (Byte × Code))
  | 0, _, _ => none
  | fuel + 1, k, p =>
    match node k with
    | none => none
    | some (.leaf s _) => some [(s, p)]
    | some (.internal _ l r) =>
      match walkTree node fuel l (p ++ [false]), walkTree node fuel r (p ++ [true]) with
      | some a, some b => some (b ++ a)
      | _, _ => none

/-- The table that binds each byte value to its codeword, and every other value to the empty one (R146). -/
def codeTable (bound : List (Byte × Code)) : Vector Code 256 :=
  Vector.ofFn fun s => (bound.lookup (BitVec.ofFin s)).getD []

/-- CodegenStep (R146): the paths from the root, or the one-bit code 0 where the root is a Leaf. -/
def codegenStep (node : Nat → Option Node) (root : Nat) : Option (Vector Code 256) :=
  match node root with
  | some (.leaf s _) => some (codeTable [(s, [false])])
  | _ => (walkTree node nodeMax root []).map codeTable

/-- The writes of the code stage: CODE and the flag (R152). -/
def setCode (c : Vector Code 256) (s : State) : State := codeFlags { s with code := c }

/-! ### Bit-stream encoding (R147, R148) -/

/-- The bit-string: each input byte's codeword, in input order (R147). -/
def hencBits (c : Vector Code 256) (input : List Byte) : List Bool := input.flatMap (codeOf c)

/-- Byte `i` of the packed bit-string, most significant bit first, missing bits 0 (R148). -/
def packByte (bits : List Bool) (i : Nat) : Byte :=
  BitVec.ofFnBE fun t : Fin 8 => bits.getD (8 * i + t.val) false

/-- Pack (R148). -/
def pack (bits : List Bool) : List Byte := (List.range ((bits.length + 7) / 8)).map (packByte bits)

/-- HencStep and its Publish (R153). -/
def publishHenc (c : Vector Code 256) (n : Nat) (s : State) : Run State :=
  let bits := hencBits c (inputBytes s n)
  publish .huffman (pack bits) bits.length n s

/-! ### The commands -/

/-- FREQ (R150). -/
def execFreq (s : State) : Host.Outcome State Fault Refusal :=
  finish s do
    let n ← inputLen s
    .ok (setFreq (freqStep (inputBytes s n)) s, n == 0)

/-- BUILD (R151). -/
def execBuild (s : State) : Host.Outcome State Fault Refusal :=
  finish s <|
    if s.freqValid = false then raise .seq
    else if s.nsym = 0 then raise .emptyTable
    else
      match buildStep (s.freq.toList.map BitVec.toNat) with
      | none => faultWith .emptyQueue
      | some t => .ok (setTree t s, false)

/-- CODEGEN (R152). -/
def execCodegen (s : State) : Host.Outcome State Fault Refusal :=
  finish s <|
    if s.treeValid = false then raise .seq
    else
      match codegenStep (nodeAt s) s.root.toNat with
      | none => faultWith .brokenTree
      | some c => .ok (setCode c s, false)

/-- HENC (R153). -/
def execHenc (s : State) : Host.Outcome State Fault Refusal :=
  finish s do
    let n ← inputLen s
    if s.codeValid = false then raise .seq
    else if n = 0 then
      let t ← publish .huffman [] 0 0 s
      .ok (t, true)
    else if (inputBytes s n).any (fun b => (codeOf s.code b).isEmpty) then raise .noCode
    else
      let t ← publishHenc s.code n s
      .ok (t, false)

/-- The body of HUFF after its LEN check, which BENCH runs too (R154, R276). -/
def huffBody (n : Nat) (s : State) : Run State :=
  let f := freqStep (inputBytes s n)
  let s₁ := setFreq f s
  if n = 0 then publish .huffman [] 0 0 s₁
  else
    match buildStep f.toList with
    | none => faultWith .emptyQueue
    | some t =>
      match codegenStep (fun k => t.nodes[k]?) t.root with
      | none => faultWith .brokenTree
      | some c => publishHenc c n (setCode c (setTree t s₁))

/-- HUFF (R154). -/
def execHuff (s : State) : Host.Outcome State Fault Refusal :=
  finish s do
    let n ← inputLen s
    let t ← huffBody n s
    .ok (t, n == 0)

end Sys2Proof.Machine
end

