-- ==== Sys2Proof/Machine/Lz77.lean ====
section
/-! DEFINITION. The LZ77 match finder, its encoder and its command (43_lz77.md). -/

namespace Sys2Proof.Machine

/-- How many bytes two lists share from their starts on, counted up to `cap`. -/
def commonRun : Nat → List Byte → List Byte → Nat
  | cap + 1, x :: xs, y :: ys => if x = y then commonRun cap xs ys + 1 else 0
  | _, _, _ => 0

/-- MatchLen(i, pos): equal bytes from `i` and from `pos` on, up to LOOKAHEAD and the end of the input (R241). -/
def matchLen (input : List Byte) (i pos : Nat) : Nat :=
  commonRun lzLookahead (input.drop i) (input.drop pos)

/-- One turn of FindBest: the candidate `i` replaces the best (offset, length) only when strictly longer (R242). -/
def betterMatch (input : List Byte) (pos : Nat) (best : Nat × Nat) (i : Nat) : Nat × Nat :=
  if matchLen input i pos > best.2 then (pos - i, matchLen input i pos) else best

/-- FindBest(pos): (offset, length) of the best match in the window, scanned left to right (R242). -/
def findBest (input : List Byte) (pos : Nat) : Nat × Nat :=
  (List.range' (pos - lzWindow) (pos - (pos - lzWindow))).foldl (betterMatch input pos) (0, 0)

/-- A match token (R244). -/
def lzToken (off len : Nat) : List Byte := [tokOpen] ++ dec off ++ [tokSep] ++ dec len ++ [tokClose]

/-- The loop of LzStep from the cursor `pos` on; `fuel` bounds its turns (R243, R245). -/
def lzFrom (input : List Byte) : Nat → Nat → List Byte
  | 0, _ => []
  | fuel + 1, pos =>
    match input[pos]? with
    | none => []
    | some b =>
      let best := findBest input pos
      if best.2 ≥ lzMinMatch then lzToken best.1 best.2 ++ lzFrom input fuel (pos + best.2)
      else b :: lzFrom input fuel (pos + 1)

/-- LzStep (R245). -/
def lzStep (input : List Byte) : List Byte := lzFrom input input.length 0

/-- The body of LZ77 after its LEN check, which BENCH runs too (R250, R276). -/
def lz77Body (n : Nat) (s : State) : Run State :=
  if n = 0 then publish .lz77 [] 0 0 s
  else
    let out := lzStep (inputBytes s n)
    publish .lz77 out (8 * out.length) n s

/-- LZ77 (R250). -/
def execLz77 (s : State) : Host.Outcome State Fault Refusal :=
  finish s do
    let n ← inputLen s
    let t ← lz77Body n s
    .ok (t, n == 0)

end Sys2Proof.Machine
end

