-- ==== Sys2Proof/Machine/Rle.lean ====
section
/-! DEFINITION. The RLE encoder and its command (41_rle.md). -/

namespace Sys2Proof.Machine

/-- A run of `cnt` bytes `run` as it is emitted: the decimal count, then the byte (R201). -/
def rlePair (run : Byte) (cnt : Nat) : List Byte := dec cnt ++ [run]

/-- The scan of R200 from inside a run of `cnt` bytes `run`. -/
def rleScan (run : Byte) (cnt : Nat) : List Byte → List Byte
  | [] => rlePair run cnt
  | b :: bs => if b = run then rleScan run (cnt + 1) bs else rlePair run cnt ++ rleScan b 1 bs

/-- RleStep (R200). -/
def rleStep : List Byte → List Byte
  | [] => []
  | b :: bs => rleScan b 1 bs

/-- The body of RLE after its LEN check, which BENCH runs too (R205, R276). -/
def rleBody (n : Nat) (s : State) : Run State :=
  if n = 0 then publish .rle [] 0 0 s
  else
    let out := rleStep (inputBytes s n)
    publish .rle out (8 * out.length) n s

/-- RLE (R205). -/
def execRle (s : State) : Host.Outcome State Fault Refusal :=
  finish s do
    let n ← inputLen s
    let t ← rleBody n s
    .ok (t, n == 0)

end Sys2Proof.Machine
end

