-- ==== Sys2Proof/Machine/Bench.lean ====
section
/-! DEFINITION. The benchmark sequencer, NOP, and the completion of an illegal word (44_ratio_bench.md R276, R277;
30_encoding.md R117). -/

namespace Sys2Proof.Machine

/-- The four encoder bodies in the fixed order Huffman, RLE, Delta, LZ77 (R276). -/
def benchBody (n : Nat) (s : State) : Run State := do
  let s₁ ← huffBody n s
  let s₂ ← rleBody n s₁
  let s₃ ← deltaBody n s₂
  lz77Body n s₃

/-- BENCH (R276): LEN is checked once, before any encoder runs. -/
def execBench (s : State) : Host.Outcome State Fault Refusal :=
  finish s do
    let n ← inputLen s
    let t ← benchBody n s
    .ok (t, n == 0)

/-- NOP (R277). -/
def execNop (s : State) : Host.Outcome State Fault Refusal := finish s (.ok (s, false))

/-- A word that is no command completes with ILLEGAL_CMD (R117). -/
def execIllegal (s : State) : Host.Outcome State Fault Refusal := finish s (raise .illegalCmd)

end Sys2Proof.Machine
end

