-- ==== Sys2Proof/Machine/Dispatch.lean ====
section
/-! DEFINITION. Execute on a decoded command (30_encoding.md R116): one arm per command. -/

namespace Sys2Proof.Machine

def exec (i : Instr) (s : State) : Host.Outcome State Fault Refusal :=
  match i with
  | .nop => Sys2Proof.Machine.execNop s
  | .freq => Sys2Proof.Machine.execFreq s
  | .build => Sys2Proof.Machine.execBuild s
  | .codegen => Sys2Proof.Machine.execCodegen s
  | .henc => Sys2Proof.Machine.execHenc s
  | .huff => Sys2Proof.Machine.execHuff s
  | .rle => Sys2Proof.Machine.execRle s
  | .delta => Sys2Proof.Machine.execDelta s
  | .lz77 => Sys2Proof.Machine.execLz77 s
  | .bench => Sys2Proof.Machine.execBench s

end Sys2Proof.Machine
end

