-- ==== Sys2Proof/Machine/Bus.lean ====
section
/-! DEFINITION. The register window (20_memory.md R80 to R90; 10_state.md R32 to R53): which register or memory byte an
access reaches, the registers' images, and what a host read and a host write do. -/

namespace Sys2Proof.Machine

/-- The registers of the window (R32), the table entries by index and word. -/
inductive Reg where
  | id
  | param
  | ctrl
  | status
  | cmd
  | len
  | nsym
  | nnodes
  | root
  | outAlg
  | outBytes
  | outBits
  | ratioNum
  | ratioDen
  | res (a w : Fin 4)
  | freq (s : Fin 256)
  | codeLen (s : Fin 256)
  | codeBits (s : Fin 256) (w : Fin 8)
  | node (k : Fin 511) (w : Fin 4)
deriving DecidableEq, Repr

/-- What an access reaches: a register, or the bytes of IBUF or OBUF from an index on. -/
inductive Target where
  | reg (r : Reg)
  | ibuf (j : Nat)
  | obuf (j : Nat)
deriving DecidableEq, Repr

/-! ### The address map (R82) -/

/-- The window offset of the bus address `addr` when the window lies at `base`, the platform parameter BASE (R6, R81);
`none` outside the window. -/
def windowOffset (base addr : Nat) : Option Nat :=
  if base ≤ addr ∧ addr < base + windowSize then some (addr - base) else none

/-- The registers from ID to RATIO_DEN, by word (R32). -/
def lowReg : Nat → Option Reg
  | 0 => some .id
  | 1 => some .param
  | 2 => some .ctrl
  | 3 => some .status
  | 4 => some .cmd
  | 5 => some .len
  | 6 => some .nsym
  | 7 => some .nnodes
  | 8 => some .root
  | 9 => some .outAlg
  | 10 => some .outBytes
  | 11 => some .outBits
  | 12 => some .ratioNum
  | 13 => some .ratioDen
  | _ => none

/-- The register at a word-aligned offset below 0x10_0000; `none` where the map reserves the offset (R82). -/
def regAt (off : Nat) : Option Reg :=
  if off < 0x100 then lowReg (off / 4)
  else if h : 0x100 ≤ off ∧ off < 0x140 then
    some (.res ⟨(off - 0x100) / 16, by omega⟩ ⟨(off - 0x100) % 16 / 4, by omega⟩)
  else if h : 0x400 ≤ off ∧ off < 0x800 then some (.freq ⟨(off - 0x400) / 4, by omega⟩)
  else if h : 0x800 ≤ off ∧ off < 0xC00 then some (.codeLen ⟨(off - 0x800) / 4, by omega⟩)
  else if h : 0x2000 ≤ off ∧ off < 0x4000 then
    some (.codeBits ⟨(off - 0x2000) / 32, by omega⟩ ⟨(off - 0x2000) % 32 / 4, by omega⟩)
  else if h : 0x4000 ≤ off ∧ off < 0x5FF0 then
    some (.node ⟨(off - 0x4000) / 16, by omega⟩ ⟨(off - 0x4000) % 16 / 4, by omega⟩)
  else none

/-- The offset of IBUF[0] (R82). -/
def ibufBase : Nat := 0x100000

/-- The offset of OBUF[0] (R82). -/
def obufBase : Nat := 0x400000

/-- What an access of width `w` at offset `off` reaches; `none` is a bus error: misaligned, sub-word to a register,
unmapped, or beyond capacity (R83, R84, R85, R87, R88). -/
def target (maxLen : Nat) (w : Width) (off : Nat) : Option Target :=
  if off % w.bytes ≠ 0 then none
  else if off < ibufBase then (if w = .w32 then (regAt off).map .reg else none)
  else if off < obufBase then
    if off - ibufBase + w.bytes ≤ maxLen then some (.ibuf (off - ibufBase)) else none
  else if off - obufBase + w.bytes ≤ 3 * maxLen then some (.obuf (off - obufBase))
  else none

/-! ### Register images (10_state.md) -/

/-- ID, a constant (R33). -/
def idWord : Word := 0x48430100#32

/-- OUT_ALG (R42). -/
def outAlgWord : Option Alg → Word
  | none => 0xF#32
  | some a => BitVec.ofNat 32 (algId a)

/-- The words of a result record (R47). -/
def resWord (r : ResRec) (w : Fin 4) : Word :=
  match w with
  | 0 => BitVec.ofBool r.valid ++ 0#29 ++ r.alg
  | 1 => r.sizeBits
  | 2 => r.rnum
  | 3 => r.rden

/-- CODE_LEN[s] (R51). -/
def codeLenWord (code : Code) : Word := (BitVec.ofNat 8 code.length).setWidth 32

/-- CODE_BITS[s][w]: bit `31 - t` is bit `32 * w + t` of the codeword, 0 beyond its end (R52). -/
def codeBitsWord (code : Code) (w : Nat) : Word :=
  BitVec.ofFnBE fun t : Fin 32 => code.getD (32 * w + t.val) false

/-- The words of a NODE entry (R53). -/
def nodeWord (n : Node) (w : Fin 4) : Word :=
  match n, w with
  | .leaf s _, 0 => 0#16 ++ s ++ 0#8
  | .leaf _ f, 1 => BitVec.ofNat 32 f
  | .leaf _ _, 2 => 0
  | .leaf _ _, 3 => 0
  | .internal _ _ _, 0 => 1
  | .internal f _ _, 1 => BitVec.ofNat 32 f
  | .internal _ l _, 2 => BitVec.ofNat 32 l
  | .internal _ _ r, 3 => BitVec.ofNat 32 r

/-- A word of a NODE entry that nothing has written: unspecified, but for the reserved bits of word 0, which read 0
(R32, R53, U2, U13; DEDUCED, log entry 3). -/
def unwrittenNodeWord (fill : Nat) (k : Nat) (w : Fin 4) : Word :=
  if w = 0 then Config.nodeWord fill k w &&& 0x0000FF01#32 else Config.nodeWord fill k w

/-- What a register reads as while no command runs (R32 to R53). -/
def readReg (s : State) : Reg → Word
  | .id => idWord
  | .param => BitVec.ofNat 32 s.maxLen
  | .ctrl => ctrlWord s
  | .status => statusWord s
  | .cmd => 0
  | .len => s.len
  | .nsym => s.nsym.setWidth 32
  | .nnodes => s.nnodes.setWidth 32
  | .root => s.root.setWidth 32
  | .outAlg => outAlgWord s.outAlg
  | .outBytes => s.outBytes
  | .outBits => s.outBits
  | .ratioNum => s.ratioNum
  | .ratioDen => s.ratioDen
  | .res a w => resWord s.res[a] w
  | .freq b => s.freq[b]
  | .codeLen b => codeLenWord s.code[b]
  | .codeBits b w => codeBitsWord s.code[b] w
  | .node k w =>
    match s.node[k] with
    | some n => nodeWord n w
    | none => unwrittenNodeWord s.outFill k w

/-- The registers a running command may write, whose reads while BUSY are unspecified (R352, U4). -/
def isResultReg : Reg → Bool
  | .id => false
  | .param => false
  | .ctrl => false
  | .status => false
  | .cmd => false
  | .len => false
  | .nsym => true
  | .nnodes => true
  | .root => true
  | .outAlg => true
  | .outBytes => true
  | .outBits => true
  | .ratioNum => true
  | .ratioDen => true
  | .res _ _ => true
  | .freq _ => true
  | .codeLen _ => true
  | .codeBits _ _ => true
  | .node _ _ => true

/-! ### Reads and writes (R83 to R90) -/

/-- Bytes on the bus, the byte at the lowest offset least significant (R86). -/
def littleEndian : List Byte → Nat
  | [] => 0
  | b :: bs => b.toNat + 256 * littleEndian bs

/-- The bytes `w` moves of a written value, lowest offset first (R86). -/
def valueBytes (w : Width) (v : Word) : List Byte :=
  (List.range w.bytes).map fun i => v.extractLsb' (8 * i) 8

/-- A free draw: what a read of a result while BUSY returns (U4). It uses up one free value. -/
def drawRead (w : Width) (s : State) : Word × State :=
  (BitVec.ofNat 32 ((Config.busyRead s.draws).toNat % 2 ^ (8 * w.bytes)), { s with draws := s.draws + 1 })

/-- A host read: the data, zero-extended, and the state after it, or `none` for a bus error. A read changes nothing
(R89) but the model's count of free draws. -/
def hostRead (w : Width) (off : Nat) (s : State) : Option (Word × State) :=
  match target s.maxLen w off with
  | none => none
  | some (.reg r) => some (if s.busy && isResultReg r then drawRead w s else (readReg s r, s))
  | some (.ibuf j) => some (BitVec.ofNat 32 (littleEndian ((List.range w.bytes).map fun i => inByte s (j + i))), s)
  | some (.obuf j) =>
    some (if s.busy then drawRead w s
      else (BitVec.ofNat 32 (littleEndian ((List.range w.bytes).map fun i => outByte s (j + i))), s))

/-- A write to a register: CTRL, STATUS, CMD and LEN act, and every other register ignores it. While BUSY, a write to
CMD or LEN is dropped (R35 to R38, R88, R114, R351). -/
def writeReg (v : Word) (s : State) : Reg → State
  | .id => s
  | .param => s
  | .ctrl => writeCtrl v s
  | .status => writeStatus v s
  | .cmd => if s.busy then dropWrite s else accept v s
  | .len => if s.busy then dropWrite s else { s with len := v }
  | .nsym => s
  | .nnodes => s
  | .root => s
  | .outAlg => s
  | .outBytes => s
  | .outBits => s
  | .ratioNum => s
  | .ratioDen => s
  | .res _ _ => s
  | .freq _ => s
  | .codeLen _ => s
  | .codeBits _ _ => s
  | .node _ _ => s

/-- A host write: the state after it, or `none` for a bus error. A write to OBUF is ignored; a write to IBUF while BUSY
is dropped (R84, R85, R351), but a rejected one is a bus error and sets no OVR (DEDUCED, log
entry 13). -/
def hostWrite (w : Width) (off : Nat) (v : Word) (s : State) : Option State :=
  match target s.maxLen w off with
  | none => none
  | some (.reg r) => some (writeReg v s r)
  | some (.ibuf j) => some (if s.busy then dropWrite s else { s with ibuf := s.ibuf.writeBytes j (valueBytes w v) })
  | some (.obuf _) => some s

end Sys2Proof.Machine
end

