-- ==== Sys2Proof/Machine/HostProgram.lean ====
section
/-! DEFINITION. The host's move: the next operation of its pending program (20_memory.md R80, R92; 30_encoding.md R119,
R120), and the expansions of the pseudo-instructions. -/

namespace Sys2Proof.Machine

/-- The bus error of a rejected access: the block changes nothing, a write is discarded and a read returns no data; the host
has a fault that names the access and that nothing clears (R90, R305). -/
def rejectAccess (a : Access) (s : State) : State := { s with hostFaults := a :: s.hostFaults }

/-- A host read's data handed to the host (R119). -/
def recordRead (w : Width) (off : Nat) (v : Word) (s : State) : State :=
  { s with reads := { width := w, off := off, data := v } :: s.reads }

/-- One bus access of the host (R119): a read hands its data to the host, a rejected access is a bus error, after which the
host and the block go on (R90, R305; log entry 5), and an access outside the window is the platform's (R81; log entry 16). -/
def busAccess (a : Access) (s : State) : Host.Outcome State Fault Refusal :=
  if a.offset < windowSize then
    match a with
    | .read w off =>
      match hostRead w off s with
      | none => .next (rejectAccess a s)
      | some (v, t) => .next (recordRead w off v t)
    | .write w off v =>
      match hostWrite w off v s with
      | none => .next (rejectAccess a s)
      | some t => .next t
  else .refused (.platformAccess a)

/-- The offset of STATUS (R32). -/
def statusOff : Nat := 0x00C

/-- The offset of OUT_BYTES (R32). -/
def outBytesOff : Nat := 0x028

/-- One poll of WAITDONE: `R32 STATUS`; while BUSY it stays the host's next operation, and the read that finds BUSY clear
is the one whose data the host keeps (R120). -/
def waitDone (s : State) : Host.Outcome State Fault Refusal :=
  if s.busy then .next { s with host := .waitDone :: s.host }
  else busAccess (.read .w32 statusOff) s

/-- READOUT: `R32 OUT_BYTES -> k`, after which the reads of OBUF[0..k) are the host's next operations (R120). -/
def readOut (s : State) : Host.Outcome State Fault Refusal :=
  match hostRead .w32 outBytesOff s with
  | none => .next (rejectAccess (.read .w32 outBytesOff) s)
  | some (k, t) =>
    .next (recordRead .w32 outBytesOff k
      { t with host := (List.range k.toNat).map (fun j => HostOp.access (.read .w8 (obufBase + j))) ++ t.host })

/-- One host operation; `s` has it taken off the pending program already. -/
def runHostOp (op : HostOp) (s : State) : Host.Outcome State Fault Refusal :=
  match op with
  | .access a => busAccess a s
  | .waitDone => waitDone s
  | .readOut => readOut s
  | .hardReset => .next (hardReset s)

/-- The host's move. With nothing pending it does nothing, and an idle block waits (R325; DEDUCED,
log entry 14). -/
def hostStep (s : State) : Host.Outcome State Fault Refusal :=
  match s.host with
  | [] => .next s
  | op :: rest => runHostOp op { s with host := rest }

/-- Whether the host moves next while a command runs (U6; DESIGN CHOICE, log entry 6). -/
def hostsTurn (s : State) : Bool := !s.host.isEmpty && s.turns.head? == some .host

/-- One turn has been taken. -/
def popTurn (s : State) : State := { s with turns := s.turns.tail }

/-! ### Pseudo-instructions (R120) -/

/-- `W32 off, val`. -/
def w32 (off : Nat) (val : Word) : HostOp := .access (.write .w32 off val)

/-- `CMD m`. -/
def opsCmd (i : Instr) : List HostOp := [w32 0x010 (encode i)]

/-- `RUN m`: `CMD m`, then `WAITDONE`. -/
def opsRun (i : Instr) : List HostOp := opsCmd i ++ [.waitDone]

/-- `LOAD "s"` and `LOADHEX`: the bytes into IBUF in order, then LEN. -/
def opsLoad (bytes : List Byte) : List HostOp :=
  bytes.mapIdx (fun j b => HostOp.access (.write .w8 (ibufBase + j) (b.setWidth 32)))
    ++ [w32 0x014 (BitVec.ofNat 32 bytes.length)]

/-- `ACK`: clear DONE and OVR. -/
def opsAck : List HostOp := [w32 statusOff 0x00000102#32]

end Sys2Proof.Machine
end

