-- ==== Sys2Proof/Machine/Sequencer.lean ====
section
/-! DEFINITION. The sequencer's move: the latched word decoded and executed (30_encoding.md R115, R116, R117). -/

namespace Sys2Proof.Machine

/-- Execute on the latched word `w`, applied and completed (R115, R116); a word that is no command completes with
ILLEGAL_CMD (R117). -/
def sequencerStep (w : Word) (s : State) : Host.Outcome State Fault Refusal :=
  match decode w with
  | some i => exec i s
  | none => execIllegal s

end Sys2Proof.Machine
end

