-- ==== Sys2Proof/Machine/Step.lean ====
section
/-! DEFINITION. One step of the machine: a move of the host or of the sequencer, never both (20_memory.md R80, R89), and
the placing of a command where the next step runs it. -/

namespace Sys2Proof.Machine

/-- One step. While no command is latched only the host can move; while one is, the sequencer moves unless the host has an
operation pending and the next turn is the host's (R115, U6). -/
def step (s : State) : Host.Outcome State Fault Refusal :=
  match s.latched with
  | none => hostStep s
  | some w => if hostsTurn s then hostStep (popTurn s) else sequencerStep w (popTurn s)

/-- `s` with the command word `w` accepted and the next turn the sequencer's, so that `step` runs it. A program comes to
run by the host's write to CMD (R114); this stands for that write (DESIGN CHOICE, log entry 8). -/
def State.withFetchWord (s : State) (nbits w : Nat) : State :=
  { accept (BitVec.ofNat 32 (w % 2 ^ nbits)) s with turns := .sequencer :: s.turns }

end Sys2Proof.Machine
end

