-- ==== Sys2Proof/Safety.lean ====
section
/-! DEFINITION. The terms claims are made in: what a state holds after a result has been published, which fields a command
may change, and the invariants that every step keeps. -/

namespace Sys2Proof.Machine

/-! ### What Publish leaves (44_ratio_bench.md R271, R273) -/

/-- `t` holds what Publish(a, out, bits, n) leaves on `s`: the output bytes from OBUF[0] on and every later byte as
before, the OUT_* and RATIO_* registers with exact values, RES[a] the same result, and the other records as before. -/
structure Published (a : Alg) (out : List Byte) (bits n : Nat) (s t : State) : Prop where
  outAlg : t.outAlg = some a
  outBytes : t.outBytes.toNat = out.length
  outBits : t.outBits.toNat = bits
  ratioNum : t.ratioNum.toInt = if n = 0 then 0 else 8 * (n : Int) - bits
  ratioDen : t.ratioDen.toNat = if n = 0 then 0 else 8 * n
  written : ∀ j, j < out.length → out[j]? = some (outByte t j)
  kept : ∀ j, out.length ≤ j → outByte t j = outByte s j
  record : t.res[algId a] =
    { alg := BitVec.ofNat 2 (algId a), valid := true, sizeBits := t.outBits, rnum := t.ratioNum, rden := t.ratioDen }
  others : ∀ b, b ≠ a → t.res[algId b] = s.res[algId b]

/-- `t` is a completed state: BUSY is 0 and DONE is 1 (R115). -/
def Completed (t : State) : Prop := t.busy = false ∧ t.done = true

/-- The number of input bytes a command reads, LEN (R12). -/
def inLen (s : State) : Nat := s.len.toNat

/-- The input ByteBuffer of the next command, IBUF[0..LEN) (R12). -/
def input (s : State) : List Byte := inputBytes s (inLen s)

/-- A command accepted by an idle block and then executed (R114, R115). -/
def runCommand (i : Instr) (s : State) : Host.Outcome State Fault Refusal := exec i (accept (encode i) s)

/-- The errors a command may report (60_exceptions.md R303). -/
def errorsOf : Instr → List CmdError
  | .nop => []
  | .freq => [.lenRange]
  | .build => [.seq, .emptyTable]
  | .codegen => [.seq]
  | .henc => [.lenRange, .seq, .noCode]
  | .huff => [.lenRange]
  | .rle => [.lenRange]
  | .delta => [.lenRange]
  | .lz77 => [.lenRange]
  | .bench => [.lenRange]

/-- The children of a NODE entry, as indices (R53). -/
def childrenOf : Node → List Nat
  | .leaf _ _ => []
  | .internal _ l r => [l, r]

/-- Entry `j` waits in the queue when entry `k` is created: it exists already, and no entry before `k` has it as a child
(R143). -/
def Tree.Waiting (t : Tree) (k j : Nat) : Prop :=
  j < k ∧ ∀ i, i < k → ∀ n, t.nodes[i]? = some n → j ∉ childrenOf n

/-- Entry `i` leaves the queue before entry `j`: smaller frequency first, and among equal ones the smaller index (R142). -/
def Tree.Before (t : Tree) (i j : Nat) : Prop :=
  ∃ x y, t.nodes[i]? = some x ∧ t.nodes[j]? = some y ∧ (Node.freq x < Node.freq y ∨ (Node.freq x = Node.freq y ∧ i < j))

/-- The node reached from index `k` along a path, 0 for left and 1 for right (R146). -/
def follow (node : Nat → Option Node) : Nat → Code → Option Node
  | k, [] => node k
  | k, b :: p =>
    match node k with
    | some (.internal _ l r) => follow node (if b then r else l) p
    | _ => none

/-! ### Frames (30_encoding.md R113) -/

/-- `t` is `s` but for STATUS.BUSY, DONE, ERR and EMPTY, which every command writes (R113, R115). -/
def SameButStatus (s t : State) : Prop :=
  t = { s with latched := t.latched, done := t.done, err := t.err, empty := t.empty }

/-- `t` is `s` but for STATUS.BUSY, DONE, ERR, EMPTY and what Publish writes: OBUF, the OUT_* and RATIO_* registers and
the result records (R113, R273). -/
def SameButResult (s t : State) : Prop :=
  t = { s with
    latched := t.latched
    done := t.done
    err := t.err
    empty := t.empty
    obuf := t.obuf
    outAlg := t.outAlg
    outBytes := t.outBytes
    outBits := t.outBits
    ratioNum := t.ratioNum
    ratioDen := t.ratioDen
    res := t.res }

/-- `t` is `s` but for STATUS.BUSY, DONE, ERR, EMPTY, what Publish writes, and what the pipeline stages write: FREQ, NSYM,
NODE, NNODES, ROOT, CODE and the validity flags (R113). -/
def SameButPipeline (s t : State) : Prop :=
  t = { s with
    latched := t.latched
    done := t.done
    err := t.err
    empty := t.empty
    obuf := t.obuf
    outAlg := t.outAlg
    outBytes := t.outBytes
    outBits := t.outBits
    ratioNum := t.ratioNum
    ratioDen := t.ratioDen
    res := t.res
    freq := t.freq
    nsym := t.nsym
    node := t.node
    nnodes := t.nnodes
    root := t.root
    code := t.code
    freqValid := t.freqValid
    treeValid := t.treeValid
    codeValid := t.codeValid }

/-! ### Invariants -/

/-- MAX_LEN lies in the range the spec admits (00_scope.md R6). -/
def ParamInv (s : State) : Prop := 1 ≤ s.maxLen ∧ s.maxLen ≤ Config.maxLenLimit

/-- IBUF and OBUF have their canonical form and hold bytes only below their capacities (R54, R55). -/
def MemoryInv (s : State) : Prop :=
  s.ibuf.wf ∧ s.obuf.wf ∧ (∀ x ∈ s.ibuf, x.1 < s.maxLen) ∧ ∀ x ∈ s.obuf, x.1 < obufSize s

/-- While a command runs DONE, ERR and EMPTY are 0 (R114), ERR and EMPTY are never both set (R302), and a stage is valid
only while the stage before it is (R48). -/
def StatusInv (s : State) : Prop :=
  (s.busy = true → s.done = false ∧ s.err = none ∧ s.empty = false) ∧
  (s.err ≠ none → s.empty = false) ∧
  (s.codeValid = true → s.treeValid = true) ∧
  (s.treeValid = true → s.freqValid = true)

/-- The table FREQ as numbers. -/
def freqTable (s : State) : List Nat := s.freq.toList.map BitVec.toNat

/-- The pipeline stages are consistent with one another (R48): NSYM counts the table, a valid tree is the one BuildStep
makes of the table, and a valid code is the one CodegenStep makes of the tree. -/
def PipelineInv (s : State) : Prop :=
  s.nsym.toNat = symbolCount (freqTable s) ∧
  (s.treeValid = true → ∃ t, buildStep (freqTable s) = some t ∧
    (∀ k n, t.nodes[k]? = some n → nodeAt s k = some n) ∧
    s.nnodes.toNat = t.nodes.length ∧ s.root.toNat = t.root) ∧
  (s.codeValid = true → codegenStep (nodeAt s) s.root.toNat = some s.code)

/-- The result registers agree with the records (R42, R47): a record that has not been written is all 0, one that has
names its own algorithm, OUT_ALG's record holds what the OUT_* and RATIO_* registers hold, and with no result since reset
those are 0. -/
def ResultInv (s : State) : Prop :=
  (∀ a, s.res[algId a].valid = false → s.res[algId a] = ResRec.cleared) ∧
  (∀ a, s.res[algId a].valid = true → s.res[algId a].alg = BitVec.ofNat 2 (algId a)) ∧
  (∀ a, s.outAlg = some a → s.res[algId a] =
    { alg := BitVec.ofNat 2 (algId a), valid := true, sizeBits := s.outBits, rnum := s.ratioNum, rden := s.ratioDen }) ∧
  (s.outAlg = none → s.outBytes = 0 ∧ s.outBits = 0 ∧ s.ratioNum = 0 ∧ s.ratioDen = 0) ∧
  s.outBytes.toNat ≤ obufSize s

end Sys2Proof.Machine
end

