-- ==== Sys2Proof/Certificates/Slice0/Obligations.lean ====
section
/-! DEFINITION. The statements for the provers, one a numbered rule or family of rules of spec/. -/

open Sys2Proof Sys2Proof.Machine

/-! ### Encoding (30_encoding.md R110 to R117) -/

/-- R112, 95_test_vectors.md L2.7: the ten words, and four words that are no command. -/
def Obligations.DecodesSampleWords : Prop :=
  decode 0x00000000#32 = some .nop ∧ decode 0x00000001#32 = some .freq ∧ decode 0x00000002#32 = some .build ∧
  decode 0x00000003#32 = some .codegen ∧ decode 0x00000004#32 = some .henc ∧ decode 0x00000005#32 = some .huff ∧
  decode 0x00000006#32 = some .rle ∧ decode 0x00000007#32 = some .delta ∧ decode 0x00000008#32 = some .lz77 ∧
  decode 0x00000009#32 = some .bench ∧ decode 0x0000000A#32 = none ∧ decode 0x00000105#32 = none ∧
  decode 0x00000100#32 = none ∧ decode 0xFFFFFFFF#32 = none

/-- R112, R116: a word decodes by its whole value, so that every reserved bit takes part in the match. -/
def Obligations.DecodesExactlyTheOpcodeMap : Prop :=
  ∀ w : Word, decode w = List.lookup w.toNat
    [(0x00, Instr.nop), (0x01, .freq), (0x02, .build), (0x03, .codegen), (0x04, .henc), (0x05, .huff), (0x06, .rle),
      (0x07, .delta), (0x08, .lz77), (0x09, .bench)]

/-- R110, R112: the bytes that decode to a command are exactly the bytes it is encoded as. -/
def Obligations.DecodeAndEncodeAgree : Prop :=
  ∀ (bs : List Byte) (i : Instr), i.wellFormed = true → (decodeBytes bs = some i ↔ bs = encodeBytes i)

/-! ### Acceptance, the step and completion (R114 to R117) -/

/-- R115, R116: when the sequencer moves, a latched word that decodes to a command runs as that command, and the step takes
one turn off the schedule and does nothing else around it. R80, R119, R120: when the host moves (no command is latched, or
it is the host's turn, which the step takes off the schedule), the step takes the next operation off the host's program and
performs it; with none pending an idle block waits (R325). The schedule is the model's choice (log entry 6); the idle step and
the pending wait are deduced (log entry 14). -/
def Obligations.StepRunsTheLatchedCommand : Prop :=
  (∀ (s : State) (w : Word) (i : Instr), s.latched = some w → decode w = some i → i.wellFormed = true →
    hostsTurn s = false → step s = exec i { s with turns := s.turns.tail }) ∧
  (∀ s : State, hostsTurn s = true ↔ s.host ≠ [] ∧ s.turns.head? = some .host) ∧
  (∀ s : State, s.latched = none → s.host = [] → step s = .next s) ∧
  ∀ (s u : State) (op : HostOp) (rest : List HostOp), s.host = op :: rest →
    ((s.latched = none ∧ u = { s with host := rest }) ∨
      (s.latched ≠ none ∧ hostsTurn s = true ∧ u = { s with host := rest, turns := s.turns.tail })) →
    (∀ a, op = .access a → step s = busAccess a u) ∧
    (op = .waitDone →
      (s.latched = none → step s = busAccess (.read .w32 0x00C) u) ∧
      (s.latched ≠ none → step s = .next { u with host := .waitDone :: rest })) ∧
    (op = .readOut → ∃ k t, hostRead .w32 0x028 u = some (k, t) ∧
      step s = .next { t with
        reads := { width := .w32, off := 0x028, data := k } :: s.reads
        host := (List.range k.toNat).map (fun j => .access (.read .w8 (0x400000 + j))) ++ rest }) ∧
    (op = .hardReset → step s = .next (hardReset u))

/-- R117: a word that is none of the ten is accepted like any other and completes with ILLEGAL_CMD and no other change. -/
def Obligations.IllegalWordCompletesWithError : Prop :=
  ∀ (s : State) (w : Word), 10 ≤ w.toNat →
    (s.busy = false → hostWrite .w32 0x010 w s =
      some { s with latched := some w, done := false, err := none, empty := false }) ∧
    (s.latched = some w → hostsTurn s = false → step s =
      .next { s with latched := none, done := true, err := some .illegalCmd, turns := s.turns.tail })

/-- R114: a write to CMD starts a command on an idle block, is dropped with OVR on a busy one, and nothing else starts one. -/
def Obligations.OnlyACommandWriteStartsACommand : Prop :=
  (∀ (s : State) (w : Word), s.busy = false → hostWrite .w32 0x010 w s =
    some { s with latched := some w, done := false, err := none, empty := false }) ∧
  (∀ (s : State) (w : Word), s.busy = true → hostWrite .w32 0x010 w s = some { s with ovr := true }) ∧
  (∀ (s t : State) (w : Word), s.latched = none → step s = .next t → t.latched = some w →
    ∃ rest, s.host = .access (.write .w32 0x010 w) :: rest)

/-! ### The commands: where each completes and with what -/

/-- R277: NOP raises DONE, and with IE = 1 the IRQ line, and changes nothing else but EMPTY. -/
def Obligations.NopCompletes : Prop :=
  encode .nop = 0x00000000#32 ∧ ∀ s : State, ∃ t, exec .nop s = .next t ∧ t = { s with empty := false, latched := none, done := true } ∧
    (s.ie = true → irq t = true)

/-- R140, R150: FREQ counts every byte value of the input and the distinct ones, or reports LEN_RANGE. -/
def Obligations.FreqCompletes : Prop :=
  encode .freq = 0x00000001#32 ∧ ∀ s : State,
    (s.maxLen < inLen s → exec .freq s = .next { s with err := some .lenRange, latched := none, done := true }) ∧
    (inLen s ≤ s.maxLen → ∃ t, exec .freq s = .next t ∧ Completed t ∧
      (∀ b : Byte, t.freq[b.toNat]'b.isLt = BitVec.ofNat 32 ((input s).count b) ∧
        (t.freq[b.toNat]'b.isLt).toNat = (input s).count b) ∧
      t.nsym.toNat = ((List.range 256).countP fun v => BitVec.ofNat 8 v ∈ input s) ∧
      t.freqValid = true ∧ t.treeValid = false ∧ t.codeValid = false ∧ t.empty = (inLen s == 0) ∧
      t = { s with freq := t.freq, nsym := t.nsym, freqValid := t.freqValid, treeValid := t.treeValid,
                   codeValid := t.codeValid, empty := t.empty, latched := t.latched, done := t.done })

/-- R151: BUILD reports SEQ or EMPTY_TABLE, or stores the tree of R141 to R143 from NODE[0] on, 2m − 1 entries with the
root last, and keeps every later entry. -/
def Obligations.BuildCompletes : Prop :=
  encode .build = 0x00000002#32 ∧ ∀ s : State,
    (s.freqValid = false → exec .build s = .next { s with err := some .seq, latched := none, done := true }) ∧
    (s.freqValid = true → s.nsym = 0 →
      exec .build s = .next { s with err := some .emptyTable, latched := none, done := true }) ∧
    (s.freqValid = true → s.nsym ≠ 0 → PipelineInv s → ∃ t tr, exec .build s = .next t ∧ Completed t ∧
      buildStep (freqTable s) = some tr ∧
      (∀ k n, tr.nodes[k]? = some n → nodeAt t k = some n) ∧
      (∀ k, tr.nodes.length ≤ k → nodeAt t k = nodeAt s k) ∧
      t.nnodes.toNat = tr.nodes.length ∧ t.nnodes.toNat + 1 = 2 * s.nsym.toNat ∧
      t.root.toNat = tr.root ∧ t.root.toNat + 2 = 2 * s.nsym.toNat ∧
      t.treeValid = true ∧ t.codeValid = false ∧ t.empty = false ∧
      t = { s with node := t.node, nnodes := t.nnodes, root := t.root, treeValid := t.treeValid,
                   codeValid := t.codeValid, empty := t.empty, latched := t.latched, done := t.done })

/-- R52, R146, R152: CODEGEN reports SEQ, or binds the codewords of the stored tree and no others, which CODE_LEN and
CODE_BITS show, the first bit of a codeword most significant. -/
def Obligations.CodegenCompletes : Prop :=
  encode .codegen = 0x00000003#32 ∧ ∀ s : State,
    (s.treeValid = false → exec .codegen s = .next { s with err := some .seq, latched := none, done := true }) ∧
    (s.treeValid = true → PipelineInv s → ∃ t, exec .codegen s = .next t ∧ Completed t ∧
      (∀ b f, nodeAt s s.root.toNat = some (.leaf b f) → codeOf t.code b = [false]) ∧
      (∀ b, codeOf t.code b ≠ [] → ∃ f, nodeAt s s.root.toNat = some (.leaf b f) ∨
        follow (nodeAt s) s.root.toNat (codeOf t.code b) = some (.leaf b f)) ∧
      (∀ b, codeOf t.code b ≠ [] ↔ 0 < (s.freq[b.toNat]'b.isLt).toNat) ∧
      (∀ b : Fin 256, (readReg t (.codeLen b)).toNat = t.code[b].length ∧ ∀ (w : Fin 8) (k : Nat), k < 32 →
        (readReg t (.codeBits b w)).getLsbD (31 - k) = t.code[b].getD (32 * w + k) false) ∧
      t.codeValid = true ∧ t.empty = false ∧
      t = { s with code := t.code, codeValid := t.codeValid, empty := t.empty, latched := t.latched, done := t.done })

/-- R147, R153: HENC reports the first of LEN_RANGE, SEQ and NO_CODE, publishes the empty result for n = 0, and otherwise
publishes the packed concatenation of the input bytes' codewords. Where that does not fit OBUF, which R91 rules out and a
stale code allows, the fault of the last clause is the model's choice (notes/assumptions/7.md). -/
def Obligations.HencCompletes : Prop :=
  encode .henc = 0x00000004#32 ∧ ∀ s : State, ParamInv s →
    (s.maxLen < inLen s → exec .henc s = .next { s with err := some .lenRange, latched := none, done := true }) ∧
    (inLen s ≤ s.maxLen → s.codeValid = false →
      exec .henc s = .next { s with err := some .seq, latched := none, done := true }) ∧
    (inLen s = 0 → s.codeValid = true → ∃ t, exec .henc s = .next t ∧ Completed t ∧ t.empty = true ∧
      Published .huffman [] 0 0 s t ∧ SameButResult s t ∧ t.err = s.err) ∧
    (0 < inLen s → inLen s ≤ s.maxLen → s.codeValid = true → (∃ b ∈ input s, codeOf s.code b = []) →
      exec .henc s = .next { s with err := some .noCode, latched := none, done := true }) ∧
    (0 < inLen s → inLen s ≤ s.maxLen → s.codeValid = true → (∀ b ∈ input s, codeOf s.code b ≠ []) →
      ((input s).flatMap (codeOf s.code)).length ≤ 8 * obufSize s →
      ∃ t, exec .henc s = .next t ∧ Completed t ∧ t.empty = false ∧
        Published .huffman (pack ((input s).flatMap (codeOf s.code))) ((input s).flatMap (codeOf s.code)).length
          (inLen s) s t ∧ SameButResult s t ∧ t.err = s.err) ∧
    (0 < inLen s → inLen s ≤ s.maxLen → s.codeValid = true → (∀ b ∈ input s, codeOf s.code b ≠ []) →
      8 * obufSize s < ((input s).flatMap (codeOf s.code)).length → exec .henc s = .fault .outByteRange)

/-- R154: HUFF reports LEN_RANGE; on an empty input it counts, publishes the empty result and leaves NODE and CODE alone;
otherwise it leaves the table, the tree and the code of the input and publishes the encoded input. -/
def Obligations.HuffCompletes : Prop :=
  encode .huff = 0x00000005#32 ∧ ∀ s : State, ParamInv s →
    (s.maxLen < inLen s → exec .huff s = .next { s with err := some .lenRange, latched := none, done := true }) ∧
    (inLen s = 0 → ∃ t, exec .huff s = .next t ∧ Completed t ∧ t.empty = true ∧ Published .huffman [] 0 0 s t ∧
      (∀ b : Fin 256, t.freq[b] = 0) ∧ t.nsym = 0 ∧ t.freqValid = true ∧ t.treeValid = false ∧ t.codeValid = false ∧
      t.node = s.node ∧ t.nnodes = s.nnodes ∧ t.root = s.root ∧ t.code = s.code ∧ t.err = s.err ∧ SameButPipeline s t) ∧
    (0 < inLen s → inLen s ≤ s.maxLen → ∃ t tr, exec .huff s = .next t ∧ Completed t ∧ t.empty = false ∧
      (∀ b : Byte, (t.freq[b.toNat]'b.isLt).toNat = (input s).count b) ∧
      t.nsym.toNat = ((List.range 256).countP fun v => BitVec.ofNat 8 v ∈ input s) ∧
      buildStep (freqTable t) = some tr ∧ (∀ k n, tr.nodes[k]? = some n → nodeAt t k = some n) ∧
      (∀ k, tr.nodes.length ≤ k → nodeAt t k = nodeAt s k) ∧
      t.nnodes.toNat = tr.nodes.length ∧ t.root.toNat = tr.root ∧
      codegenStep (nodeAt t) t.root.toNat = some t.code ∧ (∀ b ∈ input s, codeOf t.code b ≠ []) ∧
      Published .huffman (pack ((input s).flatMap (codeOf t.code))) ((input s).flatMap (codeOf t.code)).length
        (inLen s) s t ∧
      t.freqValid = true ∧ t.treeValid = true ∧ t.codeValid = true ∧ t.err = s.err ∧ SameButPipeline s t)

/-- R205: RLE reports LEN_RANGE, or publishes RleStep of the input, sized in bytes, and changes nothing else. -/
def Obligations.RleCompletes : Prop :=
  encode .rle = 0x00000006#32 ∧ ∀ s : State, ParamInv s →
    (s.maxLen < inLen s → exec .rle s = .next { s with err := some .lenRange, latched := none, done := true }) ∧
    (inLen s ≤ s.maxLen → ∃ t, exec .rle s = .next t ∧ Completed t ∧ t.empty = (inLen s == 0) ∧ t.err = s.err ∧
      Published .rle (rleStep (input s)) (8 * (rleStep (input s)).length) (inLen s) s t ∧ SameButResult s t)

/-- R222, R225: DELTA reports LEN_RANGE, or publishes DeltaStep of the input, n bytes and the ratio 0. -/
def Obligations.DeltaCompletes : Prop :=
  encode .delta = 0x00000007#32 ∧ ∀ s : State, ParamInv s →
    (s.maxLen < inLen s → exec .delta s = .next { s with err := some .lenRange, latched := none, done := true }) ∧
    (inLen s ≤ s.maxLen → ∃ t, exec .delta s = .next t ∧ Completed t ∧ t.empty = (inLen s == 0) ∧ t.err = s.err ∧
      Published .delta (deltaStep (input s)) (8 * inLen s) (inLen s) s t ∧ SameButResult s t ∧
      t.outBytes.toNat = inLen s ∧ t.ratioNum = 0)

/-- R250: LZ77 reports LEN_RANGE, or publishes LzStep of the input, sized in bytes, and changes nothing else. -/
def Obligations.Lz77Completes : Prop :=
  encode .lz77 = 0x00000008#32 ∧ ∀ s : State, ParamInv s →
    (s.maxLen < inLen s → exec .lz77 s = .next { s with err := some .lenRange, latched := none, done := true }) ∧
    (inLen s ≤ s.maxLen → ∃ t, exec .lz77 s = .next t ∧ Completed t ∧ t.empty = (inLen s == 0) ∧ t.err = s.err ∧
      Published .lz77 (lzStep (input s)) (8 * (lzStep (input s)).length) (inLen s) s t ∧ SameButResult s t)

/-- R276: BENCH reports LEN_RANGE before any write, or leaves what HUFF, RLE, DELTA and LZ77 leave when they run one
after another. -/
def Obligations.BenchIsTheFourEncodersInOrder : Prop :=
  encode .bench = 0x00000009#32 ∧ ∀ s : State, ParamInv s →
    (s.maxLen < inLen s → exec .bench s = .next { s with err := some .lenRange, latched := none, done := true }) ∧
    (inLen s ≤ s.maxLen → ∃ t₁ t₂ t₃ t₄, exec .huff s = .next t₁ ∧ runCommand .rle t₁ = .next t₂ ∧
      runCommand .delta t₂ = .next t₃ ∧ runCommand .lz77 t₃ = .next t₄ ∧
      exec .bench s = .next { t₄ with err := s.err } ∧ t₄.empty = (inLen s == 0) ∧ t₄.outAlg = some .lz77)

/-! ### Errors (60_exceptions.md R300 to R304) -/

/-- R302: a command that reports an error changes BUSY, DONE and ERR and nothing else. -/
def Obligations.ErrorsArePrecise : Prop :=
  ∀ (i : Instr) (s t : State), exec i s = .next t → s.err = none → t.err ≠ none →
    t = { s with err := t.err, latched := none, done := true }

/-- R303: which errors each command can report; an illegal word reports ILLEGAL_CMD. -/
def Obligations.CommandsReportOnlyTheirErrors : Prop :=
  (∀ (i : Instr) (s t : State), exec i s = .next t → s.err = none → ∀ e, t.err = some e → e ∈ errorsOf i) ∧
  (∀ s t : State, execIllegal s = .next t → t.err = some .illegalCmd)

/-- R301: an empty input is no error: the input-reading commands complete with EMPTY = 1, and the encoders publish the
empty result with the ratio 0/0; BUILD after it reports EMPTY_TABLE. -/
def Obligations.EmptyInputIsNoError : Prop :=
  ∀ s : State, s.len = 0 → s.err = none →
    (∀ i, i = .freq ∨ i = .huff ∨ i = .rle ∨ i = .delta ∨ i = .lz77 ∨ i = .bench ∨ (i = .henc ∧ s.codeValid = true) →
      ∃ t, exec i s = .next t ∧ t.empty = true ∧ t.err = none ∧
        (i ≠ .freq → t.outBytes = 0 ∧ t.outBits = 0 ∧ t.ratioNum = 0 ∧ t.ratioDen = 0)) ∧
    (∀ t, exec .freq s = .next t → ∃ u, runCommand .build t = .next u ∧ u.err = some .emptyTable)

/-! ### Frames (30_encoding.md R113, 20_memory.md R98) -/

/-- R38, R98, R113: no command writes LEN, IBUF, CTRL, OVR or the host's side; every IBUF byte reads as before. -/
def Obligations.CommandsKeepTheInput : Prop :=
  ∀ (i : Instr) (s t : State), exec i s = .next t →
    SameButPipeline s t ∧ ∀ j, inByte t j = inByte s j

/-- R113: HENC, RLE, DELTA and LZ77 write the result registers and OBUF[0..OUT_BYTES) and nothing else, so that the
pipeline's tables and flags and every later byte of OBUF are as before. -/
def Obligations.EncodersKeepThePipeline : Prop :=
  ∀ (i : Instr) (s t : State), i = .henc ∨ i = .rle ∨ i = .delta ∨ i = .lz77 → ParamInv s → exec i s = .next t →
    SameButResult s t ∧ (∀ j, t.outBytes.toNat ≤ j → outByte t j = outByte s j) ∧ ∀ j, inByte t j = inByte s j

/-- R113: NOP, FREQ, BUILD and CODEGEN write no result register and no byte of OBUF or IBUF. -/
def Obligations.StagesKeepTheResult : Prop :=
  ∀ (i : Instr) (s t : State), i = .nop ∨ i = .freq ∨ i = .build ∨ i = .codegen → exec i s = .next t →
    t.outAlg = s.outAlg ∧ t.outBytes = s.outBytes ∧ t.outBits = s.outBits ∧ t.ratioNum = s.ratioNum ∧
    t.ratioDen = s.ratioDen ∧ t.res = s.res ∧ (∀ j, outByte t j = outByte s j) ∧ ∀ j, inByte t j = inByte s j

/-- R55, R113, R276: HUFF stores OBUF[0..OUT_BYTES), and BENCH no byte beyond the longest of its four outputs. -/
def Obligations.HuffAndBenchKeepLaterOutputBytes : Prop :=
  ∀ s t : State, ParamInv s →
    (exec .huff s = .next t → SameButPipeline s t ∧ ∀ j, t.outBytes.toNat ≤ j → outByte t j = outByte s j) ∧
    (exec .bench s = .next t → SameButPipeline s t ∧
      ∀ j, max (inLen s) (max (rleStep (input s)).length (lzStep (input s)).length) ≤ j → outByte t j = outByte s j)

/-- R98: no command reads OBUF: with other bytes there, every command ends the same way and in the same state but for
OBUF, each byte of which it either writes alike or leaves alone in both. -/
def Obligations.CommandsDoNotReadTheOutputBuffer : Prop :=
  ∀ (i : Instr) (s t : State) (m : Memory) (fill : Nat), exec i s = .next t →
    ∃ m' : Memory, exec i { s with obuf := m, outFill := fill } = .next { t with obuf := m', outFill := fill } ∧
      ∀ j, m'.read j = t.obuf.read j ∨ (m'.read j = m.read j ∧ t.obuf.read j = s.obuf.read j)

/-! ### Stage functions -/

/-- R271, R273, R275: Publish leaves the exact values, whose widths are enough. -/
def Obligations.PublishLeavesTheExactResult : Prop :=
  ∀ (s : State) (a : Alg) (out : List Byte) (bits n : Nat), ParamInv s → n ≤ s.maxLen → out.length ≤ 3 * n →
    bits ≤ 24 * n → ∃ t, publish a out bits n s = .ok t ∧ Published a out bits n s t ∧
      t = { s with obuf := t.obuf, outAlg := t.outAlg, outBytes := t.outBytes, outBits := t.outBits,
                   ratioNum := t.ratioNum, ratioDen := t.ratioDen, res := t.res }

/-- R10: dec(v) is ASCII digits that spell v, most significant first, with no leading zero, as many as v has. -/
def Obligations.DecIsTheShortestDecimalText : Prop :=
  ∀ v : Nat, dec v ≠ [] ∧ (∀ b ∈ dec v, 0x30 ≤ b.toNat ∧ b.toNat ≤ 0x39) ∧
    (dec v).foldl (fun acc b => 10 * acc + (b.toNat - 0x30)) 0 = v ∧
    (v ≠ 0 → (dec v).head? ≠ some 0x30#8) ∧ (v = 0 → dec v = [0x30#8]) ∧
    ∀ k, 0 < k → 10 ^ (k - 1) ≤ v → v < 10 ^ k → (dec v).length = k

/-- R200, R201, R204: RleStep emits, for each maximal run of equal bytes, its decimal count and the byte. -/
def Obligations.RleEmitsMaximalRuns : Prop :=
  ∀ bs : List Byte, rleStep bs = (bs.splitBy (· == ·)).flatMap fun run => dec run.length ++ run.take 1

/-- R202: at most two output bytes an input byte, and exactly two when every run has length 1. -/
def Obligations.RleOutputIsAtMostDouble : Prop :=
  (∀ bs : List Byte, (rleStep bs).length ≤ 2 * bs.length ∧
    ((rleStep bs).length = 2 * bs.length ↔ bs.IsChain (· ≠ ·))) ∧
  (∀ v, 1 ≤ v → (dec v).length ≤ v) ∧ ∀ v, v ≤ Config.maxLenLimit → (dec v).length ≤ 7

/-- R220, R222: the first byte unchanged, then the differences of neighbouring input bytes modulo 256, n bytes in all. -/
def Obligations.DeltaEmitsDifferences : Prop :=
  ∀ bs : List Byte, (deltaStep bs).length = bs.length ∧ (deltaStep bs)[0]? = bs[0]? ∧
    ∀ (j : Nat) (cur prev : Byte), bs[j + 1]? = some cur → bs[j]? = some prev →
      (deltaStep bs)[j + 1]? = some (BitVec.ofInt 8 (cur.toNat - prev.toNat))

/-- R223: the input is recovered by in[0] = out[0] and in[j] = trunc_8(out[j] + in[j−1]). -/
def Obligations.DeltaIsReversible : Prop :=
  ∀ bs : List Byte, ((deltaStep bs).scanl (fun before d => BitVec.ofNat 8 (d.toNat + before.toNat)) 0).tail = bs

/-- R241: MatchLen counts equal bytes and stops at the first mismatch, at LOOKAHEAD or at the end of the buffer. -/
def Obligations.MatchLenCountsEqualBytes : Prop :=
  ∀ (bs : List Byte) (i pos : Nat), i < pos → pos < bs.length →
    matchLen bs i pos ≤ min 15 (bs.length - pos) ∧
    (∀ d, d < matchLen bs i pos → bs[i + d]? = bs[pos + d]?) ∧
    (matchLen bs i pos < 15 → pos + matchLen bs i pos < bs.length →
      bs[i + matchLen bs i pos]? ≠ bs[pos + matchLen bs i pos]?)

/-- R242, R247: FindBest answers the longest match of the window, and among equal ones the leftmost. -/
def Obligations.FindBestIsLeftmostLongest : Prop :=
  ∀ (bs : List Byte) (pos : Nat),
    (∀ i, pos - 255 ≤ i → i < pos → matchLen bs i pos ≤ (findBest bs pos).2) ∧
    ((findBest bs pos).2 = 0 → (findBest bs pos).1 = 0) ∧
    (0 < (findBest bs pos).2 → ∃ i, pos - 255 ≤ i ∧ i < pos ∧ (findBest bs pos).1 = pos - i ∧
      (findBest bs pos).2 = matchLen bs i pos ∧
      ∀ j, pos - 255 ≤ j → j < i → matchLen bs j pos < (findBest bs pos).2)

/-- R243, R245: LzStep is the loop from pos = 0 that emits a token for a match longer than 2 and a literal otherwise. -/
def Obligations.LzStepIsTheGreedyLoop : Prop :=
  ∀ bs : List Byte, ∃ out : Nat → List Byte, lzStep bs = out 0 ∧ (∀ pos, bs.length ≤ pos → out pos = []) ∧
    ∀ (pos : Nat) (b : Byte), bs[pos]? = some b →
      out pos = if (findBest bs pos).2 > 2
        then lzToken (findBest bs pos).1 (findBest bs pos).2 ++ out (pos + (findBest bs pos).2)
        else b :: out (pos + 1)

/-- R244: the token's bytes, 5 to 8 of them, and the bound of the whole output. -/
def Obligations.LzTokensAndOutputAreBounded : Prop :=
  (∀ off len, lzToken off len = 0x3C#8 :: dec off ++ 0x2C#8 :: dec len ++ [0x3E#8]) ∧
  (∀ off len, 1 ≤ off → off ≤ 255 → 3 ≤ len → len ≤ 15 →
    5 ≤ (lzToken off len).length ∧ (lzToken off len).length ≤ 8) ∧
  ∀ bs : List Byte, (lzStep bs).length ≤ (8 * bs.length + 2) / 3 ∧ (lzStep bs).length ≤ 3 * bs.length

/-- R148: bit k of the bit-string is bit 7 − (k mod 8) of byte k div 8, and the bits beyond its end are 0. -/
def Obligations.PackIsMostSignificantBitFirst : Prop :=
  ∀ bits : List Bool, (pack bits).length = (bits.length + 7) / 8 ∧
    ∀ (k : Nat) (b : Byte), (pack bits)[k / 8]? = some b → b.getLsbD (7 - k % 8) = bits.getD k false

/-- R141, R145: a built tree begins with one Leaf a byte value that occurs, in ascending byte value and with its count, and
the rest are Internal entries with two children at smaller indices and the sum of their frequencies; every entry but the
root is the child of exactly one, and exactly one path leads from the root to each Leaf. -/
def Obligations.BuiltTreesAreStrictlyBinary : Prop :=
  ∀ (f : List Nat) (t : Tree), f.length = 256 → buildStep f = some t →
    t.nodes.take (symbolCount f) = (((List.range 256).filter fun v => 0 < f.getD v 0).map fun v =>
      Node.leaf (BitVec.ofNat 8 v) (f.getD v 0)) ∧
    (∀ k n, symbolCount f ≤ k → t.nodes[k]? = some n → ∃ fr l r, n = Node.internal fr l r ∧ l < k ∧ r < k ∧
      ∃ nl nr, t.nodes[l]? = some nl ∧ t.nodes[r]? = some nr ∧ fr = Node.freq nl + Node.freq nr) ∧
    (t.nodes.flatMap childrenOf).Perm (List.range t.root) ∧ t.root + 1 = t.nodes.length ∧
    ∀ (k : Nat) (b : Byte) (fr : Nat), t.nodes[k]? = some (Node.leaf b fr) → ∃ p, follow (fun j => t.nodes[j]?) t.root p = some (Node.leaf b fr) ∧
      ∀ q, follow (fun j => t.nodes[j]?) t.root q = some (Node.leaf b fr) → q = p

/-- R142, R143: each Internal entry merges the two entries of the queue with the smallest keys, the smallest as its left
child, at the next index and with the sum of their frequencies; there are 2m − 1 entries, and the root is the last. -/
def Obligations.BuildMergesTheTwoSmallest : Prop :=
  ∀ (f : List Nat) (t : Tree), f.length = 256 → buildStep f = some t →
    t.nodes.length + 1 = 2 * symbolCount f ∧ t.root + 2 = 2 * symbolCount f ∧
    ∀ k fr l r, t.nodes[k]? = some (Node.internal fr l r) →
      t.Waiting k l ∧ t.Waiting k r ∧ l ≠ r ∧
      (∃ nl nr, t.nodes[l]? = some nl ∧ t.nodes[r]? = some nr ∧ fr = Node.freq nl + Node.freq nr) ∧
      (∀ j, t.Waiting k j → j ≠ l → t.Before l j) ∧ (∀ j, t.Waiting k j → j ≠ l → j ≠ r → t.Before r j)

/-- R149: with two or more symbols no codeword starts another one. -/
def Obligations.CodewordsArePrefixFree : Prop :=
  ∀ s : State, PipelineInv s → s.codeValid = true → s.treeValid = true →
    ∀ b c : Byte, b ≠ c → codeOf s.code b ≠ [] → codeOf s.code c ≠ [] → ¬ codeOf s.code b <+: codeOf s.code c

/-- R144, R146: a tree of one symbol is a single Leaf at index 0, and its code is the one bit 0. -/
def Obligations.SingleSymbolHasTheOneBitCode : Prop :=
  ∀ (s t : State) (b : Byte), ParamInv s → 0 < inLen s → inLen s ≤ s.maxLen → (∀ c ∈ input s, c = b) →
    exec .huff s = .next t → t.nnodes = 1 ∧ t.root = 0 ∧ nodeAt t 0 = some (.leaf b (inLen s)) ∧
      codeOf t.code b = [false] ∧ t.outBits.toNat = inLen s

/-- R91, R147: HUFF's bit-string has at least one and at most eight bits an input byte, so that its output is no longer
than its input. -/
def Obligations.HuffmanOutputIsNoLongerThanItsInput : Prop :=
  ∀ s t : State, ParamInv s → 0 < inLen s → inLen s ≤ s.maxLen → exec .huff s = .next t →
    inLen s ≤ t.outBits.toNat ∧ t.outBits.toNat ≤ 8 * inLen s ∧ t.outBytes.toNat ≤ inLen s

/-- R91: no command but HENC can run out of OBUF, in any state. -/
def Obligations.OnlyHencCanOverflowTheOutputBuffer : Prop :=
  ∀ (i : Instr) (s : State), i ≠ .henc → exec i s ≠ .fault .outByteRange

/-- R155: for n ≥ 1 FREQ, BUILD, CODEGEN and HENC leave the state HUFF leaves, and for n = 0 BUILD reports
EMPTY_TABLE. -/
def Obligations.StagedPipelineEqualsHuff : Prop :=
  ∀ s : State,
    (0 < inLen s → inLen s ≤ s.maxLen → ∃ t₁ t₂ t₃ t₄, runCommand .freq s = .next t₁ ∧ runCommand .build t₁ = .next t₂ ∧
      runCommand .codegen t₂ = .next t₃ ∧ runCommand .henc t₃ = .next t₄ ∧ runCommand .huff s = .next t₄) ∧
    (inLen s = 0 → ∃ t₁ t₂ t₃, runCommand .freq s = .next t₁ ∧ runCommand .build t₁ = .next t₂ ∧
      t₂.err = some .emptyTable ∧ runCommand .huff s = .next t₃ ∧ t₃.err = none)

/-- R156: the tree and the code depend only on how often each byte occurs, not on the order of the bytes. -/
def Obligations.TreeAndCodeIgnoreByteOrder : Prop :=
  ∀ s s' t t' : State, s'.maxLen = s.maxLen → s'.node = s.node → (input s').Perm (input s) → 0 < inLen s →
    exec .huff s = .next t → exec .huff s' = .next t' → inLen s ≤ s.maxLen →
    t'.freq = t.freq ∧ t'.nsym = t.nsym ∧ t'.node = t.node ∧ t'.nnodes = t.nnodes ∧ t'.root = t.root ∧
      t'.code = t.code ∧ t'.outBits = t.outBits

/-- R279: the result of an encoder command depends only on the input, never on what an earlier command left. -/
def Obligations.EncodersCarryNoStateAcrossCalls : Prop :=
  ∀ (i : Instr) (s s' t t' : State), i = .huff ∨ i = .rle ∨ i = .delta ∨ i = .lz77 ∨ i = .bench →
    s'.maxLen = s.maxLen → s'.len = s.len → input s' = input s → inLen s ≤ s.maxLen →
    exec i s = .next t → exec i s' = .next t' →
    t'.outAlg = t.outAlg ∧ t'.outBytes = t.outBytes ∧ t'.outBits = t.outBits ∧ t'.ratioNum = t.ratioNum ∧
      t'.ratioDen = t.ratioDen ∧ (∀ a, t.outAlg = some a → t'.res[algId a] = t.res[algId a]) ∧
      (∀ j, j < t.outBytes.toNat → outByte t' j = outByte t j) ∧ (i = .bench → t'.res = t.res)

/-! ### The register window (20_memory.md R80 to R90, 70_reset_and_hazards.md R351, R352) -/

/-- R82 to R85: what each offset reaches. -/
def Obligations.AddressMapIsAsListed : Prop :=
  (∀ maxLen, (List.range 14).map (fun k => target maxLen .w32 (4 * k)) =
    [Reg.id, .param, .ctrl, .status, .cmd, .len, .nsym, .nnodes, .root, .outAlg, .outBytes, .outBits, .ratioNum,
      .ratioDen].map fun r => some (.reg r)) ∧
  (∀ (maxLen : Nat) (a w : Fin 4), target maxLen .w32 (0x100 + 16 * a + 4 * w) = some (.reg (.res a w))) ∧
  (∀ (maxLen : Nat) (s : Fin 256), target maxLen .w32 (0x400 + 4 * s) = some (.reg (.freq s)) ∧
    target maxLen .w32 (0x800 + 4 * s) = some (.reg (.codeLen s))) ∧
  (∀ (maxLen : Nat) (s : Fin 256) (w : Fin 8), target maxLen .w32 (0x2000 + 32 * s + 4 * w) = some (.reg (.codeBits s w))) ∧
  (∀ (maxLen : Nat) (k : Fin 511) (w : Fin 4), target maxLen .w32 (0x4000 + 16 * k + 4 * w) = some (.reg (.node k w))) ∧
  (∀ (maxLen : Nat) (w : Width) (j : Nat), maxLen ≤ Config.maxLenLimit → j % w.bytes = 0 → j + w.bytes ≤ maxLen →
    target maxLen w (0x100000 + j) = some (.ibuf j)) ∧
  (∀ (maxLen : Nat) (w : Width) (j : Nat), j % w.bytes = 0 → j + w.bytes ≤ 3 * maxLen →
    target maxLen w (0x400000 + j) = some (.obuf j))

/-- R83 to R88, R90, R305: a misaligned access, a sub-word access to a register, an unmapped offset and an access beyond
capacity are bus errors, which change nothing of the block and leave the host a fault that names the access; no other
access leaves one, and no step clears one. -/
def Obligations.RejectedAccessesAreBusErrors : Prop :=
  (∀ (s : State) (a : Access), ParamInv s → a.offset < 0x800000 →
    (a.offset % a.width.bytes ≠ 0 ∨
      (a.offset < 0x100000 ∧ a.width ≠ .w32) ∨
      (0x38 ≤ a.offset ∧ a.offset < 0x100) ∨ (0x140 ≤ a.offset ∧ a.offset < 0x400) ∨
      (0xC00 ≤ a.offset ∧ a.offset < 0x2000) ∨ (0x5FF0 ≤ a.offset ∧ a.offset < 0x100000) ∨
      (0x100000 ≤ a.offset ∧ a.offset < 0x400000 ∧ 0x100000 + s.maxLen < a.offset + a.width.bytes) ∨
      (0x400000 ≤ a.offset ∧ 0x400000 + 3 * s.maxLen < a.offset + a.width.bytes)) →
    busAccess a s = .next { s with hostFaults := a :: s.hostFaults }) ∧
  (∀ (s t : State) (a : Access) (x : Target), target s.maxLen a.width a.offset = some x → busAccess a s = .next t →
    t.hostFaults = s.hostFaults) ∧
  ∀ s t : State, step s = .next t → s.hostFaults <:+ t.hostFaults

/-- R84, R86: a write of each width to IBUF stores exactly its bytes, the lowest offset least significant, and reads of
every width give them back in the same order. -/
def Obligations.InputBufferIsLittleEndian : Prop :=
  ∀ (s : State) (w : Width) (j : Nat) (v : Word), ParamInv s → s.busy = false → j % w.bytes = 0 →
    j + w.bytes ≤ s.maxLen →
    ∃ t, hostWrite w (0x100000 + j) v s = some t ∧
      hostRead w (0x100000 + j) t = some ((v.extractLsb' 0 (8 * w.bytes)).setWidth 32, t) ∧
      (∀ i, i < w.bytes → hostRead .w8 (0x100000 + j + i) t = some ((v.extractLsb' (8 * i) 8).setWidth 32, t)) ∧
      (∀ i, i % 2 = 0 → i + 2 ≤ w.bytes →
        hostRead .w16 (0x100000 + j + i) t = some ((v.extractLsb' (8 * i) 16).setWidth 32, t)) ∧
      (∀ i, i < w.bytes → inByte t (j + i) = v.extractLsb' (8 * i) 8) ∧
      (∀ k, k < j ∨ j + w.bytes ≤ k → inByte t k = inByte s k) ∧ t = { s with ibuf := t.ibuf }

/-- R36, R300: STATUS reads as its fields, bit by bit, ERR as the code of the error, and a write clears DONE and OVR where the written bit is 1. -/
def Obligations.StatusReadsAndClears : Prop :=
  ∀ (s : State) (v : Word),
    hostRead .w32 0x00C s = some (statusWord s, s) ∧
    (statusWord s).getLsbD 0 = s.busy ∧ (statusWord s).getLsbD 1 = s.done ∧ (statusWord s).extractLsb' 2 2 = 0 ∧
    (statusWord s).extractLsb' 4 4 = errField s ∧
    (s.err = none → (statusWord s).extractLsb' 4 4 = 0#4) ∧
    (s.err = some .illegalCmd → (statusWord s).extractLsb' 4 4 = 1#4) ∧
    (s.err = some .lenRange → (statusWord s).extractLsb' 4 4 = 2#4) ∧
    (s.err = some .seq → (statusWord s).extractLsb' 4 4 = 3#4) ∧
    (s.err = some .emptyTable → (statusWord s).extractLsb' 4 4 = 4#4) ∧
    (s.err = some .noCode → (statusWord s).extractLsb' 4 4 = 5#4) ∧
    (statusWord s).getLsbD 8 = s.ovr ∧
    (statusWord s).getLsbD 9 = s.empty ∧ (statusWord s).extractLsb' 10 2 = 0 ∧
    (statusWord s).getLsbD 12 = s.freqValid ∧ (statusWord s).getLsbD 13 = s.treeValid ∧
    (statusWord s).getLsbD 14 = s.codeValid ∧ (statusWord s).extractLsb' 15 17 = 0 ∧
    hostWrite .w32 0x00C v s =
      some { s with done := s.done && !v.getLsbD 1, ovr := s.ovr && !v.getLsbD 8 }

/-- R85, R88: writes to read-only registers and in-bounds writes to OBUF are ignored, and CMD reads 0. -/
def Obligations.ReadOnlyWritesAreIgnored : Prop :=
  (∀ (s : State) (w : Width) (off : Nat) (v : Word) (r : Reg), target s.maxLen w off = some (.reg r) →
    r ≠ .ctrl → r ≠ .status → r ≠ .cmd → r ≠ .len → hostWrite w off v s = some s) ∧
  (∀ (s : State) (w : Width) (off j : Nat) (v : Word), target s.maxLen w off = some (.obuf j) →
    hostWrite w off v s = some s) ∧
  ∀ s : State, hostRead .w32 0x010 s = some (0, s)

/-- R351: while BUSY, writes to CMD, LEN and IBUF are dropped and set OVR, CTRL and STATUS act, and read-only registers
ignore writes as always. R35, R38: on an idle block a write to LEN sets it, and one to CTRL sets IE or is a soft reset; both
read back. -/
def Obligations.WritesWhileBusyAreDropped : Prop :=
  ∀ (s : State) (v : Word),
    (s.busy = true →
      hostWrite .w32 0x010 v s = some { s with ovr := true } ∧
      hostWrite .w32 0x014 v s = some { s with ovr := true } ∧
      (∀ (w : Width) (off j : Nat), target s.maxLen w off = some (.ibuf j) →
        hostWrite w off v s = some { s with ovr := true })) ∧
    (s.busy = false →
      hostWrite .w32 0x014 v s = some { s with len := v } ∧
      hostRead .w32 0x014 { s with len := v } = some (v, { s with len := v })) ∧
    (∀ (w : Width) (off : Nat) (r : Reg), target s.maxLen w off = some (.reg r) →
      r ≠ .ctrl → r ≠ .status → r ≠ .cmd → r ≠ .len → hostWrite w off v s = some s) ∧
    (v.getLsbD 1 = false → hostWrite .w32 0x008 v s = some { s with ie := v.getLsbD 0 }) ∧
    (v.getLsbD 1 = true → hostWrite .w32 0x008 v s = some (softReset s)) ∧
    hostRead .w32 0x008 s = some (if s.ie then 1 else 0, s) ∧
    hostWrite .w32 0x00C v s = some { s with done := s.done && !v.getLsbD 1, ovr := s.ovr && !v.getLsbD 8 }

/-- R89: a read changes nothing of the block: only the host's own record of what it read, or its fault, and the model's
count of free draws. On an idle block it gives the register's image, or OBUF's bytes, the lowest offset least significant
(R85, R86); the images are those of R33, R34, R38 to R47 and R50 to R53. -/
def Obligations.ReadsHaveNoSideEffects : Prop :=
  (∀ (s t : State) (w : Width) (off : Nat), busAccess (.read w off) s = .next t →
    t = { s with draws := t.draws, reads := t.reads, hostFaults := t.hostFaults } ∧
    (target s.maxLen w off = none → t.draws = s.draws ∧ t.reads = s.reads) ∧
    ∀ x, target s.maxLen w off = some x → t.hostFaults = s.hostFaults ∧
      ∃ v u, hostRead w off s = some (v, u) ∧ t.reads = { width := w, off := off, data := v } :: s.reads) ∧
  (∀ (s : State) (w : Width) (off : Nat) (r : Reg), s.busy = false → target s.maxLen w off = some (.reg r) →
    hostRead w off s = some (readReg s r, s)) ∧
  (∀ (s : State) (w : Width) (off j : Nat), s.busy = false → target s.maxLen w off = some (.obuf j) →
    ∃ v, hostRead w off s = some (v, s) ∧
      v.toNat = ((List.range w.bytes).map fun i => (outByte s (j + i)).toNat * 2 ^ (8 * i)).sum) ∧
  ∀ s : State,
    readReg s .id = 0x48430100#32 ∧ (ParamInv s → (readReg s .param).toNat = s.maxLen) ∧
    (∀ b : Fin 256, (s.code[b].length ≤ 255 → (readReg s (.codeLen b)).toNat = s.code[b].length) ∧
      ∀ (w : Fin 8) (k : Nat), k < 32 →
        (readReg s (.codeBits b w)).getLsbD (31 - k) = s.code[b].getD (32 * w + k) false) ∧
    readReg s .len = s.len ∧ readReg s .outBytes = s.outBytes ∧ readReg s .outBits = s.outBits ∧
    readReg s .ratioNum = s.ratioNum ∧ readReg s .ratioDen = s.ratioDen ∧
    (readReg s .nsym).toNat = s.nsym.toNat ∧ (readReg s .nnodes).toNat = s.nnodes.toNat ∧
    (readReg s .root).toNat = s.root.toNat ∧
    (s.outAlg = none → readReg s .outAlg = 0xF#32) ∧ (s.outAlg = some .huffman → readReg s .outAlg = 0#32) ∧
    (s.outAlg = some .rle → readReg s .outAlg = 1#32) ∧ (s.outAlg = some .delta → readReg s .outAlg = 2#32) ∧
    (s.outAlg = some .lz77 → readReg s .outAlg = 3#32) ∧
    (∀ b : Fin 256, readReg s (.freq b) = s.freq[b]) ∧
    (∀ a : Fin 4, (readReg s (.res a 0)).extractLsb' 0 2 = s.res[a].alg ∧
      (readReg s (.res a 0)).extractLsb' 2 29 = 0 ∧ (readReg s (.res a 0)).getLsbD 31 = s.res[a].valid ∧
      readReg s (.res a 1) = s.res[a].sizeBits ∧ readReg s (.res a 2) = s.res[a].rnum ∧
      readReg s (.res a 3) = s.res[a].rden) ∧
    (∀ (k : Fin 511) (b : Byte) (f : Nat), s.node[k] = some (.leaf b f) →
      (readReg s (.node k 0)).extractLsb' 0 8 = 0 ∧ (readReg s (.node k 0)).extractLsb' 8 8 = b ∧
      (readReg s (.node k 0)).extractLsb' 16 16 = 0 ∧ readReg s (.node k 1) = BitVec.ofNat 32 f ∧
      readReg s (.node k 2) = 0 ∧ readReg s (.node k 3) = 0) ∧
    ∀ (k : Fin 511) (f l r : Nat), s.node[k] = some (.internal f l r) →
      readReg s (.node k 0) = 1#32 ∧ readReg s (.node k 1) = BitVec.ofNat 32 f ∧
      readReg s (.node k 2) = BitVec.ofNat 32 l ∧ readReg s (.node k 3) = BitVec.ofNat 32 r

/-- R352: a read while BUSY of an offset that is mapped is never a bus error, and of ID, PARAM, CTRL, STATUS, LEN, CMD and
IBUF it is exact. -/
def Obligations.ReadsWhileBusyNeverFault : Prop :=
  ∀ (s : State) (w : Width) (off : Nat) (x : Target), s.busy = true → off < 0x800000 → target s.maxLen w off = some x →
    (∃ t, busAccess (.read w off) s = .next t ∧ t.hostFaults = s.hostFaults) ∧
    (∀ r, x = .reg r → (r = .id ∨ r = .param ∨ r = .ctrl ∨ r = .status ∨ r = .len ∨ r = .cmd) →
      hostRead w off s = some (readReg s r, s)) ∧
    ∀ j, x = .ibuf j → ∃ v, hostRead w off s = some (v, s) ∧
      v.toNat = ((List.range w.bytes).map fun i => (inByte s (j + i)).toNat * 2 ^ (8 * i)).sum

/-! ### Interrupt and reset (10_state.md R49, 70_reset_and_hazards.md R340, R342) -/

/-- R49, R310: IRQ is IE and DONE at every instant, so a completion raises it when IE is 1, and clearing DONE or IE,
accepting a command or a reset lowers it. -/
def Obligations.InterruptFollowsEnableAndDone : Prop :=
  ∀ s : State, (irq s = true ↔ s.ie = true ∧ s.done = true) ∧
    (∀ (i : Instr) (t : State), exec i s = .next t → irq t = s.ie) ∧
    (∀ (v : Word) (t : State), hostWrite .w32 0x00C v s = some t → v.getLsbD 1 = true → irq t = false) ∧
    (∀ w, irq (accept w s) = false) ∧ irq (softReset s) = false ∧ irq (hardReset s) = false

/-- R342: a soft reset leaves every register and table at its reset value and keeps IBUF; it keeps NODE and OBUF when idle,
and makes them unspecified when it discards a running command. -/
def Obligations.SoftResetRestoresRegisters : Prop :=
  ∀ (s : State) (v : Word), v.getLsbD 1 = true → ∃ t, hostWrite .w32 0x008 v s = some t ∧
    (t.ie = false ∧ t.latched = none ∧ t.done = false ∧ t.err = none ∧ t.ovr = false ∧ t.empty = false ∧
      t.freqValid = false ∧ t.treeValid = false ∧ t.codeValid = false ∧ t.len = 0 ∧ t.nsym = 0 ∧ t.nnodes = 0 ∧
      t.root = 0 ∧ t.outAlg = none ∧ t.outBytes = 0 ∧ t.outBits = 0 ∧ t.ratioNum = 0 ∧ t.ratioDen = 0) ∧
    (∀ a : Fin 4, ∀ w : Fin 4, resWord t.res[a] w = 0) ∧ (∀ b : Fin 256, t.freq[b] = 0 ∧ t.code[b] = []) ∧
    t.maxLen = s.maxLen ∧ (∀ j, inByte t j = inByte s j) ∧
    (s.busy = false → t.node = s.node ∧ ∀ j, outByte t j = outByte s j) ∧
    (s.busy = true → (∀ k : Fin 511, t.node[k] = none) ∧ ∀ j, t.obuf.read j = none)

/-- R340: the state after hardware reset, register by register, as a host reads it: every register and table of the
window at its reset value, the block idle, and the three memories unwritten. -/
def Obligations.HardwareResetLeavesTheTable : Prop :=
  ∀ s : State, ∀ t, (t = hardReset s ∨ t = State.reset) →
    readReg t .id = 0x48430100#32 ∧ readReg t .param = BitVec.ofNat 32 t.maxLen ∧ readReg t .ctrl = 0 ∧
    readReg t .status = 0 ∧ readReg t .cmd = 0 ∧ readReg t .len = 0 ∧ readReg t .nsym = 0 ∧ readReg t .nnodes = 0 ∧
    readReg t .root = 0 ∧ readReg t .outAlg = 0xF#32 ∧ readReg t .outBytes = 0 ∧ readReg t .outBits = 0 ∧
    readReg t .ratioNum = 0 ∧ readReg t .ratioDen = 0 ∧ (∀ a w, readReg t (.res a w) = 0) ∧
    (∀ b, readReg t (.freq b) = 0) ∧ (∀ b, readReg t (.codeLen b) = 0) ∧ (∀ b w, readReg t (.codeBits b w) = 0) ∧
    t.latched = none ∧ irq t = false ∧ (∀ k : Fin 511, t.node[k] = none) ∧ (∀ j, t.ibuf.read j = none) ∧
    (∀ j, t.obuf.read j = none) ∧ (t = hardReset s → t.maxLen = s.maxLen)

/-! ### Invariants -/

/-- R6, R48, R340, R341: the invariants hold right after hardware reset, and the default MAX_LEN is 4096. -/
def Obligations.ResetMeetsTheInvariants : Prop :=
  State.reset.maxLen = 4096 ∧ ParamInv State.reset ∧ MemoryInv State.reset ∧ StatusInv State.reset ∧
    PipelineInv State.reset ∧ ResultInv State.reset

/-- R6, R34, R54, R55, R84, R97: MAX_LEN is constant, and IBUF and OBUF keep their canonical form within their
capacities. -/
def Obligations.StepKeepsTheMemories : Prop :=
  ∀ s t : State, MemoryInv s → step s = .next t → MemoryInv t ∧ t.maxLen = s.maxLen

/-- R36, R48, R114, R302: every step keeps STATUS consistent. -/
def Obligations.StepKeepsStatusConsistent : Prop :=
  ∀ s t : State, StatusInv s → step s = .next t → StatusInv t

/-- R48, R341: every step keeps the pipeline's stages consistent with one another. -/
def Obligations.StepKeepsThePipelineConsistent : Prop :=
  ∀ s t : State, PipelineInv s → step s = .next t → PipelineInv t

/-- R42, R47, R273: every step keeps the result registers in agreement with the records. -/
def Obligations.StepKeepsTheResultsConsistent : Prop :=
  ∀ s t : State, ResultInv s → step s = .next t → ResultInv t
end

