-- ==== Sys2Proof/Laws/Tree.lean ====
section
/-! SUPPORT. Prefix trees as an inductive type: how a tree lies in a node store, what the walk of R146 gives for it, and
that its paths are free of one another. -/

namespace Sys2Proof.Machine

/-- A strictly binary tree with byte leaves (R145). -/
inductive HTree where
  | leaf (sym : Byte) (freq : Nat)
  | bin (left right : HTree)
deriving DecidableEq, Repr

/-- The sum of the leaves' frequencies, the frequency of the tree's root (R145). -/
def HTree.weight : HTree → Nat
  | .leaf _ f => f
  | .bin l r => l.weight + r.weight

/-- The leaves from left to right. -/
def HTree.leaves : HTree → List (Byte × Nat)
  | .leaf s f => [(s, f)]
  | .bin l r => l.leaves ++ r.leaves

/-- The sum of the frequencies of the inner nodes. -/
def HTree.cost : HTree → Nat
  | .leaf _ _ => 0
  | .bin l r => l.weight + r.weight + l.cost + r.cost

/-- The leaves' paths, the root having path `p`, in the order the walk of R146 binds them, the last one first. -/
def HTree.paths : HTree → Code → List (Byte × Code)
  | .leaf s _, p => [(s, p)]
  | .bin l r, p => r.paths (p ++ [true]) ++ l.paths (p ++ [false])

/-- The codewords of R146: the paths, or the one-bit code where the root is a leaf. -/
def HTree.codes : HTree → List (Byte × Code)
  | .leaf s _ => [(s, [false])]
  | .bin l r => (HTree.bin l r).paths []

/-- The tree lies in the node store with its root at index `k`, every child below its parent's index (R145). -/
def HTree.Stored (node : Nat → Option Node) : HTree → Nat → Prop
  | .leaf s f, k => node k = some (.leaf s f)
  | .bin l r, k => ∃ i j, node k = some (.internal (l.weight + r.weight) i j) ∧ i < k ∧ j < k ∧
      l.Stored node i ∧ r.Stored node j

/-- A stored tree stays stored when the store is extended. -/
theorem HTree.Stored.mono {node node' : Nat → Option Node} (h : ∀ k n, node k = some n → node' k = some n) :
    ∀ {t : HTree} {k : Nat}, t.Stored node k → t.Stored node' k
  | .leaf _ _, _, hs => h _ _ hs
  | .bin _ _, _, ⟨i, j, hk, hi, hj, hl, hr⟩ => ⟨i, j, h _ _ hk, hi, hj, hl.mono h, hr.mono h⟩

/-- The root's entry has the tree's weight as its frequency. -/
theorem HTree.Stored.root_freq {node : Nat → Option Node} {t : HTree} {k : Nat} (h : t.Stored node k) :
    ∃ n, node k = some n ∧ Node.freq n = t.weight := by
  cases t with
  | leaf s f => exact ⟨_, h, rfl⟩
  | bin l r =>
    obtain ⟨i, j, hk, _⟩ := h
    exact ⟨_, hk, rfl⟩

/-- The walk of a stored tree ends and binds the tree's paths (R146). -/
theorem HTree.Stored.walk {node : Nat → Option Node} :
    ∀ {t : HTree} {k fuel : Nat} (p : Code), t.Stored node k → k < fuel →
      walkTree node fuel k p = some (t.paths p)
  | .leaf s f, k, 0, _, _, h => absurd h (Nat.not_lt_zero _)
  | .leaf s f, k, fuel + 1, p, hs, _ => by
    have hs : node k = some (.leaf s f) := hs
    simp [walkTree, hs, paths]
  | .bin _ _, k, 0, _, _, h => absurd h (Nat.not_lt_zero _)
  | .bin l r, k, fuel + 1, p, ⟨i, j, hk, hi, hj, hl, hr⟩, h => by
    have h₁ := hl.walk (fuel := fuel) (p ++ [false]) (by omega)
    have h₂ := hr.walk (fuel := fuel) (p ++ [true]) (by omega)
    simp [walkTree, hk, h₁, h₂, paths]

/-- CodegenStep of a stored tree (R146). -/
theorem HTree.Stored.codegen {node : Nat → Option Node} {t : HTree} {k : Nat} (h : t.Stored node k)
    (hk : k < nodeMax) : codegenStep node k = some (codeTable t.codes) := by
  cases t with
  | leaf s f =>
    have h : node k = some (.leaf s f) := h
    simp [codegenStep, h, codes]
  | bin l r =>
    have hw := h.walk [] hk
    obtain ⟨i, j, hn, _⟩ := h
    simp [codegenStep, hn, hw, codes]

/-- The paths bind the leaves' byte values, from right to left. -/
theorem HTree.paths_syms (t : HTree) : ∀ p, (t.paths p).map Prod.fst = (t.leaves.map Prod.fst).reverse := by
  induction t with
  | leaf s f => simp [paths, leaves]
  | bin l r hl hr => simp [paths, leaves, hl, hr]

theorem HTree.codes_syms (t : HTree) : t.codes.map Prod.fst = (t.leaves.map Prod.fst).reverse := by
  cases t with
  | leaf s f => rfl
  | bin l r => exact (HTree.bin l r).paths_syms []

/-- Every path continues the root's. -/
theorem HTree.paths_start {t : HTree} : ∀ {p : Code} {x : Byte × Code}, x ∈ t.paths p → p <+: x.2 := by
  induction t with
  | leaf s f =>
    intro p x hx
    obtain rfl : x = (s, p) := by simpa [paths] using hx
    exact List.prefix_rfl
  | bin l r hl hr =>
    intro p x hx
    rcases List.mem_append.1 hx with hx | hx
    · exact (List.prefix_append _ _).trans (hr hx)
    · exact (List.prefix_append _ _).trans (hl hx)

/-- No path starts another (R149). -/
theorem HTree.paths_prefixFree (t : HTree) :
    ∀ p, (t.paths p).Pairwise fun x y => ¬ x.2 <+: y.2 ∧ ¬ y.2 <+: x.2 := by
  induction t with
  | leaf s f => simp [paths]
  | bin l r hl hr =>
    intro p
    refine List.pairwise_append.2 ⟨hr _, hl _, fun x hx y hy => ?_⟩
    have hx := paths_start hx
    have hy := paths_start hy
    have key : ∀ z : Code, p ++ [true] <+: z → p ++ [false] <+: z → False := fun z h₁ h₂ => by
      have h := List.prefix_of_prefix_length_le h₁ h₂ (by simp)
      simp at h
    exact ⟨fun h => key _ (hx.trans h) hy, fun h => key _ hx (hy.trans h)⟩

/-- The weighted path length, where `count` gives the leaves their frequencies. -/
theorem HTree.paths_weighted (t : HTree) {count : Byte → Nat} :
    ∀ p, (∀ x ∈ t.leaves, count x.1 = x.2) →
      ((t.paths p).map fun x => count x.1 * x.2.length).sum = t.cost + p.length * t.weight := by
  induction t with
  | leaf s f =>
    intro p h
    have : count s = f := h (s, f) (by simp [leaves])
    simp [paths, cost, weight, this, Nat.mul_comm]
  | bin l r hl hr =>
    intro p h
    have hl := hl (p ++ [false]) fun x hx => h x (List.mem_append_left _ hx)
    have hr := hr (p ++ [true]) fun x hx => h x (List.mem_append_right _ hx)
    simp only [paths, List.map_append, List.sum_append, hl, hr, cost, weight, List.length_append,
      List.length_singleton]
    ring

/-- A binary tree's paths are not empty. -/
theorem HTree.codes_ne_nil {t : HTree} {x : Byte × Code} (h : x ∈ t.codes) : x.2 ≠ [] := by
  cases t with
  | leaf s f =>
    obtain rfl : x = (s, [false]) := by simpa [codes] using h
    simp
  | bin l r =>
    intro hx
    rcases List.mem_append.1 h with h | h <;>
    · have := paths_start h
      simp [hx] at this

end Sys2Proof.Machine
end

