-- ==== Sys2Proof/Laws/Queue.lean ====
section
/-! SUPPORT. The priority queue and the merge loop (R141 to R143): the queue stays in key order, the loop always ends with
one tree that holds every leaf, and the sum of the frequencies it creates is bounded. -/

namespace Sys2Proof.Machine

/-! ### The queue (R142) -/

/-- The queue is in key order: min(Q) is its first entry. -/
abbrev QueueOrdered (q : List QueueEntry) : Prop := q.Pairwise fun x y => QueueEntry.before x y = true

theorem before_iff {x y : QueueEntry} :
    QueueEntry.before x y = true ↔ x.freq < y.freq ∨ (x.freq = y.freq ∧ x.seq < y.seq) := by
  simp [QueueEntry.before]

theorem enqueue_perm (e : QueueEntry) (q : List QueueEntry) : (enqueue e q).Perm (e :: q) := by
  induction q with
  | nil => exact .refl _
  | cons x q ih =>
    unfold enqueue
    split
    · exact .refl _
    · exact (ih.cons x).trans (.swap e x q)

theorem enqueue_length (e : QueueEntry) (q : List QueueEntry) : (enqueue e q).length = q.length + 1 :=
  (enqueue_perm e q).length_eq

/-- Inserting an entry with a new sequence number keeps the key order (R142). -/
theorem enqueue_ordered {e : QueueEntry} {q : List QueueEntry} (h : QueueOrdered q)
    (hseq : ∀ x ∈ q, x.seq ≠ e.seq) : QueueOrdered (enqueue e q) := by
  induction q with
  | nil => simp [enqueue, QueueOrdered]
  | cons x q ih =>
    obtain ⟨h₁, h₂⟩ := List.pairwise_cons.1 h
    unfold enqueue
    split
    · next hb =>
      refine List.pairwise_cons.2 ⟨fun y hy => ?_, h⟩
      rcases List.mem_cons.1 hy with rfl | hy
      · exact hb
      · have := h₁ y hy
        simp only [before_iff] at *
        omega
    · next hb =>
      refine List.pairwise_cons.2 ⟨fun y hy => ?_, ih h₂ fun y hy => hseq y (List.mem_cons_of_mem _ hy)⟩
      rcases List.mem_cons.1 ((enqueue_perm e q).mem_iff.1 hy) with rfl | hy
      · have := hseq x List.mem_cons_self
        simp only [before_iff] at *
        omega
      · exact h₁ y hy

/-- Frequencies never fall along the queue. -/
abbrev FreqOrdered (q : List QueueEntry) : Prop := q.Pairwise fun x y => x.freq ≤ y.freq

theorem enqueue_freqOrdered {e : QueueEntry} {q : List QueueEntry} (h : FreqOrdered q) :
    FreqOrdered (enqueue e q) := by
  induction q with
  | nil => simp [enqueue, FreqOrdered]
  | cons x q ih =>
    obtain ⟨h₁, h₂⟩ := List.pairwise_cons.1 h
    unfold enqueue
    split
    · next hb =>
      refine List.pairwise_cons.2 ⟨fun y hy => ?_, h⟩
      rcases List.mem_cons.1 hy with rfl | hy
      · rw [before_iff] at hb
        omega
      · have := h₁ y hy
        rw [before_iff] at hb
        omega
    · next hb =>
      refine List.pairwise_cons.2 ⟨fun y hy => ?_, ih h₂⟩
      rcases List.mem_cons.1 ((enqueue_perm e q).mem_iff.1 hy) with rfl | hy
      · simp only [before_iff] at hb
        omega
      · exact h₁ y hy

/-! ### What the merges cost -/

/-- The sum of the frequencies of the first `c` entries. -/
def frontSum (c : Nat) (q : List QueueEntry) : Nat := ((q.take c).map QueueEntry.freq).sum

/-- The sum of all frequencies. -/
def freqSum (q : List QueueEntry) : Nat := (q.map QueueEntry.freq).sum

theorem frontSum_all {c : Nat} {q : List QueueEntry} (h : q.length ≤ c) : frontSum c q = freqSum q := by
  rw [frontSum, freqSum, List.take_of_length_le h]

@[simp] theorem frontSum_zero (q : List QueueEntry) : frontSum 0 q = 0 := rfl

@[simp] theorem frontSum_succ (c : Nat) (x : QueueEntry) (q : List QueueEntry) :
    frontSum (c + 1) (x :: q) = x.freq + frontSum c q := by
  simp [frontSum]

@[simp] theorem freqSum_cons (x : QueueEntry) (q : List QueueEntry) : freqSum (x :: q) = x.freq + freqSum q := by
  simp [freqSum]

theorem freqSum_enqueue (e : QueueEntry) (q : List QueueEntry) :
    freqSum (enqueue e q) = e.freq + freqSum q := by
  have := ((enqueue_perm e q).map QueueEntry.freq).sum_eq
  simpa [freqSum] using this

/-- Replacing the last of the first `c + 1` entries by an earlier one makes their sum no larger. -/
theorem frontSum_shift {x : QueueEntry} {q : List QueueEntry} (h : FreqOrdered q) (hx : ∀ y ∈ q, x.freq ≤ y.freq) :
    ∀ {c : Nat}, c + 1 ≤ q.length → x.freq + frontSum c q ≤ frontSum (c + 1) q := by
  induction q generalizing x with
  | nil => intro c hc; simp at hc
  | cons y q ih =>
    obtain ⟨h₁, h₂⟩ := List.pairwise_cons.1 h
    intro c hc
    have hxy := hx y List.mem_cons_self
    cases c with
    | zero => simpa using hxy
    | succ c =>
      have := ih h₂ h₁ (c := c) (by simpa using hc)
      simp only [frontSum_succ] at *
      omega

/-- Inserting an entry does not raise the sum of the first `c` of the old ones. -/
theorem frontSum_enqueue {e : QueueEntry} {q : List QueueEntry} (h : FreqOrdered q) :
    ∀ {c : Nat}, c ≤ q.length → frontSum c (enqueue e q) ≤ frontSum c q := by
  induction q with
  | nil =>
    intro c hc
    obtain rfl : c = 0 := by simpa using hc
    simp
  | cons x q ih =>
    obtain ⟨h₁, h₂⟩ := List.pairwise_cons.1 h
    intro c hc
    cases c with
    | zero => simp
    | succ c =>
      unfold enqueue
      split
      · next hb =>
        rw [before_iff] at hb
        have hall : ∀ y ∈ x :: q, e.freq ≤ y.freq := fun y hy => by
          rcases List.mem_cons.1 hy with rfl | hy
          · omega
          · have := h₁ y hy
            omega
        have := frontSum_shift h hall (c := c) hc
        rw [frontSum_succ]
        exact this
      · have := ih h₂ (c := c) (by simpa using hc)
        simp only [frontSum_succ]
        omega

/-- The new nodes' frequencies sum to at most `d` times the queue's plus the `c` smallest of it, whenever a prefix code
with lengths `d + 1` for those `c` and `d` for the others exists. -/
theorem mergeQueue_cost : ∀ (fuel k : Nat) (q : List QueueEntry) (ns : List Node) (root : Nat),
    mergeQueue fuel k q = some (ns, root) → FreqOrdered q →
    ∀ c d, c ≤ q.length → c + 2 * (q.length - c) ≤ 2 ^ (d + 1) →
      (ns.map Node.freq).sum ≤ d * freqSum q + frontSum c q := by
  intro fuel
  induction fuel with
  | zero =>
    intro k q ns root h _ c d _ _
    match q, h with
    | [e], h =>
      obtain ⟨rfl, rfl⟩ : [] = ns ∧ e.seq = root := by simpa [mergeQueue] using h
      simp
  | succ fuel ih =>
    intro k q ns root h hq
    match q, h with
    | [e], h =>
      obtain ⟨rfl, rfl⟩ : [] = ns ∧ e.seq = root := by simpa [mergeQueue] using h
      intros
      simp
    | a :: b :: q, h =>
      obtain ⟨-, hq₁⟩ := List.pairwise_cons.1 hq
      obtain ⟨-, hq₂⟩ := List.pairwise_cons.1 hq₁
      unfold mergeQueue at h
      split at h
      · simp at h
      · next ns' root' hm =>
        obtain ⟨rfl, rfl⟩ : .internal (a.freq + b.freq) a.seq b.seq :: ns' = ns ∧ root' = root := by
          simpa using h
        have key : ∀ c d, c + 2 ≤ q.length + 2 → c + 2 + 2 * (q.length - c) ≤ 2 ^ (d + 1) →
            ((.internal (a.freq + b.freq) a.seq b.seq :: ns').map Node.freq).sum ≤
              d * freqSum (a :: b :: q) + frontSum (c + 2) (a :: b :: q) := by
          intro c d hc hd
          have h₁ := ih _ _ _ _ hm (enqueue_freqOrdered hq₂) c d (by rw [enqueue_length]; omega)
            (by rw [enqueue_length]; omega)
          have h₂ := frontSum_enqueue (e := { freq := a.freq + b.freq, seq := k }) hq₂ (c := c) (by omega)
          rw [freqSum_enqueue] at h₁
          simp only [List.map_cons, List.sum_cons, Node.freq, frontSum_succ, freqSum_cons] at *
          rw [show a.freq + (b.freq + freqSum q) = a.freq + b.freq + freqSum q by omega]
          omega
        have zero : ∀ d, 2 * (q.length + 2) ≤ 2 ^ (d + 1) →
            ((.internal (a.freq + b.freq) a.seq b.seq :: ns').map Node.freq).sum ≤
              d * freqSum (a :: b :: q) := by
          intro d hd
          cases d with
          | zero => simp at hd
          | succ d =>
            have hd : q.length + 2 ≤ 2 ^ (d + 1) := by
              rw [pow_succ 2 (d + 1)] at hd
              omega
            have := key q.length d (by omega) (by omega)
            rw [frontSum_all (by simp)] at this
            rw [Nat.succ_mul]
            exact this
        intro c d hc hd
        match c with
        | 0 =>
          have := zero d (by simpa using hd)
          simpa using this
        | 1 =>
          have h2 : 2 ^ (d + 1) = 2 * 2 ^ d := by rw [pow_succ]; omega
          have := zero d (by simp only [List.length_cons] at hd; omega)
          omega
        | c + 2 => exact key c d (by simpa using hc) (by simp only [List.length_cons] at hd; omega)

end Sys2Proof.Machine
end

