-- ==== Sys2Proof/Laws/Build.lean ====
section
/-! SUPPORT. What BuildStep returns (R141 to R145): one tree, stored with every child below its parent, whose leaves are the
bytes that occur, each once, in a store of 2m − 1 nodes with the root last. -/

namespace Sys2Proof.Machine

/-! ### A queue whose entries carry their trees -/

/-- `enqueue` on entries that carry the tree they stand for. -/
def enqueueTree (e : QueueEntry × HTree) : List (QueueEntry × HTree) → List (QueueEntry × HTree)
  | [] => [e]
  | x :: q => if QueueEntry.before e.1 x.1 then e :: x :: q else x :: enqueueTree e q

theorem enqueueTree_fst (e : QueueEntry × HTree) (q : List (QueueEntry × HTree)) :
    (enqueueTree e q).map Prod.fst = enqueue e.1 (q.map Prod.fst) := by
  induction q with
  | nil => rfl
  | cons x q ih =>
    unfold enqueueTree
    split
    · next h => simp [enqueue, h]
    · next h => simp [enqueue, h, ih]

theorem enqueueTree_perm (e : QueueEntry × HTree) (q : List (QueueEntry × HTree)) :
    (enqueueTree e q).Perm (e :: q) := by
  induction q with
  | nil => exact .refl _
  | cons x q ih =>
    unfold enqueueTree
    split
    · exact .refl _
    · exact (ih.cons x).trans (.swap e x q)

/-- An entry stands for a tree that lies in the store at its sequence number, and has its weight. -/
abbrev Carries (store : List Node) (x : QueueEntry × HTree) : Prop :=
  x.1.freq = x.2.weight ∧ x.1.seq < store.length ∧ x.2.Stored (store[·]?) x.1.seq

theorem getElem?_append_mono {α : Type} (a b : List α) :
    ∀ (k : Nat) (n : α), a[k]? = some n → (a ++ b)[k]? = some n := fun k n h => by
  have hk : k < a.length := (List.getElem?_eq_some_iff.1 h).1
  rw [List.getElem?_append_left hk]
  exact h

theorem Carries.mono {a b : List Node} {x : QueueEntry × HTree} (h : Carries a x) : Carries (a ++ b) x :=
  ⟨h.1, by rw [List.length_append]; have := h.2.1; omega, h.2.2.mono (getElem?_append_mono a b)⟩

/-! ### The merge loop (R143) -/

/-- The merge loop ends with one tree over all the queue's leaves. -/
theorem mergeQueue_spec : ∀ (fuel : Nat) (store : List Node) (q : List (QueueEntry × HTree)),
    (∀ x ∈ q, Carries store x) → q ≠ [] → q.length ≤ fuel + 1 →
    ∃ (ns : List Node) (root : Nat) (t : HTree), mergeQueue fuel store.length (q.map Prod.fst) = some (ns, root) ∧
      ns.length + 1 = q.length ∧ root < (store ++ ns).length ∧
      (ns ≠ [] → root + 1 = (store ++ ns).length) ∧
      (ns = [] → ∃ x, q = [x] ∧ root = x.1.seq) ∧
      t.Stored ((store ++ ns)[·]?) root ∧
      t.leaves.Perm (q.flatMap fun x => x.2.leaves) ∧
      t.cost = (q.map fun x => x.2.cost).sum + (ns.map Node.freq).sum := by
  intro fuel
  induction fuel with
  | zero =>
    intro store q hq hne hlen
    match q, hq, hne, hlen with
    | [x], hq, _, _ =>
      obtain ⟨h₁, h₂, h₃⟩ := hq x List.mem_cons_self
      exact ⟨[], x.1.seq, x.2, by simp [mergeQueue], by simp, by simpa using h₂, by simp,
        fun _ => ⟨x, rfl, rfl⟩, by simpa using h₃, by simp, by simp⟩
  | succ fuel ih =>
    intro store q hq hne hlen
    match q, hq, hne, hlen with
    | [x], hq, _, _ =>
      obtain ⟨h₁, h₂, h₃⟩ := hq x List.mem_cons_self
      exact ⟨[], x.1.seq, x.2, by simp [mergeQueue], by simp, by simpa using h₂, by simp,
        fun _ => ⟨x, rfl, rfl⟩, by simpa using h₃, by simp, by simp⟩
    | a :: b :: q, hq, _, hlen =>
      obtain ⟨ha₁, ha₂, ha₃⟩ := hq a List.mem_cons_self
      obtain ⟨hb₁, hb₂, hb₃⟩ := hq b (List.mem_cons_of_mem _ List.mem_cons_self)
      have hfreq : a.1.freq + b.1.freq = a.2.weight + b.2.weight := by rw [ha₁, hb₁]
      let node : Node := .internal (a.1.freq + b.1.freq) a.1.seq b.1.seq
      let new : QueueEntry × HTree := ({ freq := a.1.freq + b.1.freq, seq := store.length }, .bin a.2 b.2)
      have hnew : Carries (store ++ [node]) new := by
        refine ⟨hfreq, by simp [new], a.1.seq, b.1.seq, ?_, ha₂, hb₂, ?_, ?_⟩
        · simp [new, node, hfreq]
        · exact ha₃.mono (getElem?_append_mono _ _)
        · exact hb₃.mono (getElem?_append_mono _ _)
      have hcarry : ∀ x ∈ enqueueTree new q, Carries (store ++ [node]) x := fun x hx => by
        rcases List.mem_cons.1 ((enqueueTree_perm new q).mem_iff.1 hx) with rfl | hx
        · exact hnew
        · exact (hq x (List.mem_cons_of_mem _ (List.mem_cons_of_mem _ hx))).mono
      have hperm := enqueueTree_perm new q
      obtain ⟨ns, root, t, hm, hl, hr, hlast, hone, hs, hp, hc⟩ := ih (store ++ [node]) (enqueueTree new q) hcarry
        (by intro h; have := hperm.length_eq; rw [h] at this; simp at this)
        (by rw [hperm.length_eq]; simpa using hlen)
      rw [enqueueTree_fst, List.length_append, List.length_singleton] at hm
      have happ : store ++ [node] ++ ns = store ++ node :: ns := by simp
      rw [happ] at hr hlast hs
      refine ⟨node :: ns, root, t, ?_, ?_, hr, ?_, by simp, hs, ?_, ?_⟩
      · simp [mergeQueue, new, node] at hm ⊢
        simp [hm]
      · rw [hperm.length_eq] at hl
        simp only [List.length_cons] at *
        omega
      · intro _
        by_cases hns : ns = []
        · obtain ⟨x, hx, hroot⟩ := hone hns
          have : x = new := by
            have := hperm.mem_iff.2 (List.mem_cons_self (a := new) (l := q))
            rw [hx] at this
            exact (List.mem_singleton.1 this).symm
          subst this
          simp [hns, hroot, new]
        · exact hlast hns
      · refine hp.trans ((hperm.flatMap_right _).trans ?_)
        simp [new, HTree.leaves]
      · rw [hc, (hperm.map fun x => x.2.cost).sum_eq]
        simp only [List.map_cons, List.sum_cons, new, node, HTree.cost, Node.freq, ← hfreq]
        omega

/-! ### The leaves (R141) -/

/-- The bytes that occur and how often, in ascending byte value. -/
def symbolsFrom (s : Nat) : List Nat → List (Byte × Nat)
  | [] => []
  | f :: fs => if 0 < f then (BitVec.ofNat 8 s, f) :: symbolsFrom (s + 1) fs else symbolsFrom (s + 1) fs

theorem leavesFrom_eq (f : List Nat) : ∀ s, leavesFrom s f = (symbolsFrom s f).map fun x => Node.leaf x.1 x.2 := by
  induction f with
  | nil => intro s; rfl
  | cons x f ih =>
    intro s
    unfold leavesFrom symbolsFrom
    split <;> simp [ih]

theorem symbolsFrom_length (f : List Nat) : ∀ s, (symbolsFrom s f).length = symbolCount f := by
  induction f with
  | nil => intro s; rfl
  | cons x f ih =>
    intro s
    unfold symbolsFrom
    split
    · next h => simp [ih, symbolCount, h]
    · next h => simp [ih, symbolCount, h]

theorem symbolsFrom_sum (f : List Nat) : ∀ s, ((symbolsFrom s f).map Prod.snd).sum = f.sum := by
  induction f with
  | nil => intro s; rfl
  | cons x f ih =>
    intro s
    unfold symbolsFrom
    split
    · simp [ih]
    · next h => simp [ih, Nat.eq_zero_of_not_pos h]

theorem symbolsFrom_range (f : List Nat) : ∀ s, ∀ x ∈ symbolsFrom s f,
    ∃ d, d < f.length ∧ x.1 = BitVec.ofNat 8 (s + d) ∧ f[d]? = some x.2 ∧ 0 < x.2 := by
  induction f with
  | nil => intro s x hx; simp [symbolsFrom] at hx
  | cons y f ih =>
    intro s x hx
    unfold symbolsFrom at hx
    split at hx
    · next h =>
      rcases List.mem_cons.1 hx with rfl | hx
      · exact ⟨0, by simp, rfl, by simp, h⟩
      · obtain ⟨d, h₁, h₂, h₃⟩ := ih (s + 1) x hx
        exact ⟨d + 1, by simpa using h₁, by rw [h₂]; congr 1; omega, by simpa using h₃⟩
    · obtain ⟨d, h₁, h₂, h₃⟩ := ih (s + 1) x hx
      exact ⟨d + 1, by simpa using h₁, by rw [h₂]; congr 1; omega, by simpa using h₃⟩

/-- The byte values are distinct. -/
theorem symbolsFrom_nodup (f : List Nat) : ∀ s, s + f.length ≤ 256 → ((symbolsFrom s f).map Prod.fst).Nodup := by
  induction f with
  | nil => intro s _; exact List.nodup_nil
  | cons y f ih =>
    intro s hs
    unfold symbolsFrom
    rw [List.length_cons] at hs
    split
    · refine List.nodup_cons.2 ⟨fun h => ?_, ih (s + 1) (by omega)⟩
      obtain ⟨x, hx, hxs⟩ := List.mem_map.1 h
      obtain ⟨d, h₁, h₂, -⟩ := symbolsFrom_range f (s + 1) x hx
      have := congrArg BitVec.toNat (hxs.symm.trans h₂)
      simp only [BitVec.toNat_ofNat] at this
      omega
    · exact ih (s + 1) (by omega)

/-- Every positive entry of the table has its leaf. -/
theorem mem_symbolsFrom (f : List Nat) : ∀ s d n, f[d]? = some n → 0 < n →
    (BitVec.ofNat 8 (s + d), n) ∈ symbolsFrom s f := by
  induction f with
  | nil => intro s d n h; simp at h
  | cons y f ih =>
    intro s d n h hn
    unfold symbolsFrom
    cases d with
    | zero =>
      obtain rfl : y = n := by simpa using h
      simp [hn]
    | succ d =>
      have := ih (s + 1) d n (by simpa using h) hn
      rw [show s + 1 + d = s + (d + 1) by omega] at this
      split
      · exact List.mem_cons_of_mem _ this
      · exact this

/-- The queue after the leaves are in: it holds one entry a leaf, each standing for that leaf. -/
theorem enqueueLeaves_spec (ls : List (Byte × Nat)) : ∀ (done : List Node) (q : List (QueueEntry × HTree)),
    (∀ x ∈ q, Carries done x) →
    ∃ q' : List (QueueEntry × HTree), q'.map Prod.fst = enqueueLeaves done.length (ls.map fun x => Node.leaf x.1 x.2) (q.map Prod.fst) ∧
      q'.Perm (q ++ ls.mapIdx fun i x => ({ freq := x.2, seq := done.length + i }, HTree.leaf x.1 x.2)) ∧
      ∀ x ∈ q', Carries (done ++ ls.map fun x => Node.leaf x.1 x.2) x := by
  induction ls with
  | nil => intro done q hq; exact ⟨q, rfl, by simp, by simpa using hq⟩
  | cons l ls ih =>
    intro done q hq
    let new : QueueEntry × HTree := ({ freq := l.2, seq := done.length }, .leaf l.1 l.2)
    have hnew : Carries (done ++ [Node.leaf l.1 l.2]) new := by
      refine ⟨rfl, by simp [new], ?_⟩
      show (done ++ [Node.leaf l.1 l.2])[done.length]? = _
      simp
    have hperm := enqueueTree_perm new q
    obtain ⟨q', h₁, h₂, h₃⟩ := ih (done ++ [Node.leaf l.1 l.2]) (enqueueTree new q) fun x hx => by
      rcases List.mem_cons.1 (hperm.mem_iff.1 hx) with rfl | hx
      · exact hnew
      · exact (hq x hx).mono
    refine ⟨q', ?_, ?_, ?_⟩
    · rw [h₁, enqueueTree_fst]
      simp [enqueueLeaves, new, Node.freq]
    · refine h₂.trans ((hperm.append_right _).trans ?_)
      simp only [List.mapIdx_cons, List.length_append, List.length_singleton, Nat.add_zero, new,
        List.cons_append]
      refine List.Perm.trans ?_ List.perm_middle.symm
      rw [show (fun i (x : Byte × Nat) => (({ freq := x.2, seq := done.length + 1 + i } : QueueEntry), HTree.leaf x.1 x.2)) =
        fun i x => ({ freq := x.2, seq := done.length + (i + 1) }, HTree.leaf x.1 x.2) by
          funext i x; congr 2; omega]
    · simpa using h₃

/-- Filling the queue keeps the frequencies in order. -/
theorem enqueueLeaves_freqOrdered (ns : List Node) : ∀ k q, FreqOrdered q → FreqOrdered (enqueueLeaves k ns q) := by
  induction ns with
  | nil => exact fun _ _ h => h
  | cons n ns ih => exact fun _ _ h => ih _ _ (enqueue_freqOrdered h)

/-! ### BuildStep -/

/-- A table with no positive entry has no tree (R141 requires m ≥ 1). -/
theorem buildStep_none {f : List Nat} (h : symbolCount f = 0) : buildStep f = none := by
  have : leavesFrom 0 f = [] := by
    rw [leavesFrom_eq]
    have := symbolsFrom_length f 0
    rw [h] at this
    simp [List.length_eq_zero_iff.1 this]
  simp [buildStep, this, enqueueLeaves, mergeQueue]

/-- What BuildStep returns for a table of at most 256 entries that is not empty (R143, R145, R147). -/
theorem buildStep_spec {f : List Nat} (h : 0 < symbolCount f) (hlen : f.length ≤ 256) :
    ∃ (t : Tree) (tree : HTree), buildStep f = some t ∧ t.nodes.length + 1 = 2 * symbolCount f ∧ t.root + 1 = t.nodes.length ∧
      tree.Stored (t.nodes[·]?) t.root ∧ tree.leaves.Perm (symbolsFrom 0 f) ∧ tree.cost ≤ 8 * f.sum := by
  have hcount := symbolsFrom_length f 0
  have hle : symbolCount f ≤ 256 := le_trans List.countP_le_length hlen
  obtain ⟨q, hq₁, hq₂, hq₃⟩ := enqueueLeaves_spec (symbolsFrom 0 f) [] [] (by simp)
  rw [← leavesFrom_eq] at hq₁ hq₃
  simp only [List.nil_append, List.length_nil, Nat.zero_add, List.map_nil] at hq₁ hq₂ hq₃
  have hleaves : (leavesFrom 0 f).length = symbolCount f := by rw [leavesFrom_eq, List.length_map, hcount]
  have hqlen : q.length = symbolCount f := by rw [hq₂.length_eq, List.length_mapIdx, hcount]
  obtain ⟨ns, root, tree, hm, hns, hroot, hlast, hone, hs, hp, hc⟩ :=
    mergeQueue_spec (leavesFrom 0 f).length (leavesFrom 0 f) q hq₃ (by intro hq; simp [hq] at hqlen; omega) (by omega)
  have hflat : (q.flatMap fun x => x.2.leaves).Perm (symbolsFrom 0 f) := by
    refine (hq₂.flatMap_right _).trans (.of_eq ?_)
    rw [List.flatMap_def, List.mapIdx_eq_zipIdx_map, List.map_map]
    have : ((fun x : QueueEntry × HTree => x.2.leaves) ∘
        fun x : (Byte × Nat) × Nat => ({ freq := x.1.2, seq := x.2 }, HTree.leaf x.1.1 x.1.2)) =
        fun x : (Byte × Nat) × Nat => [x.1] := rfl
    rw [this, ← List.flatMap_def, ← List.map_eq_flatMap, List.zipIdx_map_fst]
  have hcost0 : (q.map fun x => x.2.cost).sum = 0 := by
    rw [(hq₂.map fun x => x.2.cost).sum_eq]
    refine List.sum_eq_zero fun n hn => ?_
    obtain ⟨x, hx, rfl⟩ := List.mem_map.1 hn
    obtain ⟨i, hi, rfl⟩ := List.mem_mapIdx.1 hx
    rfl
  have hsum : freqSum (q.map Prod.fst) = f.sum := by
    rw [← symbolsFrom_sum f 0, freqSum, List.map_map, (hq₂.map _).sum_eq, List.mapIdx_eq_zipIdx_map, List.map_map]
    have : ((QueueEntry.freq ∘ Prod.fst) ∘
        fun x : (Byte × Nat) × Nat => (({ freq := x.1.2, seq := x.2 } : QueueEntry), HTree.leaf x.1.1 x.1.2)) =
        Prod.snd ∘ (Prod.fst : (Byte × Nat) × Nat → Byte × Nat) := rfl
    rw [this, ← List.map_map, List.zipIdx_map_fst]
  have hord : FreqOrdered (q.map Prod.fst) := by
    rw [hq₁]
    exact enqueueLeaves_freqOrdered _ _ _ List.Pairwise.nil
  have hbound := mergeQueue_cost _ _ _ _ _ hm hord q.length 7 (by simp) (by simp; omega)
  rw [frontSum_all (by simp), hsum] at hbound
  rw [hq₁] at hm
  refine ⟨{ nodes := leavesFrom 0 f ++ ns, root := root }, tree, by simp [buildStep, hm], ?_, ?_, hs,
    hp.trans hflat, by omega⟩
  · simp only [List.length_append]
    omega
  · by_cases hnil : ns = []
    · obtain ⟨x, hx, hr⟩ := hone hnil
      have hx1 : q.length = 1 := by simp [hx]
      simp only [hnil, List.append_nil] at hroot ⊢
      omega
    · exact hlast hnil

end Sys2Proof.Machine
end

