-- ==== Sys2Proof/Laws/Bus.lean ====
section
/-! SUPPORT. What each range of the address map reaches (20_memory.md R82 to R85): one lemma a range, so that no proof
unfolds the map. -/

namespace Sys2Proof.Machine

/-- An aligned 32-bit access below the memories reaches the register there (R83). -/
theorem target_w32 {maxLen off : Nat} (h : off % 4 = 0) (h' : off < ibufBase) :
    target maxLen .w32 off = (regAt off).map .reg := by
  unfold target
  rw [if_neg (show ¬ off % Width.w32.bytes ≠ 0 from not_not.2 h), if_pos h', if_pos rfl]

/-- Below the memories nothing narrower than 32 bits reaches anything (R83). -/
theorem target_subword {maxLen off : Nat} {w : Width} (hw : w ≠ .w32) (h : off < ibufBase) :
    target maxLen w off = none := by
  unfold target
  simp [h, hw]

/-- A misaligned access reaches nothing (R87). -/
theorem target_misaligned {maxLen off : Nat} {w : Width} (h : off % w.bytes ≠ 0) : target maxLen w off = none := by
  unfold target
  rw [if_pos h]

/-- An aligned access in the IBUF window reaches IBUF exactly within its capacity (R84). -/
theorem target_ibuf_window {maxLen off : Nat} {w : Width} (h : off % w.bytes = 0) (h₁ : ibufBase ≤ off)
    (h₂ : off < obufBase) :
    target maxLen w off = if off - ibufBase + w.bytes ≤ maxLen then some (.ibuf (off - ibufBase)) else none := by
  unfold target
  rw [if_neg (not_not.2 h), if_neg (Nat.not_lt.2 h₁), if_pos h₂]

/-- An aligned access from the OBUF window on reaches OBUF exactly within its capacity (R85). -/
theorem target_obuf_window {maxLen off : Nat} {w : Width} (h : off % w.bytes = 0) (h₁ : obufBase ≤ off) :
    target maxLen w off = if off - obufBase + w.bytes ≤ 3 * maxLen then some (.obuf (off - obufBase)) else none := by
  unfold target
  have : ibufBase ≤ off := le_trans (by decide) h₁
  rw [if_neg (not_not.2 h), if_neg (Nat.not_lt.2 this), if_neg (Nat.not_lt.2 h₁)]

/-! ### Bytes on the bus (R86) -/

@[simp] theorem littleEndian_nil : littleEndian [] = 0 := rfl

@[simp] theorem littleEndian_cons (b : Byte) (bs : List Byte) :
    littleEndian (b :: bs) = b.toNat + 256 * littleEndian bs := rfl

/-! ### The register tables (R82) -/

theorem regAt_res (a w : Fin 4) : regAt (0x100 + 16 * a + 4 * w) = some (.res a w) := by
  have := a.isLt
  have := w.isLt
  unfold regAt
  rw [if_neg (by omega), dif_pos (by omega)]
  have ha : (0x100 + 16 * a.val + 4 * w.val - 0x100) / 16 = a.val := by omega
  have hw : (0x100 + 16 * a.val + 4 * w.val - 0x100) % 16 / 4 = w.val := by omega
  simp only [ha, hw]

theorem regAt_freq (s : Fin 256) : regAt (0x400 + 4 * s) = some (.freq s) := by
  have := s.isLt
  unfold regAt
  rw [if_neg (by omega), dif_neg (by omega), dif_pos (by omega)]
  have hs : (0x400 + 4 * s.val - 0x400) / 4 = s.val := by omega
  simp only [hs]

theorem regAt_codeLen (s : Fin 256) : regAt (0x800 + 4 * s) = some (.codeLen s) := by
  have := s.isLt
  unfold regAt
  rw [if_neg (by omega), dif_neg (by omega), dif_neg (by omega), dif_pos (by omega)]
  have hs : (0x800 + 4 * s.val - 0x800) / 4 = s.val := by omega
  simp only [hs]

theorem regAt_codeBits (s : Fin 256) (w : Fin 8) : regAt (0x2000 + 32 * s + 4 * w) = some (.codeBits s w) := by
  have := s.isLt
  have := w.isLt
  unfold regAt
  rw [if_neg (by omega), dif_neg (by omega), dif_neg (by omega), dif_neg (by omega), dif_pos (by omega)]
  have hs : (0x2000 + 32 * s.val + 4 * w.val - 0x2000) / 32 = s.val := by omega
  have hw : (0x2000 + 32 * s.val + 4 * w.val - 0x2000) % 32 / 4 = w.val := by omega
  simp only [hs, hw]

theorem regAt_node (k : Fin 511) (w : Fin 4) : regAt (0x4000 + 16 * k + 4 * w) = some (.node k w) := by
  have := k.isLt
  have := w.isLt
  unfold regAt
  rw [if_neg (by omega), dif_neg (by omega), dif_neg (by omega), dif_neg (by omega), dif_neg (by omega),
    dif_pos (by omega)]
  have hk : (0x4000 + 16 * k.val + 4 * w.val - 0x4000) / 16 = k.val := by omega
  have hw : (0x4000 + 16 * k.val + 4 * w.val - 0x4000) % 16 / 4 = w.val := by omega
  simp only [hk, hw]

/-- The offsets of the register region that the map reserves (R82, R88). -/
theorem regAt_reserved {off : Nat} (h : (0x38 ≤ off ∧ off < 0x100) ∨ (0x140 ≤ off ∧ off < 0x400) ∨
    (0xC00 ≤ off ∧ off < 0x2000) ∨ 0x5FF0 ≤ off) : regAt off = none := by
  have low : ∀ k, 14 ≤ k → lowReg k = none := fun k hk => by
    unfold lowReg
    split <;> first | omega | rfl
  unfold regAt
  split
  · exact low _ (by omega)
  · rw [dif_neg (by omega), dif_neg (by omega), dif_neg (by omega), dif_neg (by omega), dif_neg (by omega)]

end Sys2Proof.Machine
end

