-- ==== Sys2Proof/Laws/Codes.lean ====
section
/-! SUPPORT. The code of an input's own tree (R146, R147): every input byte has a codeword, and the bit-string has at most
eight bits an input byte, so that the packed output is no longer than the input (R91). -/

namespace Sys2Proof.Machine

/-! ### The frequency table of an input (R140) -/

theorem freqStep_get (input : List Byte) {d : Nat} (h : d < 256) :
    (freqStep input)[d] = input.count (BitVec.ofNat 8 d) := by
  simp [freqStep]
  congr 1
  exact BitVec.eq_of_toNat_eq (by simp; omega)

theorem freqStep_toList (input : List Byte) {d n : Nat} (h : (freqStep input).toList[d]? = some n) :
    d < 256 ∧ n = input.count (BitVec.ofNat 8 d) := by
  obtain ⟨hd, hn⟩ := List.getElem?_eq_some_iff.1 h
  rw [Vector.length_toList] at hd
  refine ⟨hd, ?_⟩
  rw [← hn, Vector.getElem_toList, freqStep_get input hd]

theorem freqStep_toList_get (input : List Byte) {d : Nat} (h : d < 256) :
    (freqStep input).toList[d]? = some (input.count (BitVec.ofNat 8 d)) := by
  rw [List.getElem?_eq_getElem (by simpa using h), Vector.getElem_toList, freqStep_get input h]

/-- Adding up a value for each byte of the input is adding it up for each distinct byte, times its count. -/
theorem sum_over_input (input : List Byte) (g : Byte → Nat) {keys : List Byte} (hk : keys.Nodup) :
    (∀ b ∈ input, b ∈ keys) → (input.map g).sum = (keys.map fun s => input.count s * g s).sum := by
  have one : ∀ (keys : List Byte), keys.Nodup → ∀ b ∈ keys, (keys.map fun s => (if b = s then 1 else 0) * g s).sum = g b := by
    intro keys hk
    simp only [ite_mul, Nat.one_mul, Nat.zero_mul]
    induction keys with
    | nil => intro b hb; simp at hb
    | cons s keys ih =>
      obtain ⟨hs, hk⟩ := List.nodup_cons.1 hk
      intro b hb
      rcases List.mem_cons.1 hb with rfl | hb
      · have : (keys.map fun s => if b = s then g s else 0).sum = 0 :=
          List.sum_eq_zero fun n hn => by
            obtain ⟨x, hx, rfl⟩ := List.mem_map.1 hn
            rw [if_neg (by rintro rfl; exact hs hx)]
        simp [this]
      · have hne : b ≠ s := fun h => hs (h ▸ hb)
        rw [List.map_cons, List.sum_cons, if_neg hne, Nat.zero_add, ih hk b hb]
  induction input with
  | nil => simp
  | cons b input ih =>
    intro h
    have h₁ := ih fun x hx => h x (List.mem_cons_of_mem _ hx)
    have h₂ := one keys hk b (h b List.mem_cons_self)
    rw [List.map_cons, List.sum_cons, h₁, ← h₂, ← List.sum_map_add]
    congr 1
    refine List.map_congr_left fun s _ => ?_
    rw [List.count_cons, ← Nat.add_mul, Nat.add_comm]
    simp only [beq_iff_eq]

/-- The table's sum is the input's length (R140). -/
theorem freqStep_sum (input : List Byte) : (freqStep input).toList.sum = input.length := by
  have hnd : ((List.range 256).map (BitVec.ofNat 8)).Nodup := by
    refine List.Nodup.map_on (fun x hx y hy h => ?_) List.nodup_range
    have := congrArg BitVec.toNat h
    simp only [List.mem_range, BitVec.toNat_ofNat] at hx hy this
    omega
  have hall : ∀ b ∈ input, b ∈ (List.range 256).map (BitVec.ofNat 8) := fun b _ =>
    List.mem_map.2 ⟨b.toNat, List.mem_range.2 b.isLt, by simp⟩
  have h := sum_over_input input (fun _ => 1) hnd hall
  rw [List.map_map] at h
  have hlist : (freqStep input).toList = (List.range 256).map fun d => input.count (BitVec.ofNat 8 d) := by
    refine List.ext_getElem (by simp) fun d h₁ h₂ => ?_
    rw [Vector.getElem_toList, freqStep_get input (by simpa using h₁)]
    simp
  rw [hlist]
  simp only [Nat.mul_one, List.map_const', List.sum_replicate, smul_eq_mul, Function.comp_def] at h
  exact h.symm

theorem freqStep_symbolCount {input : List Byte} (h : input ≠ []) : 0 < symbolCount (freqStep input).toList := by
  obtain ⟨b, bs, rfl⟩ := List.exists_cons_of_ne_nil h
  refine List.countP_pos_iff.2 ⟨(b :: bs).count b, ?_, by simp⟩
  have := freqStep_toList_get (b :: bs) b.isLt
  rw [BitVec.ofNat_toNat, BitVec.setWidth_eq] at this
  exact List.mem_of_getElem? this

theorem freqStep_nil : symbolCount (freqStep []).toList = 0 := by
  refine List.countP_eq_zero.2 fun n hn => ?_
  obtain ⟨d, hd⟩ := List.mem_iff_getElem?.1 hn
  simp [(freqStep_toList [] hd).2]

/-! ### The code table (R146) -/

theorem lookup_of_nodup {bound : List (Byte × Code)} (h : (bound.map Prod.fst).Nodup) {s : Byte} {p : Code}
    (hm : (s, p) ∈ bound) : bound.lookup s = some p := by
  induction bound with
  | nil => simp at hm
  | cons x bound ih =>
    obtain ⟨hx, hn⟩ := List.nodup_cons.1 h
    rcases List.mem_cons.1 hm with rfl | hm
    · simp
    · have : s ≠ x.1 := by rintro rfl; exact hx (List.mem_map.2 ⟨_, hm, rfl⟩)
      rw [List.lookup_cons, beq_eq_false_iff_ne.2 this]
      exact ih hn hm

theorem lookup_none {bound : List (Byte × Code)} {s : Byte} (h : s ∉ bound.map Prod.fst) :
    bound.lookup s = none := by
  induction bound with
  | nil => rfl
  | cons x bound ih =>
    rw [List.map_cons, List.mem_cons, not_or] at h
    rw [List.lookup_cons, beq_eq_false_iff_ne.2 h.1]
    exact ih h.2

theorem codeOf_codeTable (bound : List (Byte × Code)) (b : Byte) :
    codeOf (codeTable bound) b = (bound.lookup b).getD [] := by
  simp [codeOf, codeTable]

/-! ### The code of an input's own tree -/

/-- A tree over exactly the bytes of an input, weighted by how often each occurs. -/
structure TreeOf (input : List Byte) (tree : HTree) : Prop where
  nodup : (tree.leaves.map Prod.fst).Nodup
  count : ∀ x ∈ tree.leaves, input.count x.1 = x.2
  all : ∀ b ∈ input, b ∈ tree.leaves.map Prod.fst
  sound : ∀ x ∈ tree.leaves, x.1 ∈ input
  cost : tree.cost ≤ 8 * input.length

/-- BuildStep on an input's own table succeeds with such a tree (R143, R154). -/
theorem buildStep_freqStep {input : List Byte} (h : input ≠ []) :
    ∃ (t : Tree) (tree : HTree), buildStep (freqStep input).toList = some t ∧
      t.nodes.length + 1 = 2 * symbolCount (freqStep input).toList ∧ t.root + 1 = t.nodes.length ∧
      tree.Stored (t.nodes[·]?) t.root ∧ TreeOf input tree := by
  obtain ⟨t, tree, h₁, h₂, h₃, h₄, h₅, h₆⟩ := buildStep_spec (freqStep_symbolCount h) (by simp)
  have hcount : ∀ x ∈ tree.leaves, input.count x.1 = x.2 ∧ 0 < x.2 := fun x hx => by
    obtain ⟨d, hd, hx₁, hx₂, hx₃⟩ := symbolsFrom_range _ 0 x (h₅.mem_iff.1 hx)
    rw [Nat.zero_add] at hx₁
    exact ⟨by rw [hx₁, ← (freqStep_toList input hx₂).2], hx₃⟩
  refine ⟨t, tree, h₁, h₂, h₃, h₄, ?_, fun x hx => (hcount x hx).1, fun b hb => ?_, fun x hx => ?_,
    by rwa [freqStep_sum] at h₆⟩
  · exact (h₅.map Prod.fst).nodup_iff.2 (symbolsFrom_nodup _ 0 (by simp))
  · have := mem_symbolsFrom (freqStep input).toList 0 b.toNat _ (freqStep_toList_get input b.isLt)
      (List.count_pos_iff.2 (by simpa using hb))
    rw [Nat.zero_add, BitVec.ofNat_toNat, BitVec.setWidth_eq] at this
    exact List.mem_map.2 ⟨_, h₅.mem_iff.2 this, rfl⟩
  · obtain ⟨h, hpos⟩ := hcount x hx
    exact List.count_pos_iff.1 (h ▸ hpos)

theorem TreeOf.codes_nodup {input : List Byte} {tree : HTree} (h : TreeOf input tree) :
    (tree.codes.map Prod.fst).Nodup := by
  rw [tree.codes_syms]
  exact List.nodup_reverse.2 h.nodup

/-- Every input byte has a codeword (R154: HUFF cannot raise NO_CODE). -/
theorem TreeOf.codeOf_ne_nil {input : List Byte} {tree : HTree} (h : TreeOf input tree) {b : Byte} (hb : b ∈ input) :
    codeOf (codeTable tree.codes) b ≠ [] := by
  have hmem : b ∈ tree.codes.map Prod.fst := by
    rw [tree.codes_syms, List.mem_reverse]
    exact h.all b hb
  obtain ⟨x, hx, rfl⟩ := List.mem_map.1 hmem
  rw [codeOf_codeTable, lookup_of_nodup h.codes_nodup (p := x.2) hx]
  exact HTree.codes_ne_nil hx

/-- |B| ≤ 8n for an input encoded with its own code (R147). -/
theorem TreeOf.hencBits_length {input : List Byte} {tree : HTree} (h : TreeOf input tree) :
    (hencBits (codeTable tree.codes) input).length ≤ 8 * input.length := by
  have hall : ∀ b ∈ input, b ∈ tree.codes.map Prod.fst := fun b hb => by
    rw [tree.codes_syms, List.mem_reverse]
    exact h.all b hb
  rw [hencBits, List.length_flatMap,
    sum_over_input input (fun b => (codeOf (codeTable tree.codes) b).length) h.codes_nodup hall, List.map_map]
  have hcong : (tree.codes.map ((fun s => input.count s * (codeOf (codeTable tree.codes) s).length) ∘ Prod.fst)) =
      tree.codes.map fun x => input.count x.1 * x.2.length := by
    refine List.map_congr_left fun x hx => ?_
    simp only [Function.comp_apply]
    rw [codeOf_codeTable, lookup_of_nodup h.codes_nodup (p := x.2) hx]
    rfl
  rw [hcong]
  cases tree with
  | leaf s f =>
    have : input.count s ≤ input.length := List.count_le_length
    simp [HTree.codes]
    omega
  | bin l r =>
    have := (HTree.bin l r).paths_weighted (count := fun s => input.count s) [] h.count
    rw [List.length_nil, Nat.zero_mul, Nat.add_zero] at this
    rw [show (HTree.bin l r).codes = (HTree.bin l r).paths [] from rfl, this]
    exact h.cost

theorem pack_length (bits : List Bool) : (pack bits).length = (bits.length + 7) / 8 := by simp [pack]

end Sys2Proof.Machine
end

