-- ==== Sys2Proof/Laws/Encoders.lean ====
section
/-! SUPPORT. How long the encoders' outputs are (R10, R202, R222, R244, R249): what R91 rests on for RLE, Delta and LZ77. -/

namespace Sys2Proof.Machine

/-! ### Decimal text (R10) -/

theorem dec_lt_ten {v : Nat} (h : v < 10) : dec v = [digitByte v] := by
  unfold dec
  cases v with
  | zero => rfl
  | succ v => rw [decDigits, if_pos h]

/-- More fuel than a number has digits does not change its text. -/
theorem decDigits_fuel : ∀ {fuel v : Nat}, v ≤ fuel → decDigits (fuel + 1) v = decDigits fuel v := by
  intro fuel
  induction fuel with
  | zero =>
    intro v hv
    obtain rfl : v = 0 := by omega
    rfl
  | succ fuel ih =>
    intro v hv
    show (if v < 10 then _ else decDigits (fuel + 1) (v / 10) ++ _) =
      if v < 10 then _ else decDigits fuel (v / 10) ++ _
    rw [ih (by omega)]

theorem decDigits_eq_dec {fuel v : Nat} (h : v ≤ fuel) : decDigits fuel v = dec v := by
  induction fuel with
  | zero =>
    obtain rfl : v = 0 := by omega
    rfl
  | succ fuel ih =>
    rcases Nat.lt_or_ge fuel v with hv | hv
    · obtain rfl : v = fuel + 1 := by omega
      rfl
    · rw [decDigits_fuel hv, ih hv]

/-- The text of a number of two or more digits: the text of its tens, then its last digit (R10). -/
theorem dec_ge_ten {v : Nat} (h : 10 ≤ v) : dec v = dec (v / 10) ++ [digitByte (v % 10)] := by
  obtain ⟨w, rfl⟩ : ∃ w, v = w + 1 := ⟨v - 1, by omega⟩
  conv_lhs => rw [dec, decDigits, if_neg (by omega)]
  rw [decDigits_eq_dec (by omega)]

theorem dec_length_pos (v : Nat) : 0 < (dec v).length := by
  rcases Nat.lt_or_ge v 10 with h | h
  · simp [dec_lt_ten h]
  · simp [dec_ge_ten h]

/-- A positive number has at most as many digits as it counts (R202). -/
theorem dec_length_le : ∀ {v : Nat}, 0 < v → (dec v).length ≤ v := by
  intro v
  induction v using Nat.strong_induction_on with
  | _ v ih =>
    intro hv
    rcases Nat.lt_or_ge v 10 with h | h
    · rw [dec_lt_ten h, List.length_singleton]
      exact hv
    · have := ih (v / 10) (by omega) (by omega)
      rw [dec_ge_ten h, List.length_append, List.length_singleton]
      omega

theorem dec_length_lt_hundred {v : Nat} (h : v < 100) : (dec v).length ≤ 2 := by
  rcases Nat.lt_or_ge v 10 with h₁ | h₁
  · simp [dec_lt_ten h₁]
  · simp [dec_ge_ten h₁, dec_lt_ten (show v / 10 < 10 by omega)]

theorem dec_length_lt_thousand {v : Nat} (h : v < 1000) : (dec v).length ≤ 3 := by
  rcases Nat.lt_or_ge v 10 with h₁ | h₁
  · simp [dec_lt_ten h₁]
  · have := dec_length_lt_hundred (show v / 10 < 100 by omega)
    rw [dec_ge_ten h₁, List.length_append, List.length_singleton]
    omega

/-! ### RLE (R202) -/

theorem rlePair_length_le (run : Byte) {cnt : Nat} (h : 0 < cnt) : (rlePair run cnt).length ≤ 2 * cnt := by
  have := dec_length_le h
  rw [rlePair, List.length_append, List.length_singleton]
  omega

theorem rleScan_length_le (bs : List Byte) : ∀ (run : Byte) (cnt : Nat), 0 < cnt →
    (rleScan run cnt bs).length ≤ 2 * (cnt + bs.length) := by
  induction bs with
  | nil => exact fun run cnt h => rlePair_length_le run h
  | cons b bs ih =>
    intro run cnt h
    unfold rleScan
    split
    · have := ih run (cnt + 1) (by omega)
      rw [List.length_cons]
      omega
    · have h₁ := ih b 1 (by omega)
      have h₂ := rlePair_length_le run h
      rw [List.length_append, List.length_cons]
      omega

theorem rleStep_length_le (input : List Byte) : (rleStep input).length ≤ 2 * input.length := by
  cases input with
  | nil => simp [rleStep]
  | cons b bs =>
    have := rleScan_length_le bs b 1 (by omega)
    rw [rleStep, List.length_cons]
    omega

/-! ### Delta (R222) -/

theorem deltaFrom_length (bs : List Byte) : ∀ prev, (deltaFrom prev bs).length = bs.length := by
  induction bs with
  | nil => exact fun _ => rfl
  | cons b bs ih => exact fun prev => by simp [deltaFrom, ih]

theorem deltaStep_length_eq (input : List Byte) : (deltaStep input).length = input.length := by
  cases input with
  | nil => rfl
  | cons b bs => simp [deltaStep, deltaFrom_length]

/-! ### LZ77 (R241 to R249) -/

theorem commonRun_le (cap : Nat) : ∀ xs ys : List Byte,
    commonRun cap xs ys ≤ cap ∧ commonRun cap xs ys ≤ ys.length := by
  induction cap with
  | zero => exact fun xs ys => by simp [commonRun]
  | succ cap ih =>
    intro xs ys
    match xs, ys with
    | [], _ => simp [commonRun]
    | _ :: _, [] => simp [commonRun]
    | x :: xs, y :: ys =>
      have := ih xs ys
      rw [commonRun, List.length_cons]
      split <;> omega

/-- len ≤ min(LOOKAHEAD, n − pos) (R241). -/
theorem matchLen_le (input : List Byte) (i pos : Nat) :
    matchLen input i pos ≤ 15 ∧ matchLen input i pos ≤ input.length - pos := by
  have := commonRun_le lzLookahead (input.drop i) (input.drop pos)
  rw [List.length_drop] at this
  exact this

/-- FindBest answers no match, or one that lies in the window and has the length of the match there (R242, R249). -/
theorem findBest_spec (input : List Byte) (pos : Nat) :
    findBest input pos = (0, 0) ∨ ∃ i, pos - lzWindow ≤ i ∧ i < pos ∧
      findBest input pos = (pos - i, matchLen input i pos) := by
  have fold : ∀ (is : List Nat) (best : Nat × Nat),
      is.foldl (betterMatch input pos) best = best ∨
        ∃ i ∈ is, is.foldl (betterMatch input pos) best = (pos - i, matchLen input i pos) := by
    intro is
    induction is with
    | nil => exact fun best => .inl rfl
    | cons i is ih =>
      intro best
      rw [List.foldl_cons]
      rcases ih (betterMatch input pos best i) with h | ⟨j, hj, h⟩
      · rw [h]
        unfold betterMatch
        split
        · exact .inr ⟨i, List.mem_cons_self, rfl⟩
        · exact .inl rfl
      · exact .inr ⟨j, List.mem_cons_of_mem _ hj, h⟩
  rcases fold (List.range' (pos - lzWindow) (pos - (pos - lzWindow))) (0, 0) with h | ⟨i, hi, h⟩
  · exact .inl h
  · obtain ⟨h₁, h₂⟩ := List.mem_range'_1.1 hi
    exact .inr ⟨i, h₁, by omega, h⟩

/-- A match found lies in the ranges of R249. -/
theorem findBest_range (input : List Byte) (pos : Nat) (h : 0 < (findBest input pos).2) :
    1 ≤ (findBest input pos).1 ∧ (findBest input pos).1 ≤ 255 ∧ (findBest input pos).2 ≤ 15 ∧
      pos + (findBest input pos).2 ≤ input.length := by
  rcases findBest_spec input pos with h₀ | ⟨i, h₁, h₂, h₃⟩
  · rw [h₀] at h
    simp at h
  · have := matchLen_le input i pos
    rw [h₃] at h ⊢
    simp only [lzWindow] at h₁
    dsimp only at h ⊢
    omega

theorem lzToken_length_le {off len : Nat} (h₁ : off ≤ 255) (h₂ : len ≤ 15) : (lzToken off len).length ≤ 8 := by
  have := dec_length_lt_thousand (show off < 1000 by omega)
  have := dec_length_lt_hundred (show len < 100 by omega)
  simp only [lzToken, List.length_append, List.length_singleton]
  omega

/-- At most eight output bytes for three input bytes (R244). -/
theorem lzFrom_length_le (input : List Byte) : ∀ fuel pos, pos ≤ input.length →
    3 * (lzFrom input fuel pos).length ≤ 8 * (input.length - pos) := by
  intro fuel
  induction fuel with
  | zero => exact fun pos _ => by simp [lzFrom]
  | succ fuel ih =>
    intro pos hpos
    unfold lzFrom
    split
    · simp
    · next b hb =>
      have hlt := (List.getElem?_eq_some_iff.1 hb).1
      dsimp only
      split
      · next hm =>
        simp only [lzMinMatch] at hm
        have hr := findBest_range input pos (by omega)
        have := lzToken_length_le hr.2.1 hr.2.2.1
        have := ih (pos + (findBest input pos).2) (by omega)
        rw [List.length_append]
        omega
      · have := ih (pos + 1) (by omega)
        rw [List.length_cons]
        omega

theorem lzStep_length_le (input : List Byte) : 3 * (lzStep input).length ≤ 8 * input.length :=
  lzFrom_length_le input _ 0 (Nat.zero_le _)

end Sys2Proof.Machine
end

