-- ==== Sys2Proof/Laws/Memory.lean ====
section
/-! SUPPORT. The laws of bytes by index: a read after a write, and the canonical form, which every operation keeps. -/

namespace Sys2Proof.Machine

theorem read_write_same (m : Memory) (a : Nat) (v : Byte) : (m.write a v).read a = some v := by
  induction m with
  | nil => simp [Memory.write, Memory.read]
  | cons x m ih =>
    obtain ⟨k, w⟩ := x
    unfold Memory.write
    split
    · simp [Memory.read]
    · split
      · simp [Memory.read]
      · simp [Memory.read, *]

theorem read_write_other (m : Memory) {a b : Nat} (v : Byte) (h : b ≠ a) :
    (m.write a v).read b = m.read b := by
  induction m with
  | nil => simp [Memory.write, Memory.read, h.symm]
  | cons x m ih =>
    obtain ⟨k, w⟩ := x
    unfold Memory.write
    split
    · simp [Memory.read, h.symm]
    · split
      · subst_vars
        simp [Memory.read, h.symm]
      · simp [Memory.read, ih]

/-- Writing a byte and reading one, as one rule. -/
theorem read_write (m : Memory) (a b : Nat) (v : Byte) :
    (m.write a v).read b = if b = a then some v else m.read b := by
  split
  · subst_vars
    exact read_write_same m _ v
  · exact read_write_other m v ‹_›

/-- The cells after a write are the written one and old ones. -/
theorem mem_write {m : Memory} {a : Nat} {v : Byte} {x : Host.Cell} (h : x ∈ m.write a v) :
    x = (a, v) ∨ x ∈ m := by
  induction m with
  | nil => simpa [Memory.write] using h
  | cons y m ih =>
    obtain ⟨k, w⟩ := y
    unfold Memory.write at h
    split at h
    · simpa using h
    · split at h
      · rcases List.mem_cons.1 h with rfl | h
        · exact .inl rfl
        · exact .inr (List.mem_cons_of_mem _ h)
      · rcases List.mem_cons.1 h with rfl | h
        · exact .inr List.mem_cons_self
        · exact (ih h).imp_right (List.mem_cons_of_mem _)

theorem write_wf {m : Memory} (h : m.wf) (a : Nat) (v : Byte) : (m.write a v).wf := by
  induction m with
  | nil => simp [Memory.write, Memory.wf]
  | cons y m ih =>
    obtain ⟨k, w⟩ := y
    obtain ⟨h₁, h₂⟩ := List.pairwise_cons.1 h
    unfold Memory.write
    split
    · next hlt =>
      refine List.pairwise_cons.2 ⟨fun x hx => ?_, h⟩
      rcases List.mem_cons.1 hx with rfl | hx
      · exact hlt
      · exact lt_trans hlt (h₁ x hx)
    · split
      · next heq =>
        subst heq
        exact List.pairwise_cons.2 ⟨h₁, h₂⟩
      · next hlt hne =>
        refine List.pairwise_cons.2 ⟨fun x hx => ?_, ih h₂⟩
        rcases mem_write hx with rfl | hx
        · show k < a
          omega
        · exact h₁ x hx

theorem writeBytes_wf (bs : List Byte) : ∀ {m : Memory} (_ : m.wf) (a : Nat), (m.writeBytes a bs).wf := by
  induction bs with
  | nil => exact fun h _ => h
  | cons b bs ih => exact fun h a => ih (write_wf h a b) (a + 1)

/-- The cells after writing a list of bytes: old ones, and ones inside the written range. -/
theorem mem_writeBytes {x : Host.Cell} (bs : List Byte) :
    ∀ {m : Memory} {a : Nat}, x ∈ m.writeBytes a bs → (a ≤ x.1 ∧ x.1 < a + bs.length) ∨ x ∈ m := by
  induction bs with
  | nil => exact fun h => .inr h
  | cons b bs ih =>
    intro m a h
    rcases ih h with h | h
    · simp only [List.length_cons]
      omega
    · rcases mem_write h with rfl | h
      · simp
      · exact .inr h

/-- Reading after writing a list of bytes: the written byte inside the range, the old one outside. -/
theorem read_writeBytes (bs : List Byte) : ∀ (m : Memory) (a j : Nat),
    (m.writeBytes a bs).read j = if a ≤ j ∧ j < a + bs.length then bs[j - a]? else m.read j := by
  induction bs with
  | nil =>
    intro m a j
    simp only [Memory.writeBytes, List.length_nil, Nat.add_zero]
    split
    · omega
    · rfl
  | cons b bs ih =>
    intro m a j
    rw [Memory.writeBytes, ih, read_write]
    simp only [List.length_cons]
    by_cases h₁ : j = a
    · subst h₁
      simp
    · by_cases h₂ : a + 1 ≤ j ∧ j < a + 1 + bs.length
      · rw [if_pos h₂, if_pos (by omega)]
        obtain ⟨d, rfl⟩ : ∃ d, j = a + 1 + d := ⟨j - (a + 1), by omega⟩
        rw [show a + 1 + d - (a + 1) = d by omega, show a + 1 + d - a = d + 1 by omega, List.getElem?_cons_succ]
      · rw [if_neg h₂, if_neg h₁, if_neg (by omega)]

theorem nil_wf : Memory.wf [] := List.Pairwise.nil

end Sys2Proof.Machine
end

