-- ==== Sys2Proof/Laws/State.lean ====
section
/-! SUPPORT. What each named update leaves in each field of State, one lemma a field, so that no proof unfolds a record
update. The lemmas are grouped by update; every one is true by definition. -/

namespace Sys2Proof.Machine

/-! ### accept -/

@[simp] theorem accept_maxLen (w : Word) (s : State) : (accept w s).maxLen = s.maxLen := rfl
@[simp] theorem accept_ie (w : Word) (s : State) : (accept w s).ie = s.ie := rfl
@[simp] theorem accept_latched (w : Word) (s : State) : (accept w s).latched = some w := rfl
@[simp] theorem accept_done (w : Word) (s : State) : (accept w s).done = false := rfl
@[simp] theorem accept_err (w : Word) (s : State) : (accept w s).err = none := rfl
@[simp] theorem accept_ovr (w : Word) (s : State) : (accept w s).ovr = s.ovr := rfl
@[simp] theorem accept_empty (w : Word) (s : State) : (accept w s).empty = false := rfl
@[simp] theorem accept_freqValid (w : Word) (s : State) : (accept w s).freqValid = s.freqValid := rfl
@[simp] theorem accept_treeValid (w : Word) (s : State) : (accept w s).treeValid = s.treeValid := rfl
@[simp] theorem accept_codeValid (w : Word) (s : State) : (accept w s).codeValid = s.codeValid := rfl
@[simp] theorem accept_len (w : Word) (s : State) : (accept w s).len = s.len := rfl
@[simp] theorem accept_nsym (w : Word) (s : State) : (accept w s).nsym = s.nsym := rfl
@[simp] theorem accept_nnodes (w : Word) (s : State) : (accept w s).nnodes = s.nnodes := rfl
@[simp] theorem accept_root (w : Word) (s : State) : (accept w s).root = s.root := rfl
@[simp] theorem accept_outAlg (w : Word) (s : State) : (accept w s).outAlg = s.outAlg := rfl
@[simp] theorem accept_outBytes (w : Word) (s : State) : (accept w s).outBytes = s.outBytes := rfl
@[simp] theorem accept_outBits (w : Word) (s : State) : (accept w s).outBits = s.outBits := rfl
@[simp] theorem accept_ratioNum (w : Word) (s : State) : (accept w s).ratioNum = s.ratioNum := rfl
@[simp] theorem accept_ratioDen (w : Word) (s : State) : (accept w s).ratioDen = s.ratioDen := rfl
@[simp] theorem accept_res (w : Word) (s : State) : (accept w s).res = s.res := rfl
@[simp] theorem accept_freq (w : Word) (s : State) : (accept w s).freq = s.freq := rfl
@[simp] theorem accept_code (w : Word) (s : State) : (accept w s).code = s.code := rfl
@[simp] theorem accept_node (w : Word) (s : State) : (accept w s).node = s.node := rfl
@[simp] theorem accept_ibuf (w : Word) (s : State) : (accept w s).ibuf = s.ibuf := rfl
@[simp] theorem accept_obuf (w : Word) (s : State) : (accept w s).obuf = s.obuf := rfl
@[simp] theorem accept_ibufFill (w : Word) (s : State) : (accept w s).ibufFill = s.ibufFill := rfl
@[simp] theorem accept_outFill (w : Word) (s : State) : (accept w s).outFill = s.outFill := rfl
@[simp] theorem accept_draws (w : Word) (s : State) : (accept w s).draws = s.draws := rfl
@[simp] theorem accept_host (w : Word) (s : State) : (accept w s).host = s.host := rfl
@[simp] theorem accept_reads (w : Word) (s : State) : (accept w s).reads = s.reads := rfl
@[simp] theorem accept_hostFaults (w : Word) (s : State) : (accept w s).hostFaults = s.hostFaults := rfl
@[simp] theorem accept_turns (w : Word) (s : State) : (accept w s).turns = s.turns := rfl
@[simp] theorem accept_busy (w : Word) (s : State) : (accept w s).busy = true := rfl

/-! ### completeOk -/

@[simp] theorem completeOk_maxLen (b : Bool) (s : State) : (completeOk b s).maxLen = s.maxLen := rfl
@[simp] theorem completeOk_ie (b : Bool) (s : State) : (completeOk b s).ie = s.ie := rfl
@[simp] theorem completeOk_latched (b : Bool) (s : State) : (completeOk b s).latched = none := rfl
@[simp] theorem completeOk_done (b : Bool) (s : State) : (completeOk b s).done = true := rfl
@[simp] theorem completeOk_err (b : Bool) (s : State) : (completeOk b s).err = s.err := rfl
@[simp] theorem completeOk_ovr (b : Bool) (s : State) : (completeOk b s).ovr = s.ovr := rfl
@[simp] theorem completeOk_empty (b : Bool) (s : State) : (completeOk b s).empty = b := rfl
@[simp] theorem completeOk_freqValid (b : Bool) (s : State) : (completeOk b s).freqValid = s.freqValid := rfl
@[simp] theorem completeOk_treeValid (b : Bool) (s : State) : (completeOk b s).treeValid = s.treeValid := rfl
@[simp] theorem completeOk_codeValid (b : Bool) (s : State) : (completeOk b s).codeValid = s.codeValid := rfl
@[simp] theorem completeOk_len (b : Bool) (s : State) : (completeOk b s).len = s.len := rfl
@[simp] theorem completeOk_nsym (b : Bool) (s : State) : (completeOk b s).nsym = s.nsym := rfl
@[simp] theorem completeOk_nnodes (b : Bool) (s : State) : (completeOk b s).nnodes = s.nnodes := rfl
@[simp] theorem completeOk_root (b : Bool) (s : State) : (completeOk b s).root = s.root := rfl
@[simp] theorem completeOk_outAlg (b : Bool) (s : State) : (completeOk b s).outAlg = s.outAlg := rfl
@[simp] theorem completeOk_outBytes (b : Bool) (s : State) : (completeOk b s).outBytes = s.outBytes := rfl
@[simp] theorem completeOk_outBits (b : Bool) (s : State) : (completeOk b s).outBits = s.outBits := rfl
@[simp] theorem completeOk_ratioNum (b : Bool) (s : State) : (completeOk b s).ratioNum = s.ratioNum := rfl
@[simp] theorem completeOk_ratioDen (b : Bool) (s : State) : (completeOk b s).ratioDen = s.ratioDen := rfl
@[simp] theorem completeOk_res (b : Bool) (s : State) : (completeOk b s).res = s.res := rfl
@[simp] theorem completeOk_freq (b : Bool) (s : State) : (completeOk b s).freq = s.freq := rfl
@[simp] theorem completeOk_code (b : Bool) (s : State) : (completeOk b s).code = s.code := rfl
@[simp] theorem completeOk_node (b : Bool) (s : State) : (completeOk b s).node = s.node := rfl
@[simp] theorem completeOk_ibuf (b : Bool) (s : State) : (completeOk b s).ibuf = s.ibuf := rfl
@[simp] theorem completeOk_obuf (b : Bool) (s : State) : (completeOk b s).obuf = s.obuf := rfl
@[simp] theorem completeOk_ibufFill (b : Bool) (s : State) : (completeOk b s).ibufFill = s.ibufFill := rfl
@[simp] theorem completeOk_outFill (b : Bool) (s : State) : (completeOk b s).outFill = s.outFill := rfl
@[simp] theorem completeOk_draws (b : Bool) (s : State) : (completeOk b s).draws = s.draws := rfl
@[simp] theorem completeOk_host (b : Bool) (s : State) : (completeOk b s).host = s.host := rfl
@[simp] theorem completeOk_reads (b : Bool) (s : State) : (completeOk b s).reads = s.reads := rfl
@[simp] theorem completeOk_hostFaults (b : Bool) (s : State) : (completeOk b s).hostFaults = s.hostFaults := rfl
@[simp] theorem completeOk_turns (b : Bool) (s : State) : (completeOk b s).turns = s.turns := rfl
@[simp] theorem completeOk_busy (b : Bool) (s : State) : (completeOk b s).busy = false := rfl

/-! ### completeError -/

@[simp] theorem completeError_maxLen (e : CmdError) (s : State) : (completeError e s).maxLen = s.maxLen := rfl
@[simp] theorem completeError_ie (e : CmdError) (s : State) : (completeError e s).ie = s.ie := rfl
@[simp] theorem completeError_latched (e : CmdError) (s : State) : (completeError e s).latched = none := rfl
@[simp] theorem completeError_done (e : CmdError) (s : State) : (completeError e s).done = true := rfl
@[simp] theorem completeError_err (e : CmdError) (s : State) : (completeError e s).err = some e := rfl
@[simp] theorem completeError_ovr (e : CmdError) (s : State) : (completeError e s).ovr = s.ovr := rfl
@[simp] theorem completeError_empty (e : CmdError) (s : State) : (completeError e s).empty = s.empty := rfl
@[simp] theorem completeError_freqValid (e : CmdError) (s : State) : (completeError e s).freqValid = s.freqValid := rfl
@[simp] theorem completeError_treeValid (e : CmdError) (s : State) : (completeError e s).treeValid = s.treeValid := rfl
@[simp] theorem completeError_codeValid (e : CmdError) (s : State) : (completeError e s).codeValid = s.codeValid := rfl
@[simp] theorem completeError_len (e : CmdError) (s : State) : (completeError e s).len = s.len := rfl
@[simp] theorem completeError_nsym (e : CmdError) (s : State) : (completeError e s).nsym = s.nsym := rfl
@[simp] theorem completeError_nnodes (e : CmdError) (s : State) : (completeError e s).nnodes = s.nnodes := rfl
@[simp] theorem completeError_root (e : CmdError) (s : State) : (completeError e s).root = s.root := rfl
@[simp] theorem completeError_outAlg (e : CmdError) (s : State) : (completeError e s).outAlg = s.outAlg := rfl
@[simp] theorem completeError_outBytes (e : CmdError) (s : State) : (completeError e s).outBytes = s.outBytes := rfl
@[simp] theorem completeError_outBits (e : CmdError) (s : State) : (completeError e s).outBits = s.outBits := rfl
@[simp] theorem completeError_ratioNum (e : CmdError) (s : State) : (completeError e s).ratioNum = s.ratioNum := rfl
@[simp] theorem completeError_ratioDen (e : CmdError) (s : State) : (completeError e s).ratioDen = s.ratioDen := rfl
@[simp] theorem completeError_res (e : CmdError) (s : State) : (completeError e s).res = s.res := rfl
@[simp] theorem completeError_freq (e : CmdError) (s : State) : (completeError e s).freq = s.freq := rfl
@[simp] theorem completeError_code (e : CmdError) (s : State) : (completeError e s).code = s.code := rfl
@[simp] theorem completeError_node (e : CmdError) (s : State) : (completeError e s).node = s.node := rfl
@[simp] theorem completeError_ibuf (e : CmdError) (s : State) : (completeError e s).ibuf = s.ibuf := rfl
@[simp] theorem completeError_obuf (e : CmdError) (s : State) : (completeError e s).obuf = s.obuf := rfl
@[simp] theorem completeError_ibufFill (e : CmdError) (s : State) : (completeError e s).ibufFill = s.ibufFill := rfl
@[simp] theorem completeError_outFill (e : CmdError) (s : State) : (completeError e s).outFill = s.outFill := rfl
@[simp] theorem completeError_draws (e : CmdError) (s : State) : (completeError e s).draws = s.draws := rfl
@[simp] theorem completeError_host (e : CmdError) (s : State) : (completeError e s).host = s.host := rfl
@[simp] theorem completeError_reads (e : CmdError) (s : State) : (completeError e s).reads = s.reads := rfl
@[simp] theorem completeError_hostFaults (e : CmdError) (s : State) : (completeError e s).hostFaults = s.hostFaults := rfl
@[simp] theorem completeError_turns (e : CmdError) (s : State) : (completeError e s).turns = s.turns := rfl
@[simp] theorem completeError_busy (e : CmdError) (s : State) : (completeError e s).busy = false := rfl

/-! ### publishWrites -/

@[simp] theorem publishWrites_maxLen (a : Alg) (out : List Byte) (bits n : Nat) (s : State) : (publishWrites a out bits n s).maxLen = s.maxLen := rfl
@[simp] theorem publishWrites_ie (a : Alg) (out : List Byte) (bits n : Nat) (s : State) : (publishWrites a out bits n s).ie = s.ie := rfl
@[simp] theorem publishWrites_latched (a : Alg) (out : List Byte) (bits n : Nat) (s : State) : (publishWrites a out bits n s).latched = s.latched := rfl
@[simp] theorem publishWrites_done (a : Alg) (out : List Byte) (bits n : Nat) (s : State) : (publishWrites a out bits n s).done = s.done := rfl
@[simp] theorem publishWrites_err (a : Alg) (out : List Byte) (bits n : Nat) (s : State) : (publishWrites a out bits n s).err = s.err := rfl
@[simp] theorem publishWrites_ovr (a : Alg) (out : List Byte) (bits n : Nat) (s : State) : (publishWrites a out bits n s).ovr = s.ovr := rfl
@[simp] theorem publishWrites_empty (a : Alg) (out : List Byte) (bits n : Nat) (s : State) : (publishWrites a out bits n s).empty = s.empty := rfl
@[simp] theorem publishWrites_freqValid (a : Alg) (out : List Byte) (bits n : Nat) (s : State) : (publishWrites a out bits n s).freqValid = s.freqValid := rfl
@[simp] theorem publishWrites_treeValid (a : Alg) (out : List Byte) (bits n : Nat) (s : State) : (publishWrites a out bits n s).treeValid = s.treeValid := rfl
@[simp] theorem publishWrites_codeValid (a : Alg) (out : List Byte) (bits n : Nat) (s : State) : (publishWrites a out bits n s).codeValid = s.codeValid := rfl
@[simp] theorem publishWrites_len (a : Alg) (out : List Byte) (bits n : Nat) (s : State) : (publishWrites a out bits n s).len = s.len := rfl
@[simp] theorem publishWrites_nsym (a : Alg) (out : List Byte) (bits n : Nat) (s : State) : (publishWrites a out bits n s).nsym = s.nsym := rfl
@[simp] theorem publishWrites_nnodes (a : Alg) (out : List Byte) (bits n : Nat) (s : State) : (publishWrites a out bits n s).nnodes = s.nnodes := rfl
@[simp] theorem publishWrites_root (a : Alg) (out : List Byte) (bits n : Nat) (s : State) : (publishWrites a out bits n s).root = s.root := rfl
@[simp] theorem publishWrites_outAlg (a : Alg) (out : List Byte) (bits n : Nat) (s : State) : (publishWrites a out bits n s).outAlg = some a := rfl
@[simp] theorem publishWrites_outBytes (a : Alg) (out : List Byte) (bits n : Nat) (s : State) : (publishWrites a out bits n s).outBytes = BitVec.ofNat 32 out.length := rfl
@[simp] theorem publishWrites_outBits (a : Alg) (out : List Byte) (bits n : Nat) (s : State) : (publishWrites a out bits n s).outBits = BitVec.ofNat 32 bits := rfl
@[simp] theorem publishWrites_ratioNum (a : Alg) (out : List Byte) (bits n : Nat) (s : State) : (publishWrites a out bits n s).ratioNum = BitVec.ofInt 32 (ratio bits n).1 := rfl
@[simp] theorem publishWrites_ratioDen (a : Alg) (out : List Byte) (bits n : Nat) (s : State) : (publishWrites a out bits n s).ratioDen = BitVec.ofNat 32 (ratio bits n).2 := rfl
@[simp] theorem publishWrites_res (a : Alg) (out : List Byte) (bits n : Nat) (s : State) : (publishWrites a out bits n s).res = s.res.set (algId a) (resultRecord a bits n) (algId a).isLt := rfl
@[simp] theorem publishWrites_freq (a : Alg) (out : List Byte) (bits n : Nat) (s : State) : (publishWrites a out bits n s).freq = s.freq := rfl
@[simp] theorem publishWrites_code (a : Alg) (out : List Byte) (bits n : Nat) (s : State) : (publishWrites a out bits n s).code = s.code := rfl
@[simp] theorem publishWrites_node (a : Alg) (out : List Byte) (bits n : Nat) (s : State) : (publishWrites a out bits n s).node = s.node := rfl
@[simp] theorem publishWrites_ibuf (a : Alg) (out : List Byte) (bits n : Nat) (s : State) : (publishWrites a out bits n s).ibuf = s.ibuf := rfl
@[simp] theorem publishWrites_obuf (a : Alg) (out : List Byte) (bits n : Nat) (s : State) : (publishWrites a out bits n s).obuf = s.obuf.writeBytes 0 out := rfl
@[simp] theorem publishWrites_ibufFill (a : Alg) (out : List Byte) (bits n : Nat) (s : State) : (publishWrites a out bits n s).ibufFill = s.ibufFill := rfl
@[simp] theorem publishWrites_outFill (a : Alg) (out : List Byte) (bits n : Nat) (s : State) : (publishWrites a out bits n s).outFill = s.outFill := rfl
@[simp] theorem publishWrites_draws (a : Alg) (out : List Byte) (bits n : Nat) (s : State) : (publishWrites a out bits n s).draws = s.draws := rfl
@[simp] theorem publishWrites_host (a : Alg) (out : List Byte) (bits n : Nat) (s : State) : (publishWrites a out bits n s).host = s.host := rfl
@[simp] theorem publishWrites_reads (a : Alg) (out : List Byte) (bits n : Nat) (s : State) : (publishWrites a out bits n s).reads = s.reads := rfl
@[simp] theorem publishWrites_hostFaults (a : Alg) (out : List Byte) (bits n : Nat) (s : State) : (publishWrites a out bits n s).hostFaults = s.hostFaults := rfl
@[simp] theorem publishWrites_turns (a : Alg) (out : List Byte) (bits n : Nat) (s : State) : (publishWrites a out bits n s).turns = s.turns := rfl
@[simp] theorem publishWrites_busy (a : Alg) (out : List Byte) (bits n : Nat) (s : State) : (publishWrites a out bits n s).busy = s.busy := rfl

/-! ### setFreq -/

@[simp] theorem setFreq_maxLen (f : Vector Nat 256) (s : State) : (setFreq f s).maxLen = s.maxLen := rfl
@[simp] theorem setFreq_ie (f : Vector Nat 256) (s : State) : (setFreq f s).ie = s.ie := rfl
@[simp] theorem setFreq_latched (f : Vector Nat 256) (s : State) : (setFreq f s).latched = s.latched := rfl
@[simp] theorem setFreq_done (f : Vector Nat 256) (s : State) : (setFreq f s).done = s.done := rfl
@[simp] theorem setFreq_err (f : Vector Nat 256) (s : State) : (setFreq f s).err = s.err := rfl
@[simp] theorem setFreq_ovr (f : Vector Nat 256) (s : State) : (setFreq f s).ovr = s.ovr := rfl
@[simp] theorem setFreq_empty (f : Vector Nat 256) (s : State) : (setFreq f s).empty = s.empty := rfl
@[simp] theorem setFreq_freqValid (f : Vector Nat 256) (s : State) : (setFreq f s).freqValid = true := rfl
@[simp] theorem setFreq_treeValid (f : Vector Nat 256) (s : State) : (setFreq f s).treeValid = false := rfl
@[simp] theorem setFreq_codeValid (f : Vector Nat 256) (s : State) : (setFreq f s).codeValid = false := rfl
@[simp] theorem setFreq_len (f : Vector Nat 256) (s : State) : (setFreq f s).len = s.len := rfl
@[simp] theorem setFreq_nsym (f : Vector Nat 256) (s : State) : (setFreq f s).nsym = BitVec.ofNat 9 (symbolCount f.toList) := rfl
@[simp] theorem setFreq_nnodes (f : Vector Nat 256) (s : State) : (setFreq f s).nnodes = s.nnodes := rfl
@[simp] theorem setFreq_root (f : Vector Nat 256) (s : State) : (setFreq f s).root = s.root := rfl
@[simp] theorem setFreq_outAlg (f : Vector Nat 256) (s : State) : (setFreq f s).outAlg = s.outAlg := rfl
@[simp] theorem setFreq_outBytes (f : Vector Nat 256) (s : State) : (setFreq f s).outBytes = s.outBytes := rfl
@[simp] theorem setFreq_outBits (f : Vector Nat 256) (s : State) : (setFreq f s).outBits = s.outBits := rfl
@[simp] theorem setFreq_ratioNum (f : Vector Nat 256) (s : State) : (setFreq f s).ratioNum = s.ratioNum := rfl
@[simp] theorem setFreq_ratioDen (f : Vector Nat 256) (s : State) : (setFreq f s).ratioDen = s.ratioDen := rfl
@[simp] theorem setFreq_res (f : Vector Nat 256) (s : State) : (setFreq f s).res = s.res := rfl
@[simp] theorem setFreq_freq (f : Vector Nat 256) (s : State) : (setFreq f s).freq = f.map (BitVec.ofNat 32) := rfl
@[simp] theorem setFreq_code (f : Vector Nat 256) (s : State) : (setFreq f s).code = s.code := rfl
@[simp] theorem setFreq_node (f : Vector Nat 256) (s : State) : (setFreq f s).node = s.node := rfl
@[simp] theorem setFreq_ibuf (f : Vector Nat 256) (s : State) : (setFreq f s).ibuf = s.ibuf := rfl
@[simp] theorem setFreq_obuf (f : Vector Nat 256) (s : State) : (setFreq f s).obuf = s.obuf := rfl
@[simp] theorem setFreq_ibufFill (f : Vector Nat 256) (s : State) : (setFreq f s).ibufFill = s.ibufFill := rfl
@[simp] theorem setFreq_outFill (f : Vector Nat 256) (s : State) : (setFreq f s).outFill = s.outFill := rfl
@[simp] theorem setFreq_draws (f : Vector Nat 256) (s : State) : (setFreq f s).draws = s.draws := rfl
@[simp] theorem setFreq_host (f : Vector Nat 256) (s : State) : (setFreq f s).host = s.host := rfl
@[simp] theorem setFreq_reads (f : Vector Nat 256) (s : State) : (setFreq f s).reads = s.reads := rfl
@[simp] theorem setFreq_hostFaults (f : Vector Nat 256) (s : State) : (setFreq f s).hostFaults = s.hostFaults := rfl
@[simp] theorem setFreq_turns (f : Vector Nat 256) (s : State) : (setFreq f s).turns = s.turns := rfl
@[simp] theorem setFreq_busy (f : Vector Nat 256) (s : State) : (setFreq f s).busy = s.busy := rfl

/-! ### setTree -/

@[simp] theorem setTree_maxLen (t : Tree) (s : State) : (setTree t s).maxLen = s.maxLen := rfl
@[simp] theorem setTree_ie (t : Tree) (s : State) : (setTree t s).ie = s.ie := rfl
@[simp] theorem setTree_latched (t : Tree) (s : State) : (setTree t s).latched = s.latched := rfl
@[simp] theorem setTree_done (t : Tree) (s : State) : (setTree t s).done = s.done := rfl
@[simp] theorem setTree_err (t : Tree) (s : State) : (setTree t s).err = s.err := rfl
@[simp] theorem setTree_ovr (t : Tree) (s : State) : (setTree t s).ovr = s.ovr := rfl
@[simp] theorem setTree_empty (t : Tree) (s : State) : (setTree t s).empty = s.empty := rfl
@[simp] theorem setTree_freqValid (t : Tree) (s : State) : (setTree t s).freqValid = s.freqValid := rfl
@[simp] theorem setTree_treeValid (t : Tree) (s : State) : (setTree t s).treeValid = true := rfl
@[simp] theorem setTree_codeValid (t : Tree) (s : State) : (setTree t s).codeValid = false := rfl
@[simp] theorem setTree_len (t : Tree) (s : State) : (setTree t s).len = s.len := rfl
@[simp] theorem setTree_nsym (t : Tree) (s : State) : (setTree t s).nsym = s.nsym := rfl
@[simp] theorem setTree_nnodes (t : Tree) (s : State) : (setTree t s).nnodes = BitVec.ofNat 10 t.nodes.length := rfl
@[simp] theorem setTree_root (t : Tree) (s : State) : (setTree t s).root = BitVec.ofNat 9 t.root := rfl
@[simp] theorem setTree_outAlg (t : Tree) (s : State) : (setTree t s).outAlg = s.outAlg := rfl
@[simp] theorem setTree_outBytes (t : Tree) (s : State) : (setTree t s).outBytes = s.outBytes := rfl
@[simp] theorem setTree_outBits (t : Tree) (s : State) : (setTree t s).outBits = s.outBits := rfl
@[simp] theorem setTree_ratioNum (t : Tree) (s : State) : (setTree t s).ratioNum = s.ratioNum := rfl
@[simp] theorem setTree_ratioDen (t : Tree) (s : State) : (setTree t s).ratioDen = s.ratioDen := rfl
@[simp] theorem setTree_res (t : Tree) (s : State) : (setTree t s).res = s.res := rfl
@[simp] theorem setTree_freq (t : Tree) (s : State) : (setTree t s).freq = s.freq := rfl
@[simp] theorem setTree_code (t : Tree) (s : State) : (setTree t s).code = s.code := rfl
@[simp] theorem setTree_node (t : Tree) (s : State) : (setTree t s).node = Vector.ofFn fun k => (t.nodes[k.val]?).or s.node[k] := rfl
@[simp] theorem setTree_ibuf (t : Tree) (s : State) : (setTree t s).ibuf = s.ibuf := rfl
@[simp] theorem setTree_obuf (t : Tree) (s : State) : (setTree t s).obuf = s.obuf := rfl
@[simp] theorem setTree_ibufFill (t : Tree) (s : State) : (setTree t s).ibufFill = s.ibufFill := rfl
@[simp] theorem setTree_outFill (t : Tree) (s : State) : (setTree t s).outFill = s.outFill := rfl
@[simp] theorem setTree_draws (t : Tree) (s : State) : (setTree t s).draws = s.draws := rfl
@[simp] theorem setTree_host (t : Tree) (s : State) : (setTree t s).host = s.host := rfl
@[simp] theorem setTree_reads (t : Tree) (s : State) : (setTree t s).reads = s.reads := rfl
@[simp] theorem setTree_hostFaults (t : Tree) (s : State) : (setTree t s).hostFaults = s.hostFaults := rfl
@[simp] theorem setTree_turns (t : Tree) (s : State) : (setTree t s).turns = s.turns := rfl
@[simp] theorem setTree_busy (t : Tree) (s : State) : (setTree t s).busy = s.busy := rfl

/-! ### setCode -/

@[simp] theorem setCode_maxLen (c : Vector Code 256) (s : State) : (setCode c s).maxLen = s.maxLen := rfl
@[simp] theorem setCode_ie (c : Vector Code 256) (s : State) : (setCode c s).ie = s.ie := rfl
@[simp] theorem setCode_latched (c : Vector Code 256) (s : State) : (setCode c s).latched = s.latched := rfl
@[simp] theorem setCode_done (c : Vector Code 256) (s : State) : (setCode c s).done = s.done := rfl
@[simp] theorem setCode_err (c : Vector Code 256) (s : State) : (setCode c s).err = s.err := rfl
@[simp] theorem setCode_ovr (c : Vector Code 256) (s : State) : (setCode c s).ovr = s.ovr := rfl
@[simp] theorem setCode_empty (c : Vector Code 256) (s : State) : (setCode c s).empty = s.empty := rfl
@[simp] theorem setCode_freqValid (c : Vector Code 256) (s : State) : (setCode c s).freqValid = s.freqValid := rfl
@[simp] theorem setCode_treeValid (c : Vector Code 256) (s : State) : (setCode c s).treeValid = s.treeValid := rfl
@[simp] theorem setCode_codeValid (c : Vector Code 256) (s : State) : (setCode c s).codeValid = true := rfl
@[simp] theorem setCode_len (c : Vector Code 256) (s : State) : (setCode c s).len = s.len := rfl
@[simp] theorem setCode_nsym (c : Vector Code 256) (s : State) : (setCode c s).nsym = s.nsym := rfl
@[simp] theorem setCode_nnodes (c : Vector Code 256) (s : State) : (setCode c s).nnodes = s.nnodes := rfl
@[simp] theorem setCode_root (c : Vector Code 256) (s : State) : (setCode c s).root = s.root := rfl
@[simp] theorem setCode_outAlg (c : Vector Code 256) (s : State) : (setCode c s).outAlg = s.outAlg := rfl
@[simp] theorem setCode_outBytes (c : Vector Code 256) (s : State) : (setCode c s).outBytes = s.outBytes := rfl
@[simp] theorem setCode_outBits (c : Vector Code 256) (s : State) : (setCode c s).outBits = s.outBits := rfl
@[simp] theorem setCode_ratioNum (c : Vector Code 256) (s : State) : (setCode c s).ratioNum = s.ratioNum := rfl
@[simp] theorem setCode_ratioDen (c : Vector Code 256) (s : State) : (setCode c s).ratioDen = s.ratioDen := rfl
@[simp] theorem setCode_res (c : Vector Code 256) (s : State) : (setCode c s).res = s.res := rfl
@[simp] theorem setCode_freq (c : Vector Code 256) (s : State) : (setCode c s).freq = s.freq := rfl
@[simp] theorem setCode_code (c : Vector Code 256) (s : State) : (setCode c s).code = c := rfl
@[simp] theorem setCode_node (c : Vector Code 256) (s : State) : (setCode c s).node = s.node := rfl
@[simp] theorem setCode_ibuf (c : Vector Code 256) (s : State) : (setCode c s).ibuf = s.ibuf := rfl
@[simp] theorem setCode_obuf (c : Vector Code 256) (s : State) : (setCode c s).obuf = s.obuf := rfl
@[simp] theorem setCode_ibufFill (c : Vector Code 256) (s : State) : (setCode c s).ibufFill = s.ibufFill := rfl
@[simp] theorem setCode_outFill (c : Vector Code 256) (s : State) : (setCode c s).outFill = s.outFill := rfl
@[simp] theorem setCode_draws (c : Vector Code 256) (s : State) : (setCode c s).draws = s.draws := rfl
@[simp] theorem setCode_host (c : Vector Code 256) (s : State) : (setCode c s).host = s.host := rfl
@[simp] theorem setCode_reads (c : Vector Code 256) (s : State) : (setCode c s).reads = s.reads := rfl
@[simp] theorem setCode_hostFaults (c : Vector Code 256) (s : State) : (setCode c s).hostFaults = s.hostFaults := rfl
@[simp] theorem setCode_turns (c : Vector Code 256) (s : State) : (setCode c s).turns = s.turns := rfl
@[simp] theorem setCode_busy (c : Vector Code 256) (s : State) : (setCode c s).busy = s.busy := rfl

/-! ### resetRegisters -/

@[simp] theorem resetRegisters_maxLen (s : State) : (resetRegisters s).maxLen = s.maxLen := rfl
@[simp] theorem resetRegisters_ie (s : State) : (resetRegisters s).ie = false := rfl
@[simp] theorem resetRegisters_latched (s : State) : (resetRegisters s).latched = none := rfl
@[simp] theorem resetRegisters_done (s : State) : (resetRegisters s).done = false := rfl
@[simp] theorem resetRegisters_err (s : State) : (resetRegisters s).err = none := rfl
@[simp] theorem resetRegisters_ovr (s : State) : (resetRegisters s).ovr = false := rfl
@[simp] theorem resetRegisters_empty (s : State) : (resetRegisters s).empty = false := rfl
@[simp] theorem resetRegisters_freqValid (s : State) : (resetRegisters s).freqValid = false := rfl
@[simp] theorem resetRegisters_treeValid (s : State) : (resetRegisters s).treeValid = false := rfl
@[simp] theorem resetRegisters_codeValid (s : State) : (resetRegisters s).codeValid = false := rfl
@[simp] theorem resetRegisters_len (s : State) : (resetRegisters s).len = 0 := rfl
@[simp] theorem resetRegisters_nsym (s : State) : (resetRegisters s).nsym = 0 := rfl
@[simp] theorem resetRegisters_nnodes (s : State) : (resetRegisters s).nnodes = 0 := rfl
@[simp] theorem resetRegisters_root (s : State) : (resetRegisters s).root = 0 := rfl
@[simp] theorem resetRegisters_outAlg (s : State) : (resetRegisters s).outAlg = none := rfl
@[simp] theorem resetRegisters_outBytes (s : State) : (resetRegisters s).outBytes = 0 := rfl
@[simp] theorem resetRegisters_outBits (s : State) : (resetRegisters s).outBits = 0 := rfl
@[simp] theorem resetRegisters_ratioNum (s : State) : (resetRegisters s).ratioNum = 0 := rfl
@[simp] theorem resetRegisters_ratioDen (s : State) : (resetRegisters s).ratioDen = 0 := rfl
@[simp] theorem resetRegisters_res (s : State) : (resetRegisters s).res = Vector.replicate 4 ResRec.cleared := rfl
@[simp] theorem resetRegisters_freq (s : State) : (resetRegisters s).freq = Vector.replicate 256 0 := rfl
@[simp] theorem resetRegisters_code (s : State) : (resetRegisters s).code = Vector.replicate 256 [] := rfl
@[simp] theorem resetRegisters_node (s : State) : (resetRegisters s).node = s.node := rfl
@[simp] theorem resetRegisters_ibuf (s : State) : (resetRegisters s).ibuf = s.ibuf := rfl
@[simp] theorem resetRegisters_obuf (s : State) : (resetRegisters s).obuf = s.obuf := rfl
@[simp] theorem resetRegisters_ibufFill (s : State) : (resetRegisters s).ibufFill = s.ibufFill := rfl
@[simp] theorem resetRegisters_outFill (s : State) : (resetRegisters s).outFill = s.outFill := rfl
@[simp] theorem resetRegisters_draws (s : State) : (resetRegisters s).draws = s.draws := rfl
@[simp] theorem resetRegisters_host (s : State) : (resetRegisters s).host = s.host := rfl
@[simp] theorem resetRegisters_reads (s : State) : (resetRegisters s).reads = s.reads := rfl
@[simp] theorem resetRegisters_hostFaults (s : State) : (resetRegisters s).hostFaults = s.hostFaults := rfl
@[simp] theorem resetRegisters_turns (s : State) : (resetRegisters s).turns = s.turns := rfl
@[simp] theorem resetRegisters_busy (s : State) : (resetRegisters s).busy = false := rfl

/-! ### forgetOutputs -/

@[simp] theorem forgetOutputs_maxLen (s : State) : (forgetOutputs s).maxLen = s.maxLen := rfl
@[simp] theorem forgetOutputs_ie (s : State) : (forgetOutputs s).ie = s.ie := rfl
@[simp] theorem forgetOutputs_latched (s : State) : (forgetOutputs s).latched = s.latched := rfl
@[simp] theorem forgetOutputs_done (s : State) : (forgetOutputs s).done = s.done := rfl
@[simp] theorem forgetOutputs_err (s : State) : (forgetOutputs s).err = s.err := rfl
@[simp] theorem forgetOutputs_ovr (s : State) : (forgetOutputs s).ovr = s.ovr := rfl
@[simp] theorem forgetOutputs_empty (s : State) : (forgetOutputs s).empty = s.empty := rfl
@[simp] theorem forgetOutputs_freqValid (s : State) : (forgetOutputs s).freqValid = s.freqValid := rfl
@[simp] theorem forgetOutputs_treeValid (s : State) : (forgetOutputs s).treeValid = s.treeValid := rfl
@[simp] theorem forgetOutputs_codeValid (s : State) : (forgetOutputs s).codeValid = s.codeValid := rfl
@[simp] theorem forgetOutputs_len (s : State) : (forgetOutputs s).len = s.len := rfl
@[simp] theorem forgetOutputs_nsym (s : State) : (forgetOutputs s).nsym = s.nsym := rfl
@[simp] theorem forgetOutputs_nnodes (s : State) : (forgetOutputs s).nnodes = s.nnodes := rfl
@[simp] theorem forgetOutputs_root (s : State) : (forgetOutputs s).root = s.root := rfl
@[simp] theorem forgetOutputs_outAlg (s : State) : (forgetOutputs s).outAlg = s.outAlg := rfl
@[simp] theorem forgetOutputs_outBytes (s : State) : (forgetOutputs s).outBytes = s.outBytes := rfl
@[simp] theorem forgetOutputs_outBits (s : State) : (forgetOutputs s).outBits = s.outBits := rfl
@[simp] theorem forgetOutputs_ratioNum (s : State) : (forgetOutputs s).ratioNum = s.ratioNum := rfl
@[simp] theorem forgetOutputs_ratioDen (s : State) : (forgetOutputs s).ratioDen = s.ratioDen := rfl
@[simp] theorem forgetOutputs_res (s : State) : (forgetOutputs s).res = s.res := rfl
@[simp] theorem forgetOutputs_freq (s : State) : (forgetOutputs s).freq = s.freq := rfl
@[simp] theorem forgetOutputs_code (s : State) : (forgetOutputs s).code = s.code := rfl
@[simp] theorem forgetOutputs_node (s : State) : (forgetOutputs s).node = Vector.replicate 511 none := rfl
@[simp] theorem forgetOutputs_ibuf (s : State) : (forgetOutputs s).ibuf = s.ibuf := rfl
@[simp] theorem forgetOutputs_obuf (s : State) : (forgetOutputs s).obuf = [] := rfl
@[simp] theorem forgetOutputs_ibufFill (s : State) : (forgetOutputs s).ibufFill = s.ibufFill := rfl
@[simp] theorem forgetOutputs_outFill (s : State) : (forgetOutputs s).outFill = s.outFill + 1 := rfl
@[simp] theorem forgetOutputs_draws (s : State) : (forgetOutputs s).draws = s.draws := rfl
@[simp] theorem forgetOutputs_host (s : State) : (forgetOutputs s).host = s.host := rfl
@[simp] theorem forgetOutputs_reads (s : State) : (forgetOutputs s).reads = s.reads := rfl
@[simp] theorem forgetOutputs_hostFaults (s : State) : (forgetOutputs s).hostFaults = s.hostFaults := rfl
@[simp] theorem forgetOutputs_turns (s : State) : (forgetOutputs s).turns = s.turns := rfl
@[simp] theorem forgetOutputs_busy (s : State) : (forgetOutputs s).busy = s.busy := rfl

/-! ### forgetInput -/

@[simp] theorem forgetInput_maxLen (s : State) : (forgetInput s).maxLen = s.maxLen := rfl
@[simp] theorem forgetInput_ie (s : State) : (forgetInput s).ie = s.ie := rfl
@[simp] theorem forgetInput_latched (s : State) : (forgetInput s).latched = s.latched := rfl
@[simp] theorem forgetInput_done (s : State) : (forgetInput s).done = s.done := rfl
@[simp] theorem forgetInput_err (s : State) : (forgetInput s).err = s.err := rfl
@[simp] theorem forgetInput_ovr (s : State) : (forgetInput s).ovr = s.ovr := rfl
@[simp] theorem forgetInput_empty (s : State) : (forgetInput s).empty = s.empty := rfl
@[simp] theorem forgetInput_freqValid (s : State) : (forgetInput s).freqValid = s.freqValid := rfl
@[simp] theorem forgetInput_treeValid (s : State) : (forgetInput s).treeValid = s.treeValid := rfl
@[simp] theorem forgetInput_codeValid (s : State) : (forgetInput s).codeValid = s.codeValid := rfl
@[simp] theorem forgetInput_len (s : State) : (forgetInput s).len = s.len := rfl
@[simp] theorem forgetInput_nsym (s : State) : (forgetInput s).nsym = s.nsym := rfl
@[simp] theorem forgetInput_nnodes (s : State) : (forgetInput s).nnodes = s.nnodes := rfl
@[simp] theorem forgetInput_root (s : State) : (forgetInput s).root = s.root := rfl
@[simp] theorem forgetInput_outAlg (s : State) : (forgetInput s).outAlg = s.outAlg := rfl
@[simp] theorem forgetInput_outBytes (s : State) : (forgetInput s).outBytes = s.outBytes := rfl
@[simp] theorem forgetInput_outBits (s : State) : (forgetInput s).outBits = s.outBits := rfl
@[simp] theorem forgetInput_ratioNum (s : State) : (forgetInput s).ratioNum = s.ratioNum := rfl
@[simp] theorem forgetInput_ratioDen (s : State) : (forgetInput s).ratioDen = s.ratioDen := rfl
@[simp] theorem forgetInput_res (s : State) : (forgetInput s).res = s.res := rfl
@[simp] theorem forgetInput_freq (s : State) : (forgetInput s).freq = s.freq := rfl
@[simp] theorem forgetInput_code (s : State) : (forgetInput s).code = s.code := rfl
@[simp] theorem forgetInput_node (s : State) : (forgetInput s).node = s.node := rfl
@[simp] theorem forgetInput_ibuf (s : State) : (forgetInput s).ibuf = [] := rfl
@[simp] theorem forgetInput_obuf (s : State) : (forgetInput s).obuf = s.obuf := rfl
@[simp] theorem forgetInput_ibufFill (s : State) : (forgetInput s).ibufFill = s.ibufFill + 1 := rfl
@[simp] theorem forgetInput_outFill (s : State) : (forgetInput s).outFill = s.outFill := rfl
@[simp] theorem forgetInput_draws (s : State) : (forgetInput s).draws = s.draws := rfl
@[simp] theorem forgetInput_host (s : State) : (forgetInput s).host = s.host := rfl
@[simp] theorem forgetInput_reads (s : State) : (forgetInput s).reads = s.reads := rfl
@[simp] theorem forgetInput_hostFaults (s : State) : (forgetInput s).hostFaults = s.hostFaults := rfl
@[simp] theorem forgetInput_turns (s : State) : (forgetInput s).turns = s.turns := rfl
@[simp] theorem forgetInput_busy (s : State) : (forgetInput s).busy = s.busy := rfl

/-! ### popTurn -/

@[simp] theorem popTurn_maxLen (s : State) : (popTurn s).maxLen = s.maxLen := rfl
@[simp] theorem popTurn_ie (s : State) : (popTurn s).ie = s.ie := rfl
@[simp] theorem popTurn_latched (s : State) : (popTurn s).latched = s.latched := rfl
@[simp] theorem popTurn_done (s : State) : (popTurn s).done = s.done := rfl
@[simp] theorem popTurn_err (s : State) : (popTurn s).err = s.err := rfl
@[simp] theorem popTurn_ovr (s : State) : (popTurn s).ovr = s.ovr := rfl
@[simp] theorem popTurn_empty (s : State) : (popTurn s).empty = s.empty := rfl
@[simp] theorem popTurn_freqValid (s : State) : (popTurn s).freqValid = s.freqValid := rfl
@[simp] theorem popTurn_treeValid (s : State) : (popTurn s).treeValid = s.treeValid := rfl
@[simp] theorem popTurn_codeValid (s : State) : (popTurn s).codeValid = s.codeValid := rfl
@[simp] theorem popTurn_len (s : State) : (popTurn s).len = s.len := rfl
@[simp] theorem popTurn_nsym (s : State) : (popTurn s).nsym = s.nsym := rfl
@[simp] theorem popTurn_nnodes (s : State) : (popTurn s).nnodes = s.nnodes := rfl
@[simp] theorem popTurn_root (s : State) : (popTurn s).root = s.root := rfl
@[simp] theorem popTurn_outAlg (s : State) : (popTurn s).outAlg = s.outAlg := rfl
@[simp] theorem popTurn_outBytes (s : State) : (popTurn s).outBytes = s.outBytes := rfl
@[simp] theorem popTurn_outBits (s : State) : (popTurn s).outBits = s.outBits := rfl
@[simp] theorem popTurn_ratioNum (s : State) : (popTurn s).ratioNum = s.ratioNum := rfl
@[simp] theorem popTurn_ratioDen (s : State) : (popTurn s).ratioDen = s.ratioDen := rfl
@[simp] theorem popTurn_res (s : State) : (popTurn s).res = s.res := rfl
@[simp] theorem popTurn_freq (s : State) : (popTurn s).freq = s.freq := rfl
@[simp] theorem popTurn_code (s : State) : (popTurn s).code = s.code := rfl
@[simp] theorem popTurn_node (s : State) : (popTurn s).node = s.node := rfl
@[simp] theorem popTurn_ibuf (s : State) : (popTurn s).ibuf = s.ibuf := rfl
@[simp] theorem popTurn_obuf (s : State) : (popTurn s).obuf = s.obuf := rfl
@[simp] theorem popTurn_ibufFill (s : State) : (popTurn s).ibufFill = s.ibufFill := rfl
@[simp] theorem popTurn_outFill (s : State) : (popTurn s).outFill = s.outFill := rfl
@[simp] theorem popTurn_draws (s : State) : (popTurn s).draws = s.draws := rfl
@[simp] theorem popTurn_host (s : State) : (popTurn s).host = s.host := rfl
@[simp] theorem popTurn_reads (s : State) : (popTurn s).reads = s.reads := rfl
@[simp] theorem popTurn_hostFaults (s : State) : (popTurn s).hostFaults = s.hostFaults := rfl
@[simp] theorem popTurn_turns (s : State) : (popTurn s).turns = s.turns.tail := rfl
@[simp] theorem popTurn_busy (s : State) : (popTurn s).busy = s.busy := rfl

/-! ### rejectAccess -/

@[simp] theorem rejectAccess_maxLen (a : Access) (s : State) : (rejectAccess a s).maxLen = s.maxLen := rfl
@[simp] theorem rejectAccess_ie (a : Access) (s : State) : (rejectAccess a s).ie = s.ie := rfl
@[simp] theorem rejectAccess_latched (a : Access) (s : State) : (rejectAccess a s).latched = s.latched := rfl
@[simp] theorem rejectAccess_done (a : Access) (s : State) : (rejectAccess a s).done = s.done := rfl
@[simp] theorem rejectAccess_err (a : Access) (s : State) : (rejectAccess a s).err = s.err := rfl
@[simp] theorem rejectAccess_ovr (a : Access) (s : State) : (rejectAccess a s).ovr = s.ovr := rfl
@[simp] theorem rejectAccess_empty (a : Access) (s : State) : (rejectAccess a s).empty = s.empty := rfl
@[simp] theorem rejectAccess_freqValid (a : Access) (s : State) : (rejectAccess a s).freqValid = s.freqValid := rfl
@[simp] theorem rejectAccess_treeValid (a : Access) (s : State) : (rejectAccess a s).treeValid = s.treeValid := rfl
@[simp] theorem rejectAccess_codeValid (a : Access) (s : State) : (rejectAccess a s).codeValid = s.codeValid := rfl
@[simp] theorem rejectAccess_len (a : Access) (s : State) : (rejectAccess a s).len = s.len := rfl
@[simp] theorem rejectAccess_nsym (a : Access) (s : State) : (rejectAccess a s).nsym = s.nsym := rfl
@[simp] theorem rejectAccess_nnodes (a : Access) (s : State) : (rejectAccess a s).nnodes = s.nnodes := rfl
@[simp] theorem rejectAccess_root (a : Access) (s : State) : (rejectAccess a s).root = s.root := rfl
@[simp] theorem rejectAccess_outAlg (a : Access) (s : State) : (rejectAccess a s).outAlg = s.outAlg := rfl
@[simp] theorem rejectAccess_outBytes (a : Access) (s : State) : (rejectAccess a s).outBytes = s.outBytes := rfl
@[simp] theorem rejectAccess_outBits (a : Access) (s : State) : (rejectAccess a s).outBits = s.outBits := rfl
@[simp] theorem rejectAccess_ratioNum (a : Access) (s : State) : (rejectAccess a s).ratioNum = s.ratioNum := rfl
@[simp] theorem rejectAccess_ratioDen (a : Access) (s : State) : (rejectAccess a s).ratioDen = s.ratioDen := rfl
@[simp] theorem rejectAccess_res (a : Access) (s : State) : (rejectAccess a s).res = s.res := rfl
@[simp] theorem rejectAccess_freq (a : Access) (s : State) : (rejectAccess a s).freq = s.freq := rfl
@[simp] theorem rejectAccess_code (a : Access) (s : State) : (rejectAccess a s).code = s.code := rfl
@[simp] theorem rejectAccess_node (a : Access) (s : State) : (rejectAccess a s).node = s.node := rfl
@[simp] theorem rejectAccess_ibuf (a : Access) (s : State) : (rejectAccess a s).ibuf = s.ibuf := rfl
@[simp] theorem rejectAccess_obuf (a : Access) (s : State) : (rejectAccess a s).obuf = s.obuf := rfl
@[simp] theorem rejectAccess_ibufFill (a : Access) (s : State) : (rejectAccess a s).ibufFill = s.ibufFill := rfl
@[simp] theorem rejectAccess_outFill (a : Access) (s : State) : (rejectAccess a s).outFill = s.outFill := rfl
@[simp] theorem rejectAccess_draws (a : Access) (s : State) : (rejectAccess a s).draws = s.draws := rfl
@[simp] theorem rejectAccess_host (a : Access) (s : State) : (rejectAccess a s).host = s.host := rfl
@[simp] theorem rejectAccess_reads (a : Access) (s : State) : (rejectAccess a s).reads = s.reads := rfl
@[simp] theorem rejectAccess_hostFaults (a : Access) (s : State) : (rejectAccess a s).hostFaults = a :: s.hostFaults := rfl
@[simp] theorem rejectAccess_turns (a : Access) (s : State) : (rejectAccess a s).turns = s.turns := rfl
@[simp] theorem rejectAccess_busy (a : Access) (s : State) : (rejectAccess a s).busy = s.busy := rfl

/-! ### recordRead -/

@[simp] theorem recordRead_maxLen (w : Width) (off : Nat) (v : Word) (s : State) : (recordRead w off v s).maxLen = s.maxLen := rfl
@[simp] theorem recordRead_ie (w : Width) (off : Nat) (v : Word) (s : State) : (recordRead w off v s).ie = s.ie := rfl
@[simp] theorem recordRead_latched (w : Width) (off : Nat) (v : Word) (s : State) : (recordRead w off v s).latched = s.latched := rfl
@[simp] theorem recordRead_done (w : Width) (off : Nat) (v : Word) (s : State) : (recordRead w off v s).done = s.done := rfl
@[simp] theorem recordRead_err (w : Width) (off : Nat) (v : Word) (s : State) : (recordRead w off v s).err = s.err := rfl
@[simp] theorem recordRead_ovr (w : Width) (off : Nat) (v : Word) (s : State) : (recordRead w off v s).ovr = s.ovr := rfl
@[simp] theorem recordRead_empty (w : Width) (off : Nat) (v : Word) (s : State) : (recordRead w off v s).empty = s.empty := rfl
@[simp] theorem recordRead_freqValid (w : Width) (off : Nat) (v : Word) (s : State) : (recordRead w off v s).freqValid = s.freqValid := rfl
@[simp] theorem recordRead_treeValid (w : Width) (off : Nat) (v : Word) (s : State) : (recordRead w off v s).treeValid = s.treeValid := rfl
@[simp] theorem recordRead_codeValid (w : Width) (off : Nat) (v : Word) (s : State) : (recordRead w off v s).codeValid = s.codeValid := rfl
@[simp] theorem recordRead_len (w : Width) (off : Nat) (v : Word) (s : State) : (recordRead w off v s).len = s.len := rfl
@[simp] theorem recordRead_nsym (w : Width) (off : Nat) (v : Word) (s : State) : (recordRead w off v s).nsym = s.nsym := rfl
@[simp] theorem recordRead_nnodes (w : Width) (off : Nat) (v : Word) (s : State) : (recordRead w off v s).nnodes = s.nnodes := rfl
@[simp] theorem recordRead_root (w : Width) (off : Nat) (v : Word) (s : State) : (recordRead w off v s).root = s.root := rfl
@[simp] theorem recordRead_outAlg (w : Width) (off : Nat) (v : Word) (s : State) : (recordRead w off v s).outAlg = s.outAlg := rfl
@[simp] theorem recordRead_outBytes (w : Width) (off : Nat) (v : Word) (s : State) : (recordRead w off v s).outBytes = s.outBytes := rfl
@[simp] theorem recordRead_outBits (w : Width) (off : Nat) (v : Word) (s : State) : (recordRead w off v s).outBits = s.outBits := rfl
@[simp] theorem recordRead_ratioNum (w : Width) (off : Nat) (v : Word) (s : State) : (recordRead w off v s).ratioNum = s.ratioNum := rfl
@[simp] theorem recordRead_ratioDen (w : Width) (off : Nat) (v : Word) (s : State) : (recordRead w off v s).ratioDen = s.ratioDen := rfl
@[simp] theorem recordRead_res (w : Width) (off : Nat) (v : Word) (s : State) : (recordRead w off v s).res = s.res := rfl
@[simp] theorem recordRead_freq (w : Width) (off : Nat) (v : Word) (s : State) : (recordRead w off v s).freq = s.freq := rfl
@[simp] theorem recordRead_code (w : Width) (off : Nat) (v : Word) (s : State) : (recordRead w off v s).code = s.code := rfl
@[simp] theorem recordRead_node (w : Width) (off : Nat) (v : Word) (s : State) : (recordRead w off v s).node = s.node := rfl
@[simp] theorem recordRead_ibuf (w : Width) (off : Nat) (v : Word) (s : State) : (recordRead w off v s).ibuf = s.ibuf := rfl
@[simp] theorem recordRead_obuf (w : Width) (off : Nat) (v : Word) (s : State) : (recordRead w off v s).obuf = s.obuf := rfl
@[simp] theorem recordRead_ibufFill (w : Width) (off : Nat) (v : Word) (s : State) : (recordRead w off v s).ibufFill = s.ibufFill := rfl
@[simp] theorem recordRead_outFill (w : Width) (off : Nat) (v : Word) (s : State) : (recordRead w off v s).outFill = s.outFill := rfl
@[simp] theorem recordRead_draws (w : Width) (off : Nat) (v : Word) (s : State) : (recordRead w off v s).draws = s.draws := rfl
@[simp] theorem recordRead_host (w : Width) (off : Nat) (v : Word) (s : State) : (recordRead w off v s).host = s.host := rfl
@[simp] theorem recordRead_reads (w : Width) (off : Nat) (v : Word) (s : State) : (recordRead w off v s).reads = { width := w, off := off, data := v } :: s.reads := rfl
@[simp] theorem recordRead_hostFaults (w : Width) (off : Nat) (v : Word) (s : State) : (recordRead w off v s).hostFaults = s.hostFaults := rfl
@[simp] theorem recordRead_turns (w : Width) (off : Nat) (v : Word) (s : State) : (recordRead w off v s).turns = s.turns := rfl
@[simp] theorem recordRead_busy (w : Width) (off : Nat) (v : Word) (s : State) : (recordRead w off v s).busy = s.busy := rfl

/-! ### dropWrite -/

@[simp] theorem dropWrite_maxLen (s : State) : (dropWrite s).maxLen = s.maxLen := rfl
@[simp] theorem dropWrite_ie (s : State) : (dropWrite s).ie = s.ie := rfl
@[simp] theorem dropWrite_latched (s : State) : (dropWrite s).latched = s.latched := rfl
@[simp] theorem dropWrite_done (s : State) : (dropWrite s).done = s.done := rfl
@[simp] theorem dropWrite_err (s : State) : (dropWrite s).err = s.err := rfl
@[simp] theorem dropWrite_ovr (s : State) : (dropWrite s).ovr = true := rfl
@[simp] theorem dropWrite_empty (s : State) : (dropWrite s).empty = s.empty := rfl
@[simp] theorem dropWrite_freqValid (s : State) : (dropWrite s).freqValid = s.freqValid := rfl
@[simp] theorem dropWrite_treeValid (s : State) : (dropWrite s).treeValid = s.treeValid := rfl
@[simp] theorem dropWrite_codeValid (s : State) : (dropWrite s).codeValid = s.codeValid := rfl
@[simp] theorem dropWrite_len (s : State) : (dropWrite s).len = s.len := rfl
@[simp] theorem dropWrite_nsym (s : State) : (dropWrite s).nsym = s.nsym := rfl
@[simp] theorem dropWrite_nnodes (s : State) : (dropWrite s).nnodes = s.nnodes := rfl
@[simp] theorem dropWrite_root (s : State) : (dropWrite s).root = s.root := rfl
@[simp] theorem dropWrite_outAlg (s : State) : (dropWrite s).outAlg = s.outAlg := rfl
@[simp] theorem dropWrite_outBytes (s : State) : (dropWrite s).outBytes = s.outBytes := rfl
@[simp] theorem dropWrite_outBits (s : State) : (dropWrite s).outBits = s.outBits := rfl
@[simp] theorem dropWrite_ratioNum (s : State) : (dropWrite s).ratioNum = s.ratioNum := rfl
@[simp] theorem dropWrite_ratioDen (s : State) : (dropWrite s).ratioDen = s.ratioDen := rfl
@[simp] theorem dropWrite_res (s : State) : (dropWrite s).res = s.res := rfl
@[simp] theorem dropWrite_freq (s : State) : (dropWrite s).freq = s.freq := rfl
@[simp] theorem dropWrite_code (s : State) : (dropWrite s).code = s.code := rfl
@[simp] theorem dropWrite_node (s : State) : (dropWrite s).node = s.node := rfl
@[simp] theorem dropWrite_ibuf (s : State) : (dropWrite s).ibuf = s.ibuf := rfl
@[simp] theorem dropWrite_obuf (s : State) : (dropWrite s).obuf = s.obuf := rfl
@[simp] theorem dropWrite_ibufFill (s : State) : (dropWrite s).ibufFill = s.ibufFill := rfl
@[simp] theorem dropWrite_outFill (s : State) : (dropWrite s).outFill = s.outFill := rfl
@[simp] theorem dropWrite_draws (s : State) : (dropWrite s).draws = s.draws := rfl
@[simp] theorem dropWrite_host (s : State) : (dropWrite s).host = s.host := rfl
@[simp] theorem dropWrite_reads (s : State) : (dropWrite s).reads = s.reads := rfl
@[simp] theorem dropWrite_hostFaults (s : State) : (dropWrite s).hostFaults = s.hostFaults := rfl
@[simp] theorem dropWrite_turns (s : State) : (dropWrite s).turns = s.turns := rfl
@[simp] theorem dropWrite_busy (s : State) : (dropWrite s).busy = s.busy := rfl

/-! ### writeStatus -/

@[simp] theorem writeStatus_maxLen (v : Word) (s : State) : (writeStatus v s).maxLen = s.maxLen := rfl
@[simp] theorem writeStatus_ie (v : Word) (s : State) : (writeStatus v s).ie = s.ie := rfl
@[simp] theorem writeStatus_latched (v : Word) (s : State) : (writeStatus v s).latched = s.latched := rfl
@[simp] theorem writeStatus_done (v : Word) (s : State) : (writeStatus v s).done = (s.done && !v.getLsbD 1) := rfl
@[simp] theorem writeStatus_err (v : Word) (s : State) : (writeStatus v s).err = s.err := rfl
@[simp] theorem writeStatus_ovr (v : Word) (s : State) : (writeStatus v s).ovr = (s.ovr && !v.getLsbD 8) := rfl
@[simp] theorem writeStatus_empty (v : Word) (s : State) : (writeStatus v s).empty = s.empty := rfl
@[simp] theorem writeStatus_freqValid (v : Word) (s : State) : (writeStatus v s).freqValid = s.freqValid := rfl
@[simp] theorem writeStatus_treeValid (v : Word) (s : State) : (writeStatus v s).treeValid = s.treeValid := rfl
@[simp] theorem writeStatus_codeValid (v : Word) (s : State) : (writeStatus v s).codeValid = s.codeValid := rfl
@[simp] theorem writeStatus_len (v : Word) (s : State) : (writeStatus v s).len = s.len := rfl
@[simp] theorem writeStatus_nsym (v : Word) (s : State) : (writeStatus v s).nsym = s.nsym := rfl
@[simp] theorem writeStatus_nnodes (v : Word) (s : State) : (writeStatus v s).nnodes = s.nnodes := rfl
@[simp] theorem writeStatus_root (v : Word) (s : State) : (writeStatus v s).root = s.root := rfl
@[simp] theorem writeStatus_outAlg (v : Word) (s : State) : (writeStatus v s).outAlg = s.outAlg := rfl
@[simp] theorem writeStatus_outBytes (v : Word) (s : State) : (writeStatus v s).outBytes = s.outBytes := rfl
@[simp] theorem writeStatus_outBits (v : Word) (s : State) : (writeStatus v s).outBits = s.outBits := rfl
@[simp] theorem writeStatus_ratioNum (v : Word) (s : State) : (writeStatus v s).ratioNum = s.ratioNum := rfl
@[simp] theorem writeStatus_ratioDen (v : Word) (s : State) : (writeStatus v s).ratioDen = s.ratioDen := rfl
@[simp] theorem writeStatus_res (v : Word) (s : State) : (writeStatus v s).res = s.res := rfl
@[simp] theorem writeStatus_freq (v : Word) (s : State) : (writeStatus v s).freq = s.freq := rfl
@[simp] theorem writeStatus_code (v : Word) (s : State) : (writeStatus v s).code = s.code := rfl
@[simp] theorem writeStatus_node (v : Word) (s : State) : (writeStatus v s).node = s.node := rfl
@[simp] theorem writeStatus_ibuf (v : Word) (s : State) : (writeStatus v s).ibuf = s.ibuf := rfl
@[simp] theorem writeStatus_obuf (v : Word) (s : State) : (writeStatus v s).obuf = s.obuf := rfl
@[simp] theorem writeStatus_ibufFill (v : Word) (s : State) : (writeStatus v s).ibufFill = s.ibufFill := rfl
@[simp] theorem writeStatus_outFill (v : Word) (s : State) : (writeStatus v s).outFill = s.outFill := rfl
@[simp] theorem writeStatus_draws (v : Word) (s : State) : (writeStatus v s).draws = s.draws := rfl
@[simp] theorem writeStatus_host (v : Word) (s : State) : (writeStatus v s).host = s.host := rfl
@[simp] theorem writeStatus_reads (v : Word) (s : State) : (writeStatus v s).reads = s.reads := rfl
@[simp] theorem writeStatus_hostFaults (v : Word) (s : State) : (writeStatus v s).hostFaults = s.hostFaults := rfl
@[simp] theorem writeStatus_turns (v : Word) (s : State) : (writeStatus v s).turns = s.turns := rfl
@[simp] theorem writeStatus_busy (v : Word) (s : State) : (writeStatus v s).busy = s.busy := rfl

/-! ### Reset -/

@[simp] theorem reset_maxLen : State.reset.maxLen = 4096 := rfl
@[simp] theorem reset_busy : State.reset.busy = false := rfl

end Sys2Proof.Machine
end

