-- ==== Sys2Proof/Laws/Commands.lean ====
section
/-! SUPPORT. What the shared operations of the commands can do: completion, the LEN check, Publish, and the bodies that HUFF,
RLE, DELTA, LZ77 and BENCH share. -/

namespace Sys2Proof.Machine

/-! ### Completion (R115, R302) -/

/-- A completed command answered a result or a command error. -/
theorem finish_next {s t : State} {r : Run (State × Bool)} (h : finish s r = .next t) :
    (∃ u e, r = .ok (u, e) ∧ t = completeOk e u) ∨ (∃ e, r = .error (.error e) ∧ t = completeError e s) := by
  unfold finish at h
  split at h
  · next u e => exact .inl ⟨u, e, rfl, by simpa using h.symm⟩
  · next e => exact .inr ⟨e, rfl, by simpa using h.symm⟩
  · simp at h

@[simp] theorem finish_ok (s u : State) (e : Bool) : finish s (.ok (u, e)) = .next (completeOk e u) := rfl

@[simp] theorem finish_raise (s : State) (e : CmdError) : finish s (raise e) = .next (completeError e s) := rfl

/-! ### The LEN check (R38, R300) -/

theorem inputLen_ok {s : State} (h : s.len.toNat ≤ s.maxLen) : inputLen s = .ok s.len.toNat := by
  simp [inputLen, Nat.not_lt.2 h]

theorem inputLen_raise {s : State} (h : s.maxLen < s.len.toNat) : inputLen s = raise .lenRange := by
  simp [inputLen, h]

theorem inputLen_eq_ok {s : State} {n : Nat} (h : inputLen s = .ok n) : n = s.len.toNat ∧ n ≤ s.maxLen := by
  unfold inputLen at h
  split at h
  · exact absurd h (by simp [raise])
  · obtain rfl : s.len.toNat = n := by simpa using h
    exact ⟨rfl, by omega⟩

@[simp] theorem inputBytes_length (s : State) (n : Nat) : (inputBytes s n).length = n := by simp [inputBytes]

@[simp] theorem inputBytes_zero (s : State) : inputBytes s 0 = [] := rfl

/-- The input depends on IBUF alone. -/
theorem inputBytes_congr {s t : State} (h₁ : t.ibuf = s.ibuf) (h₂ : t.ibufFill = s.ibufFill) (n : Nat) :
    inputBytes t n = inputBytes s n := by
  have : inByte t = inByte s := funext fun j => by simp only [inByte, h₁, h₂]
  rw [inputBytes, this, inputBytes]

theorem inputBytes_ne_nil {s : State} {n : Nat} (h : n ≠ 0) : inputBytes s n ≠ [] := by
  intro h'
  have := congrArg List.length h'
  simp at this
  exact h this

/-- Where LEN is beyond the capacity the check ends the command (R300). -/
theorem checkLen_raise {s : State} {f : Nat → Run (State × Bool)} (h : s.maxLen < s.len.toNat) :
    (do let n ← inputLen s; f n) = raise .lenRange := by
  rw [inputLen_raise h]
  rfl

/-- Otherwise what follows the check runs on n = LEN (R38). -/
theorem checkLen_ok {s : State} {f : Nat → Run (State × Bool)} (h : s.len.toNat ≤ s.maxLen) :
    (do let n ← inputLen s; f n) = f s.len.toNat := by
  rw [inputLen_ok h]
  rfl

/-- Only what follows a passed check gives a result. -/
theorem checkLen_result {s : State} {f : Nat → Run (State × Bool)} {p : State × Bool}
    (h : (do let n ← inputLen s; f n) = .ok p) : s.len.toNat ≤ s.maxLen ∧ f s.len.toNat = .ok p := by
  rcases Nat.lt_or_ge s.maxLen s.len.toNat with hl | hl
  · rw [checkLen_raise hl] at h
    exact nomatch h
  · rw [checkLen_ok hl] at h
    exact ⟨hl, h⟩

/-- A body's state paired with EMPTY is a result exactly where the body answered that state (R115). -/
theorem withEmpty_result {r : Run State} {e b : Bool} {u : State}
    (h : (do let t ← r; (.ok (t, e) : Run (State × Bool))) = .ok (u, b)) : r = .ok u ∧ b = e := by
  match r, h with
  | .ok _, rfl => exact ⟨rfl, rfl⟩

/-- A command that checks LEN reports LEN_RANGE for an input beyond the capacity (R300). -/
theorem finish_lenRange {s : State} {f : Nat → Run (State × Bool)} (h : s.maxLen < s.len.toNat) :
    finish s (do let n ← inputLen s; f n) = .next (completeError .lenRange s) := by
  rw [checkLen_raise h, finish_raise]

/-- Otherwise the check has no effect. -/
theorem finish_lenOk {s : State} {f : Nat → Run (State × Bool)} (h : s.len.toNat ≤ s.maxLen) :
    finish s (do let n ← inputLen s; f n) = finish s (f s.len.toNat) := by
  rw [checkLen_ok h]

/-- An encoder command whose body answers a state completes with it, EMPTY saying whether n is 0 (R115). -/
theorem finish_body {s u : State} {g : Nat → State → Run State} (h : s.len.toNat ≤ s.maxLen)
    (hg : g s.len.toNat s = .ok u) :
    finish s (do let n ← inputLen s; let t ← g n s; .ok (t, n == 0)) =
      .next (completeOk (s.len.toNat == 0) u) := by
  rw [finish_lenOk h, hg]
  rfl

/-! ### Publish (R273) -/

theorem publish_fits {s : State} {a : Alg} {out : List Byte} {bits n : Nat} (h : out.length ≤ obufSize s) :
    publish a out bits n s = .ok (publishWrites a out bits n s) := by
  simp [publish, h]

theorem publish_eq_ok {s t : State} {a : Alg} {out : List Byte} {bits n : Nat}
    (h : publish a out bits n s = .ok t) : out.length ≤ obufSize s ∧ t = publishWrites a out bits n s := by
  unfold publish at h
  split at h
  · exact ⟨‹_›, by simpa using h.symm⟩
  · exact absurd h (by simp [faultWith])

/-- OBUF after Publish: the output, then the old bytes (R273, R55). -/
theorem outByte_publishWrites (a : Alg) (out : List Byte) (bits n : Nat) (s : State) (j : Nat) :
    outByte (publishWrites a out bits n s) j = if h : j < out.length then out[j] else outByte s j := by
  simp only [outByte, publishWrites_obuf, publishWrites_outFill, read_writeBytes, Nat.zero_le, true_and, Nat.zero_add,
    Nat.sub_zero]
  split
  · next h => simp [List.getElem?_eq_getElem h]
  · rfl

theorem algId_inj {a b : Alg} (h : algId a = algId b) : a = b := by
  revert h
  cases a <;> cases b <;> simp [algId]

/-! ### The bodies that HUFF, RLE, DELTA, LZ77 and BENCH share -/

/-- RLE always publishes its output (R205, R202). -/
theorem rleBody_ok {s : State} {n : Nat} (h : n ≤ s.maxLen) :
    rleBody n s = .ok (publishWrites .rle (rleStep (inputBytes s n)) (8 * (rleStep (inputBytes s n)).length) n s) := by
  unfold rleBody
  split
  · next h₀ => subst h₀; exact publish_fits (by simp)
  · refine publish_fits ?_
    have := rleStep_length_le (inputBytes s n)
    rw [inputBytes_length] at this
    simp only [obufSize]
    omega

/-- DELTA always publishes its output (R225, R222). -/
theorem deltaBody_ok {s : State} {n : Nat} (h : n ≤ s.maxLen) :
    deltaBody n s = .ok (publishWrites .delta (deltaStep (inputBytes s n)) (8 * n) n s) := by
  unfold deltaBody
  split
  · next h₀ => subst h₀; exact publish_fits (by simp)
  · refine publish_fits ?_
    rw [deltaStep_length_eq, inputBytes_length]
    simp only [obufSize]
    omega

/-- LZ77 always publishes its output (R250, R244). -/
theorem lz77Body_ok {s : State} {n : Nat} (h : n ≤ s.maxLen) :
    lz77Body n s = .ok (publishWrites .lz77 (lzStep (inputBytes s n)) (8 * (lzStep (inputBytes s n)).length) n s) := by
  unfold lz77Body
  split
  · next h₀ => subst h₀; exact publish_fits (by simp)
  · refine publish_fits ?_
    have := lzStep_length_le (inputBytes s n)
    rw [inputBytes_length] at this
    simp only [obufSize]
    omega

/-- HUFF on an empty input publishes the empty result and builds no tree (R154). -/
theorem huffBody_empty (s : State) :
    huffBody 0 s = .ok (publishWrites .huffman [] 0 0 (setFreq (freqStep []) s)) := by
  show publish .huffman [] 0 0 _ = _
  exact publish_fits (by simp)

/-- HUFF on an input that is not empty always builds a tree and a code and publishes the bit-string (R154, R147). -/
theorem huffBody_ok {s : State} {n : Nat} (h : n ≤ s.maxLen) (h₀ : n ≠ 0) :
    ∃ (t : Tree) (tree : HTree), buildStep (freqStep (inputBytes s n)).toList = some t ∧
      t.nodes.length + 1 = 2 * symbolCount (freqStep (inputBytes s n)).toList ∧ t.root + 1 = t.nodes.length ∧
      tree.Stored (t.nodes[·]?) t.root ∧ TreeOf (inputBytes s n) tree ∧
      codegenStep (t.nodes[·]?) t.root = some (codeTable tree.codes) ∧
      huffBody n s = .ok (publishWrites .huffman (pack (hencBits (codeTable tree.codes) (inputBytes s n)))
        (hencBits (codeTable tree.codes) (inputBytes s n)).length n
        (setCode (codeTable tree.codes) (setTree t (setFreq (freqStep (inputBytes s n)) s)))) := by
  obtain ⟨t, tree, h₁, h₂, h₃, h₄, h₅⟩ := buildStep_freqStep (inputBytes_ne_nil (s := s) h₀)
  have hm : symbolCount (freqStep (inputBytes s n)).toList ≤ 256 :=
    le_trans List.countP_le_length (by simp)
  have hc := h₄.codegen (by simp only [nodeMax]; omega)
  refine ⟨t, tree, h₁, h₂, h₃, h₄, h₅, hc, ?_⟩
  unfold huffBody
  simp only [h₀, if_false, h₁, hc, publishHenc]
  have hin : inputBytes (setCode (codeTable tree.codes) (setTree t (setFreq (freqStep (inputBytes s n)) s))) n =
      inputBytes s n := inputBytes_congr rfl rfl n
  rw [hin]
  refine publish_fits ?_
  have := h₅.hencBits_length
  rw [inputBytes_length] at this
  rw [pack_length]
  simp only [obufSize, setCode_maxLen, setTree_maxLen, setFreq_maxLen]
  omega

/-- BENCH is its four bodies, each on what the one before left (R276). -/
theorem benchBody_result {s v : State} {n : Nat} (h : benchBody n s = .ok v) :
    ∃ s₁ s₂ s₃, huffBody n s = .ok s₁ ∧ rleBody n s₁ = .ok s₂ ∧ deltaBody n s₂ = .ok s₃ ∧ lz77Body n s₃ = .ok v := by
  cases h₁ : huffBody n s with
  | error e => simp [benchBody, h₁, bind, Except.bind] at h
  | ok s₁ =>
    cases h₂ : rleBody n s₁ with
    | error e => simp [benchBody, h₁, h₂, bind, Except.bind] at h
    | ok s₂ =>
      cases h₃ : deltaBody n s₂ with
      | error e => simp [benchBody, h₁, h₂, h₃, bind, Except.bind] at h
      | ok s₃ =>
        simp only [benchBody, h₁, h₂, h₃, bind, Except.bind] at h
        exact ⟨s₁, s₂, s₃, rfl, h₂, h₃, h⟩

/-- After HUFF's body the other three always publish (R276). -/
theorem benchBody_ok {s u : State} {n : Nat} (hu : huffBody n s = .ok u) (h : n ≤ u.maxLen) :
    ∃ v, benchBody n s = .ok v := by
  obtain ⟨s₂, h₂, m₂⟩ : ∃ s₂, rleBody n u = .ok s₂ ∧ s₂.maxLen = u.maxLen := ⟨_, rleBody_ok h, rfl⟩
  obtain ⟨s₃, h₃, m₃⟩ : ∃ s₃, deltaBody n s₂ = .ok s₃ ∧ s₃.maxLen = u.maxLen := ⟨_, deltaBody_ok (m₂ ▸ h), m₂⟩
  exact ⟨_, by simp only [benchBody, hu, h₂, h₃, bind, Except.bind]; exact lz77Body_ok (m₃ ▸ h)⟩

/-! ### The pipeline stages (R150 to R152) -/

/-- FREQ on an input within the capacity (R150). -/
theorem execFreq_ok {s : State} (h : s.len.toNat ≤ s.maxLen) :
    execFreq s = .next (completeOk (s.len.toNat == 0) (setFreq (freqStep (inputBytes s s.len.toNat)) s)) := by
  rw [execFreq, finish_lenOk h, finish_ok]

/-- BUILD on a valid table that has a tree (R151). -/
theorem execBuild_ok {s : State} {t : Tree} (hv : s.freqValid = true) (hm : s.nsym ≠ 0)
    (ht : buildStep (freqTable s) = some t) : execBuild s = .next (completeOk false (setTree t s)) := by
  have ht : buildStep (s.freq.toList.map BitVec.toNat) = some t := ht
  rw [execBuild, if_neg (by simp [hv]), if_neg hm, ht, finish_ok]

/-- CODEGEN on a valid tree whose walk ends (R152). -/
theorem execCodegen_ok {s : State} {c : Vector Code 256} (hv : s.treeValid = true)
    (hc : codegenStep (nodeAt s) s.root.toNat = some c) : execCodegen s = .next (completeOk false (setCode c s)) := by
  rw [execCodegen, if_neg (by simp [hv]), hc, finish_ok]

end Sys2Proof.Machine
end

