-- ==== Sys2Proof/Laws/Step.lean ====
section
/-! SUPPORT. What the host's move and the step can do, said once: which state each answers, so that an invariant is shown
case by case without unfolding either. -/

namespace Sys2Proof.Machine

/-! ### Bus accesses (R83 to R90) -/

/-- A read changes nothing but the count of free draws (R89). -/
theorem hostRead_state {w : Width} {off : Nat} {s t : State} {v : Word} (h : hostRead w off s = some (v, t)) :
    t = s ∨ t = { s with draws := s.draws + 1 } := by
  unfold hostRead at h
  split at h
  · simp at h
  · simp only [Option.some.injEq] at h
    split at h
    · exact .inr (Prod.ext_iff.1 h).2.symm
    · exact .inl (Prod.ext_iff.1 h).2.symm
  · simp only [Option.some.injEq, Prod.mk.injEq] at h
    exact .inl h.2.symm
  · simp only [Option.some.injEq] at h
    split at h
    · exact .inr (Prod.ext_iff.1 h).2.symm
    · exact .inl (Prod.ext_iff.1 h).2.symm

/-- An access that reaches IBUF lies inside it (R84). -/
theorem target_ibuf {maxLen : Nat} {w : Width} {off j : Nat} (h : target maxLen w off = some (.ibuf j)) :
    off = ibufBase + j ∧ j + w.bytes ≤ maxLen ∧ j % w.bytes = 0 := by
  unfold target at h
  repeat' split at h
  all_goals first
    | (simp at h; done)
    | skip
  next h₁ h₂ h₃ h₄ =>
    obtain rfl : off - ibufBase = j := by simpa using h
    simp only [ibufBase] at *
    refine ⟨by omega, h₄, ?_⟩
    cases w <;> simp only [Width.bytes] at * <;> omega

/-- What a write can leave: nothing changed, or one of the effects of R35 to R38, R84 and R351. -/
theorem hostWrite_cases {w : Width} {off : Nat} {v : Word} {s t : State} (h : hostWrite w off v s = some t) :
    t = s ∨ t = writeCtrl v s ∨ t = writeStatus v s ∨ (s.busy = true ∧ t = dropWrite s) ∨
      (s.busy = false ∧ t = accept v s) ∨ (s.busy = false ∧ t = { s with len := v }) ∨
      (s.busy = false ∧ ∃ j, j + w.bytes ≤ s.maxLen ∧ t = { s with ibuf := s.ibuf.writeBytes j (valueBytes w v) }) := by
  unfold hostWrite at h
  split at h
  · simp at h
  · next r _ =>
    obtain rfl : writeReg v s r = t := by simpa using h
    cases r <;> simp only [writeReg, true_or, or_true]
    all_goals split <;> simp_all
  · next j hj =>
    obtain ⟨-, hj, -⟩ := target_ibuf hj
    simp only [Option.some.injEq] at h
    split at h
    · next hb => exact .inr (.inr (.inr (.inl ⟨hb, h.symm⟩)))
    · next hb =>
      exact .inr (.inr (.inr (.inr (.inr (.inr ⟨by simpa using hb, j, hj, h.symm⟩)))))
  · exact .inl (by simpa using h.symm)

/-! ### The host's move -/

/-- What a bus access can leave: a rejected access's fault, a read's data, or a write's effect (R90, R119). -/
theorem busAccess_next {a : Access} {s t : State} (h : busAccess a s = .next t) :
    t = rejectAccess a s ∨ (∃ d r, t = { s with draws := d, reads := r }) ∨ ∃ w off v, hostWrite w off v s = some t := by
  unfold busAccess at h
  split at h
  · split at h
    · split at h
      · exact .inl (Host.Outcome.next.inj h).symm
      · next hr =>
        obtain rfl := Host.Outcome.next.inj h
        rcases hostRead_state hr with rfl | rfl <;> exact .inr (.inl ⟨_, _, rfl⟩)
    · split at h
      · exact .inl (Host.Outcome.next.inj h).symm
      · next hw =>
        obtain rfl := Host.Outcome.next.inj h
        exact .inr (.inr ⟨_, _, _, hw⟩)
  · simp at h

/-- What the host's move can leave: nothing changed, a read or a bus error, a hardware reset, or a write. -/
theorem hostStep_next {s t : State} (h : hostStep s = .next t) :
    t = s ∨ (∃ d ops r fs, t = { s with draws := d, host := ops, reads := r, hostFaults := fs }) ∨
      (∃ rest, t = hardReset { s with host := rest }) ∨
      ∃ rest w off v, hostWrite w off v { s with host := rest } = some t := by
  unfold hostStep at h
  split at h
  · exact .inl (Host.Outcome.next.inj h).symm
  · next op rest _ =>
    refine .inr ?_
    have access : ∀ {a : Access}, busAccess a { s with host := rest } = .next t →
        (∃ d ops r fs, t = { s with draws := d, host := ops, reads := r, hostFaults := fs }) ∨
          (∃ rest, t = hardReset { s with host := rest }) ∨
          ∃ rest w off v, hostWrite w off v { s with host := rest } = some t := fun h => by
      rcases busAccess_next h with rfl | ⟨d, r, rfl⟩ | ⟨w, off, v, hw⟩
      · exact .inl ⟨_, _, _, _, rfl⟩
      · exact .inl ⟨_, _, _, _, rfl⟩
      · exact .inr (.inr ⟨_, _, _, _, hw⟩)
    cases op with
    | access a => exact access h
    | waitDone =>
      have h : waitDone { s with host := rest } = .next t := h
      unfold waitDone at h
      split at h
      · exact .inl ⟨_, _, _, _, (Host.Outcome.next.inj h).symm⟩
      · exact access h
    | readOut =>
      have h : readOut { s with host := rest } = .next t := h
      unfold readOut at h
      split at h
      · exact .inl ⟨_, _, _, _, (Host.Outcome.next.inj h).symm⟩
      · next hr =>
        obtain rfl := Host.Outcome.next.inj h
        rcases hostRead_state hr with rfl | rfl <;> exact .inl ⟨_, _, _, _, rfl⟩
    | hardReset => exact .inr (.inl ⟨rest, (Host.Outcome.next.inj h).symm⟩)

/-! ### The step -/

/-- The host's move performs the next operation of its program (R119). -/
theorem hostStep_cons {s : State} {op : HostOp} {rest : List HostOp} (h : s.host = op :: rest) :
    hostStep s = runHostOp op { s with host := rest } := by
  simp only [hostStep, h]

/-- While no command is latched the host moves (R115). -/
theorem step_idle {s : State} (h : s.latched = none) : step s = hostStep s := by
  simp only [step, h]

/-- While a command is latched the host moves on its turn (U6). -/
theorem step_hostsTurn {s : State} {w : Word} (h : s.latched = some w) (ht : hostsTurn s = true) :
    step s = hostStep (popTurn s) := by
  simp only [step, h, ht, if_true]

/-- While a command is latched and it is not the host's turn, the sequencer moves (R115). -/
theorem step_sequencer {s : State} {w : Word} (h : s.latched = some w) (ht : hostsTurn s = false) :
    step s = sequencerStep w (popTurn s) := by
  simp only [step, h, ht, Bool.false_eq_true, if_false]

/-- A step is a move of the host, or of the sequencer on the latched word (R80, R115). -/
theorem step_next {s t : State} (h : step s = .next t) :
    hostStep s = .next t ∨ hostStep (popTurn s) = .next t ∨
      (∃ w i, s.latched = some w ∧ decode w = some i ∧ exec i (popTurn s) = .next t) ∨
      ∃ w, s.latched = some w ∧ decode w = none ∧ t = completeError .illegalCmd (popTurn s) := by
  unfold step at h
  split at h
  · exact .inl h
  · next w hw =>
    split at h
    · exact .inr (.inl h)
    · unfold sequencerStep at h
      split at h
      · next i hi => exact .inr (.inr (.inl ⟨w, i, hw, hi, h⟩))
      · next hi => exact .inr (.inr (.inr ⟨w, hw, hi, (Host.Outcome.next.inj h).symm⟩))

end Sys2Proof.Machine
end

