-- ==== Sys2Proof/Laws/Effects.lean ====
section
/-! SUPPORT. What a command can do, said once (R113): it completes with an error, or after a chain of the four groups of
writes that the command rules know: FREQ's, BUILD's, CODEGEN's and Publish's. Then R155's HUFF is such a chain too. -/

namespace Sys2Proof.Machine

/-! ### The tables between the stages -/

/-- What a later stage reads from FREQ is the table the frequency stage counted (R275: nothing is truncated). -/
theorem freqTable_setFreq {input : List Byte} (h : input.length < 2 ^ 32) (s : State) :
    freqTable (setFreq (freqStep input) s) = (freqStep input).toList := by
  refine List.ext_getElem (by simp [freqTable]) fun d h₁ h₂ => ?_
  have hd : d < 256 := by simpa using h₂
  have hle : input.count (BitVec.ofNat 8 d) ≤ input.length := List.count_le_length
  simp only [freqTable, setFreq_freq, Vector.toList_map, List.map_map, List.getElem_map, Vector.getElem_toList,
    Function.comp_apply, BitVec.toNat_ofNat]
  rw [freqStep_get input hd, Nat.mod_eq_of_lt (by omega)]

theorem freqTable_length (s : State) : (freqTable s).length = 256 := by simp [freqTable]

/-- A table that BuildStep gives a tree is not empty, and the tree fits the node store (R143). -/
theorem buildStep_some {f : List Nat} {t : Tree} (h : buildStep f = some t) (hlen : f.length ≤ 256) :
    0 < symbolCount f ∧ t.nodes.length + 1 = 2 * symbolCount f ∧ t.root + 1 = t.nodes.length ∧
      t.nodes.length ≤ 511 ∧ ∃ tree : HTree, tree.Stored (t.nodes[·]?) t.root ∧ tree.leaves.Perm (symbolsFrom 0 f) := by
  have hpos : 0 < symbolCount f := by
    refine Nat.pos_of_ne_zero fun h0 => ?_
    rw [buildStep_none h0] at h
    simp at h
  obtain ⟨t', tree, h₁, h₂, h₃, h₄, h₅, -⟩ := buildStep_spec hpos hlen
  obtain rfl : t' = t := Option.some.inj (h₁.symm.trans h)
  have hle : symbolCount f ≤ f.length := List.countP_le_length
  exact ⟨hpos, h₂, h₃, by omega, tree, h₄, h₅⟩

/-- NODE after BUILD: the tree's entries, then the old ones (R151). -/
theorem nodeAt_setTree {t : Tree} (h : t.nodes.length ≤ 511) (s : State) (k : Nat) :
    nodeAt (setTree t s) k = (t.nodes[k]?).or (nodeAt s k) := by
  simp only [nodeAt, setTree_node]
  by_cases hk : k < 511
  · rw [Vector.getElem?_eq_getElem hk, Vector.getElem?_eq_getElem hk]
    simp
  · rw [Vector.getElem?_eq_none (by omega), Vector.getElem?_eq_none (by omega), List.getElem?_eq_none (by omega)]
    rfl

theorem nodeAt_setTree_of_some {t : Tree} (h : t.nodes.length ≤ 511) (s : State) {k : Nat} {n : Node}
    (hn : t.nodes[k]? = some n) : nodeAt (setTree t s) k = some n := by
  rw [nodeAt_setTree h, hn]
  rfl

theorem setTree_root_toNat {t : Tree} (h : t.nodes.length ≤ 511) (h₁ : t.root + 1 = t.nodes.length) (s : State) :
    (setTree t s).root.toNat = t.root := by
  rw [setTree_root, BitVec.toNat_ofNat]
  exact Nat.mod_eq_of_lt (by omega)

/-! ### The groups of writes -/

/-- One group of writes of a command (R113). -/
inductive Writes : State → State → Prop where
  | freq {s : State} (input : List Byte) (h : input.length < 2 ^ 32) : Writes s (setFreq (freqStep input) s)
  | tree {s : State} {t : Tree} (h : buildStep (freqTable s) = some t) (hv : s.freqValid = true) :
      Writes s (setTree t s)
  | code {s : State} {cs : Vector Code 256} (h : codegenStep (nodeAt s) s.root.toNat = some cs)
      (hv : s.treeValid = true) : Writes s (setCode cs s)
  | publish {s : State} (a : Alg) (out : List Byte) (bits n : Nat) (h : out.length ≤ obufSize s) :
      Writes s (publishWrites a out bits n s)

/-- A chain of groups of writes. -/
abbrev WritesChain : State → State → Prop := Relation.ReflTransGen Writes

theorem WritesChain.publish {s u v : State} {a : Alg} {out : List Byte} {bits n : Nat} (h : WritesChain s u)
    (hp : publish a out bits n u = .ok v) : WritesChain s v := by
  obtain ⟨h₁, rfl⟩ := publish_eq_ok hp
  exact h.tail (.publish a out bits n h₁)

theorem rleBody_chain {s u : State} {n : Nat} (h : rleBody n s = .ok u) : WritesChain s u := by
  unfold rleBody at h
  split at h <;> exact WritesChain.publish .refl h

theorem deltaBody_chain {s u : State} {n : Nat} (h : deltaBody n s = .ok u) : WritesChain s u := by
  unfold deltaBody at h
  split at h <;> exact WritesChain.publish .refl h

theorem lz77Body_chain {s u : State} {n : Nat} (h : lz77Body n s = .ok u) : WritesChain s u := by
  unfold lz77Body at h
  split at h <;> exact WritesChain.publish .refl h

/-- The body of HUFF is the chain FREQ, BUILD, CODEGEN, Publish (R154). -/
theorem huffBody_chain {s u : State} {n : Nat} (hn : n < 2 ^ 32) (h : huffBody n s = .ok u) : WritesChain s u := by
  have hlen : (inputBytes s n).length < 2 ^ 32 := by rwa [inputBytes_length]
  have c₁ : WritesChain s (setFreq (freqStep (inputBytes s n)) s) :=
    .single (.freq (inputBytes s n) hlen)
  unfold huffBody at h
  dsimp only at h
  split at h
  · exact c₁.publish h
  · next h₀ =>
    split at h
    · simp [faultWith] at h
    · next t ht =>
      split at h
      · simp [faultWith] at h
      · next cs hc =>
        have ht' : buildStep (freqTable (setFreq (freqStep (inputBytes s n)) s)) = some t :=
          (congrArg buildStep (freqTable_setFreq hlen s)).trans ht
        obtain ⟨-, -, hroot, h511, tree, hst, -⟩ := buildStep_some ht' (by rw [freqTable_length])
        have c₂ : WritesChain s (setTree t (setFreq (freqStep (inputBytes s n)) s)) :=
          c₁.tail (.tree ht' (setFreq_freqValid _ _))
        have hcode := (hst.mono fun k x hk => nodeAt_setTree_of_some h511
          (setFreq (freqStep (inputBytes s n)) s) hk).codegen (by simp only [nodeMax]; omega)
        have hold := hst.codegen (by simp only [nodeMax]; omega)
        have hcs : codegenStep (nodeAt (setTree t (setFreq (freqStep (inputBytes s n)) s)))
            (setTree t (setFreq (freqStep (inputBytes s n)) s)).root.toNat = some cs := by
          rw [setTree_root_toNat h511 hroot, hcode, ← hold, hc]
        have c₃ : WritesChain s (setCode cs (setTree t (setFreq (freqStep (inputBytes s n)) s))) :=
          c₂.tail (.code hcs (setTree_treeValid _ _))
        exact c₃.publish h

/-- A command completes with an error, or after a chain of groups of writes (R113, R302). -/
theorem exec_next {i : Instr} {s t : State} (h : exec i s = .next t) :
    (∃ e, t = completeError e s) ∨ ∃ u b, WritesChain s u ∧ t = completeOk b u := by
  have body : ∀ {f : Nat → State → Run State}, (∀ {n u}, n < 2 ^ 32 → f n s = .ok u → WritesChain s u) →
      finish s (do let n ← inputLen s; let u ← f n s; .ok (u, n == 0)) = .next t →
      (∃ e, t = completeError e s) ∨ ∃ u b, WritesChain s u ∧ t = completeOk b u := by
    intro f hf h
    rcases finish_next h with ⟨u, b, hr, rfl⟩ | ⟨e, -, rfl⟩
    · obtain ⟨hu, rfl⟩ := withEmpty_result (checkLen_result hr).2
      exact .inr ⟨_, _, hf s.len.isLt hu, rfl⟩
    · exact .inl ⟨e, rfl⟩
  cases i with
  | nop => exact .inr ⟨s, false, .refl, (Host.Outcome.next.inj h).symm⟩
  | freq =>
    rcases finish_next h with ⟨u, b, hr, rfl⟩ | ⟨e, -, rfl⟩
    · obtain ⟨rfl, rfl⟩ := Prod.mk.inj (Except.ok.inj (checkLen_result hr).2)
      exact .inr ⟨_, _, .single (.freq _ (by rw [inputBytes_length]; exact s.len.isLt)), rfl⟩
    · exact .inl ⟨e, rfl⟩
  | build =>
    rcases finish_next h with ⟨u, b, hr, rfl⟩ | ⟨e, -, rfl⟩
    · by_cases hv : s.freqValid = false
      · rw [if_pos hv] at hr
        exact absurd hr (by simp [raise])
      · by_cases hm : s.nsym = 0
        · rw [if_neg hv, if_pos hm] at hr
          exact absurd hr (by simp [raise])
        · rw [if_neg hv, if_neg hm] at hr
          split at hr
          · exact absurd hr (by simp [faultWith])
          · next t ht =>
            obtain ⟨rfl, rfl⟩ : setTree t s = u ∧ false = b := by simpa using hr
            exact .inr ⟨_, _, .single (.tree ht (by simpa using hv)), rfl⟩
    · exact .inl ⟨e, rfl⟩
  | codegen =>
    rcases finish_next h with ⟨u, b, hr, rfl⟩ | ⟨e, -, rfl⟩
    · by_cases hv : s.treeValid = false
      · rw [if_pos hv] at hr
        exact absurd hr (by simp [raise])
      · rw [if_neg hv] at hr
        split at hr
        · exact absurd hr (by simp [faultWith])
        · next cs hc =>
          obtain ⟨rfl, rfl⟩ : setCode cs s = u ∧ false = b := by simpa using hr
          exact .inr ⟨_, _, .single (.code hc (by simpa using hv)), rfl⟩
    · exact .inl ⟨e, rfl⟩
  | henc =>
    have out : ∀ {a out bits n e u b}, (do let t ← publish a out bits n s; (.ok (t, e) : Run (State × Bool))) = .ok (u, b) →
        WritesChain s u := fun hr => WritesChain.publish .refl (withEmpty_result hr).1
    rcases finish_next h with ⟨u, b, hr, rfl⟩ | ⟨e, -, rfl⟩
    · obtain ⟨-, hr⟩ := checkLen_result hr
      by_cases hv : s.codeValid = false
      · rw [if_pos hv] at hr
        exact absurd hr (by simp [raise])
      · rw [if_neg hv] at hr
        split at hr
        · exact .inr ⟨_, _, out hr, rfl⟩
        · split at hr
          · exact absurd hr (by simp [raise])
          · exact .inr ⟨_, _, out hr, rfl⟩
    · exact .inl ⟨e, rfl⟩
  | huff => exact body (fun hn hu => huffBody_chain hn hu) h
  | rle => exact body (fun _ hu => rleBody_chain hu) h
  | delta => exact body (fun _ hu => deltaBody_chain hu) h
  | lz77 => exact body (fun _ hu => lz77Body_chain hu) h
  | bench =>
    refine body (f := benchBody) (fun hn hu => ?_) h
    obtain ⟨u₁, u₂, u₃, h₁, h₂, h₃, hu⟩ := benchBody_result hu
    exact (((huffBody_chain hn h₁).trans (rleBody_chain h₂)).trans (deltaBody_chain h₃)).trans (lz77Body_chain hu)

/-! ### What a chain of writes keeps, and what a step keeps -/

/-- Every group of writes leaves STATUS.BUSY, DONE, ERR, EMPTY and OVR, CTRL, LEN, IBUF, MAX_LEN and the host's side alone
(R113). -/
theorem WritesChain.frame {s u : State} (h : WritesChain s u) :
    u = { s with
      obuf := u.obuf, outAlg := u.outAlg, outBytes := u.outBytes, outBits := u.outBits, ratioNum := u.ratioNum,
      ratioDen := u.ratioDen, res := u.res, freq := u.freq, nsym := u.nsym, node := u.node, nnodes := u.nnodes,
      root := u.root, code := u.code, freqValid := u.freqValid, treeValid := u.treeValid,
      codeValid := u.codeValid } := by
  induction h with
  | refl => rfl
  | tail _ hw ih => cases hw <;> rw [ih] <;> rfl

/-- What every group of writes keeps, a chain keeps. -/
theorem WritesChain.keeps {Inv : State → Prop} (hw : ∀ s u, Inv s → Writes s u → Inv u) {s u : State}
    (h : WritesChain s u) (hs : Inv s) : Inv u := by
  induction h with
  | refl => exact hs
  | tail _ h ih => exact hw _ _ ih h

/-- A property that each effect of R35 to R38, R114, R302, R340, R342 and R351 keeps, and that a chain of a command's
writes and its completion keep, is kept by every step. -/
theorem step_keeps {Inv : State → Prop}
    (hostSide : ∀ s d ops r fs tr, Inv s →
      Inv { s with draws := d, host := ops, reads := r, hostFaults := fs, turns := tr })
    (hard : ∀ s, Inv s → Inv (hardReset s)) (soft : ∀ s, Inv s → Inv (softReset s))
    (ie : ∀ s b, Inv s → Inv { s with ie := b }) (status : ∀ s v, Inv s → Inv (writeStatus v s))
    (drop : ∀ s, s.busy = true → Inv s → Inv (dropWrite s))
    (accepted : ∀ s v, s.busy = false → Inv s → Inv (accept v s)) (len : ∀ s v, Inv s → Inv { s with len := v })
    (ibuf : ∀ s j bs, j + bs.length ≤ s.maxLen → Inv s → Inv { s with ibuf := s.ibuf.writeBytes j bs })
    (failed : ∀ s e, s.busy = true → Inv s → Inv (completeError e s))
    (completed : ∀ s u b, s.busy = true → Inv s → WritesChain s u → Inv (completeOk b u))
    {s t : State} (hs : Inv s) (h : step s = .next t) : Inv t := by
  have write : ∀ {w off v} {s t : State}, Inv s → hostWrite w off v s = some t → Inv t := by
    intro w off v s t hs h
    rcases hostWrite_cases h with rfl | rfl | rfl | ⟨hb, rfl⟩ | ⟨hb, rfl⟩ | ⟨hb, rfl⟩ | ⟨hb, j, hj, rfl⟩
    · exact hs
    · unfold writeCtrl
      split
      · exact soft s hs
      · exact ie s _ hs
    · exact status s _ hs
    · exact drop s hb hs
    · exact accepted s _ hb hs
    · exact len s _ hs
    · exact ibuf s _ _ (by rw [show (valueBytes w v).length = w.bytes by simp [valueBytes]]; exact hj) hs
  have move : ∀ {s t : State}, Inv s → hostStep s = .next t → Inv t := by
    intro s t hs h
    rcases hostStep_next h with rfl | ⟨d, ops, r, fs, rfl⟩ | ⟨rest, rfl⟩ | ⟨rest, w, off, v, h⟩
    · exact hs
    · exact hostSide s _ _ _ _ s.turns hs
    · exact hard _ (hostSide s s.draws rest s.reads s.hostFaults s.turns hs)
    · exact write (hostSide s s.draws rest s.reads s.hostFaults s.turns hs) h
  have hp : Inv (popTurn s) := hostSide s s.draws s.host s.reads s.hostFaults s.turns.tail hs
  rcases step_next h with h | h | ⟨w, i, hl, -, h⟩ | ⟨w, hl, -, rfl⟩
  · exact move hs h
  · exact move hp h
  · have hb : (popTurn s).busy = true := by simp [State.busy, hl]
    rcases exec_next h with ⟨e, rfl⟩ | ⟨u, b, hc, rfl⟩
    · exact failed _ _ hb hp
    · exact completed _ _ _ hb hp hc
  · exact failed _ _ (by simp [State.busy, hl]) hp

end Sys2Proof.Machine
end

