-- ==== Sys2Proof/Laws/PerInstr.lean ====
section
/-! SUPPORT. Statements about every command as syntax, one lemma a constructor: the fields of its word (R110, R112). -/

namespace Sys2Proof.Laws.CommandWord

/-- The command's word has RSVD = 0 and its opcode in OPC, and is well formed (R110, R112). -/
def Statement (i : Instr) : Prop :=
  rsvdField (encode i) = 0 ∧ opcField (encode i) = opcodeOf i ∧ i.wellFormed = true

theorem nop : Statement .nop := by unfold Statement; decide
theorem freq : Statement .freq := by unfold Statement; decide
theorem build : Statement .build := by unfold Statement; decide
theorem codegen : Statement .codegen := by unfold Statement; decide
theorem henc : Statement .henc := by unfold Statement; decide
theorem huff : Statement .huff := by unfold Statement; decide
theorem rle : Statement .rle := by unfold Statement; decide
theorem delta : Statement .delta := by unfold Statement; decide
theorem lz77 : Statement .lz77 := by unfold Statement; decide
theorem bench : Statement .bench := by unfold Statement; decide

end Sys2Proof.Laws.CommandWord
end

