-- ==== Sys2Proof/Tests/Slice0.lean ====
section
/-! SUPPORT. Small tests, with expected results from spec/95_test_vectors.md or worked out from a rule by hand, and a
witness for the hypotheses of every statement that has some. -/

namespace Sys2Proof.Tests

open Sys2Proof.Machine

/-! ### Helpers -/

/-- A state whose IBUF holds `bytes` from index 0 on and whose LEN is their number. -/
def loaded (maxLen : Nat) (bytes : List Byte) : State :=
  { State.resetWith maxLen with ibuf := Memory.writeBytes [] 0 bytes, len := BitVec.ofNat 32 bytes.length }

/-- The next state of an outcome, if it is one. -/
def nextOf : Host.Outcome State Fault Refusal → Option State
  | .next t => some t
  | .fault _ => none
  | .refused _ => none

theorem nextOf_isSome {r : Host.Outcome State Fault Refusal} (h : (nextOf r).isSome = true) : ∃ t, r = .next t := by
  cases r with
  | next t => exact ⟨t, rfl⟩
  | fault f => cases h
  | refused f => cases h

/-- A next state that meets a check. -/
theorem nextOf_any {r : Host.Outcome State Fault Refusal} {p : State → Bool} (h : (nextOf r).any p = true) :
    ∃ t, r = .next t ∧ p t = true := by
  cases r with
  | next t => exact ⟨t, rfl, h⟩
  | fault f => cases h
  | refused f => cases h

/-- The state after the command, accepted and run by one step. -/
def ran (i : Instr) (s : State) : Option State := nextOf (step (s.withFetchWord 32 (encode i).toNat))

/-- The first bytes of OBUF. -/
def outBytes (n : Nat) (s : State) : List Byte := (List.range n).map (outByte s)

/-- OUT_BYTES, OUT_BITS, RATIO_NUM and RATIO_DEN. -/
def result (s : State) : Nat × Nat × Int × Nat :=
  (s.outBytes.toNat, s.outBits.toNat, s.ratioNum.toInt, s.ratioDen.toNat)

/-- The text "AAAB". -/
def aaab : List Byte := [0x41#8, 0x41#8, 0x41#8, 0x42#8]

/-- The text "aaabbc". -/
def aaabbc : List Byte := [0x61#8, 0x61#8, 0x61#8, 0x62#8, 0x62#8, 0x63#8]

/-- The text "ABRACADABRA". -/
def abra : List Byte := [0x41#8, 0x42#8, 0x52#8, 0x41#8, 0x43#8, 0x41#8, 0x44#8, 0x41#8, 0x42#8, 0x52#8, 0x41#8]

/-- The text "HELLO". -/
def hello : List Byte := [0x48#8, 0x45#8, 0x4C#8, 0x4C#8, 0x4F#8]

/-! ### Well-formedness: a term that each check refuses -/

theorem test_wf_reserved_bits : commandWordWf 0x00000105#32 = false := by decide
theorem test_wf_opcode : commandWordWf 0x0000000A#32 = false := by decide
theorem test_wf_all_commands : commandWordWf 0x00000009#32 = true := by decide
theorem test_wf_offset_read : (Access.read .w32 0x800000).wellFormed = false := by decide
theorem test_wf_offset_write : (Access.write .w8 0x800000 0).wellFormed = false := by decide
theorem test_wf_value : (Access.write .w8 0x100000 0x100#32).wellFormed = false := by decide
theorem test_wf_host_op : (HostOp.access (.write .w16 0x100000 0x10000#32)).wellFormed = false := by decide
theorem test_wf_last_byte : (Access.write .w8 0x7FFFFF 0xFF#32).wellFormed = true := by decide

/-! ### Decoding: words written out from 30_encoding.md R110 and R112, RSVD then OPC -/

theorem test_decode_nop : decode 0b000000000000000000000000_00000000#32 = some .nop := by decide
theorem test_decode_freq : decode 0b000000000000000000000000_00000001#32 = some .freq := by decide
theorem test_decode_build : decode 0b000000000000000000000000_00000010#32 = some .build := by decide
theorem test_decode_codegen : decode 0b000000000000000000000000_00000011#32 = some .codegen := by decide
theorem test_decode_henc : decode 0b000000000000000000000000_00000100#32 = some .henc := by decide
theorem test_decode_huff : decode 0b000000000000000000000000_00000101#32 = some .huff := by decide
theorem test_decode_rle : decode 0b000000000000000000000000_00000110#32 = some .rle := by decide
theorem test_decode_delta : decode 0b000000000000000000000000_00000111#32 = some .delta := by decide
theorem test_decode_lz77 : decode 0b000000000000000000000000_00001000#32 = some .lz77 := by decide
theorem test_decode_bench : decode 0b000000000000000000000000_00001001#32 = some .bench := by decide
theorem test_decode_undefined_opcode : decode 0b000000000000000000000000_00001010#32 = none := by decide
theorem test_decode_reserved_bit : decode 0b100000000000000000000000_00000101#32 = none := by decide
theorem test_decode_table_word : decodeTableWord 32 0x8 = some .lz77 := by decide
theorem test_decode_table_reserved : decodeTableWord 32 0x108 = none := by decide

/-! ### The commands (95_test_vectors.md L1, L2) -/

/-- NOP completes and leaves the results of a command before it (R277). -/
theorem test_nop : ((ran .nop State.reset).map fun t => (statusWord t, irq t)) = some (0x2#32, false) := by
  decide +kernel

/-- L2.1: FREQ on "AAAB". -/
theorem test_freq : ((ran .freq (loaded 4096 aaab)).map fun t => (t.freq[0x41], t.freq[0x42], t.nsym)) =
    some (3#32, 1#32, 2#9) := by decide +kernel

/-- L2.1: FREQ on LEN = 0 gives STATUS = 0x0000_1202. -/
theorem test_freq_empty : ((ran .freq State.reset).map statusWord) = some 0x1202#32 := by decide +kernel

/-- The state after FREQ on "aaabbc" (L2.1: 61:3, 62:2, 63:1, NSYM = 3). -/
def counted : State :=
  { State.reset with
    freq := (((Vector.replicate 256 0).set 0x61 3).set 0x62 2).set 0x63 1
    nsym := 3
    freqValid := true }

/-- L2.1: BUILD after FREQ on "aaabbc": NODE[4] = Internal(6, 0, 3). -/
theorem test_build :
    ((ran .build counted).map fun t => (nodeAt t 4, t.nnodes, t.root)) = some (some (.internal 6 0 3), 5#10, 4#9) := by
  decide +kernel

/-- L2.1: BUILD after reset gives STATUS = 0x0000_0032. -/
theorem test_build_seq : ((ran .build State.reset).map statusWord) = some 0x32#32 := by decide +kernel

/-- L2.1: the codes of "aaabbc" are a = 0, c = 10, b = 11. -/
theorem test_codegen :
    ((ran .codegen (setTree (Tree.mk [.leaf 0x61#8 3, .leaf 0x62#8 2, .leaf 0x63#8 1, .internal 3 2 1, .internal 6 0 3] 4)
      State.reset)).map fun t =>
      (codeOf t.code 0x61#8, codeOf t.code 0x63#8, codeOf t.code 0x62#8)) =
      some ([false], [true, false], [true, true]) := by decide +kernel

/-- L1.14: the code of a single symbol is one bit 0. -/
theorem test_codegen_single :
    ((ran .codegen (setTree (Tree.mk [.leaf 0x41#8 1] 0) State.reset)).map fun t =>
      (readReg t (.codeLen 0x41), readReg t (.codeBits 0x41 0))) = some (1#32, 0#32) := by decide +kernel

/-- The code table of "aaabbc". -/
def codeAaabbc : Vector Code 256 :=
  codeTable [(0x62#8, [true, true]), (0x63#8, [true, false]), (0x61#8, [false])]

/-- L2.1: HENC of "aaabbc" is 000111110, packed 1F 00. -/
theorem test_henc :
    ((ran .henc (setCode codeAaabbc (loaded 4096 aaabbc))).map fun t => (outBytes 2 t, result t)) =
      some ([0x1F#8, 0x00#8], 2, 9, 39, 48) := by decide +kernel

/-- L2.1: a byte with no codeword gives NO_CODE and publishes nothing. -/
theorem test_henc_no_code :
    ((ran .henc (setCode codeAaabbc (loaded 4096 [0x61#8, 0x64#8]))).map fun t => (errField t, t.outAlg)) =
      some (5#4, none) := by decide +kernel

/-- L2.1: HUFF on "ABRACADABRA". -/
theorem test_huff :
    ((ran .huff (loaded 4096 abra)).map fun t => (outBytes 3 t, result t, t.nnodes, t.root)) =
      some ([0x6E#8, 0x8A#8, 0xDC#8], (3, 23, 65, 88), 9#10, 8#9) := by decide +kernel

/-- L2.1: HUFF on "HELLO", whose tied frequencies test the order of the queue. -/
theorem test_huff_ties :
    ((ran .huff (loaded 4096 hello)).map fun t => (outBytes 2 t, result t)) =
      some ([0x4F#8, 0x80#8], 2, 10, 30, 40) := by decide +kernel

/-- L2.2: RLE on ten bytes 0x00 and one 0xFF; the count has two digits. -/
theorem test_rle :
    ((ran .rle (loaded 4096 (List.replicate 10 0x00#8 ++ [0xFF#8]))).map fun t => (outBytes 5 t, result t)) =
      some ([0x31#8, 0x30#8, 0x00#8, 0x31#8, 0xFF#8], 5, 40, 48, 88) := by decide +kernel

/-- L2.2: RLE on "HELLO" grows: the ratio is −24/40. -/
theorem test_rle_negative_ratio : ((ran .rle (loaded 4096 hello)).map result) = some (8, 64, -24, 40) := by
  decide +kernel

/-- L2.3: DELTA on 00 FF 01. -/
theorem test_delta :
    ((ran .delta (loaded 4096 [0x00#8, 0xFF#8, 0x01#8])).map fun t => (outBytes 3 t, result t)) =
      some ([0x00#8, 0xFF#8, 0x02#8], 3, 24, 0, 24) := by decide +kernel

/-- L2.4: LZ77 on 20 bytes 'A' is "A<1,15><16,4>". -/
theorem test_lz77 :
    ((ran .lz77 (loaded 4096 (List.replicate 20 0x41#8))).map fun t => (outBytes 13 t, result t)) =
      some ([0x41#8, 0x3C#8, 0x31#8, 0x2C#8, 0x31#8, 0x35#8, 0x3E#8, 0x3C#8, 0x31#8, 0x36#8, 0x2C#8, 0x34#8, 0x3E#8],
        13, 104, 56, 160) := by decide +kernel

/-- L2.4: LZ77 on "AAA" has no token: a match needs three bytes after the first. -/
theorem test_lz77_no_match :
    ((ran .lz77 (loaded 4096 [0x41#8, 0x41#8, 0x41#8])).map fun t => (outBytes 3 t, result t)) =
      some ([0x41#8, 0x41#8, 0x41#8], 3, 24, 0, 24) := by decide +kernel

/-- L1.11, L2.2 to L2.4: the four records of BENCH on "AAAB". -/
theorem test_bench :
    ((ran .bench (loaded 4096 aaab)).map fun t =>
      (t.res.toList.map fun r => (resWord r 0, r.sizeBits.toNat, r.rnum.toInt, r.rden.toNat))) =
      some [(0x80000000#32, 4, 28, 32), (0x80000001#32, 32, 0, 32), (0x80000002#32, 32, 0, 32),
        (0x80000003#32, 32, 0, 32)] := by decide +kernel

/-- R300, R304: LEN_RANGE, before any write. -/
theorem test_bench_len_range :
    ((ran .bench { State.reset with len := 5000#32 }).map fun t => (errField t, t.freqValid, t.outAlg)) =
      some (2#4, false, none) := by decide +kernel

/-- R300: the error codes, EMPTY_TABLE and NO_CODE among them. -/
theorem test_error_codes :
    ([CmdError.illegalCmd, .lenRange, .seq, .emptyTable, .noCode].map fun e =>
      statusWord (completeError e State.reset)) = [0x12#32, 0x22#32, 0x32#32, 0x42#32, 0x52#32] := by decide +kernel

/-- L2.1, R304: BUILD after FREQ on an empty input reports EMPTY_TABLE. -/
theorem test_build_empty :
    ((ran .freq State.reset).bind fun t => (ran .build t).map statusWord) = some 0x1042#32 := by decide +kernel

/-- R117: an undefined word completes with ILLEGAL_CMD. -/
theorem test_illegal : ((nextOf (step (State.reset.withFetchWord 32 0x100))).map statusWord) = some 0x12#32 := by
  decide +kernel

/-! ### The bus -/

/-- R86: the 32-bit read after the byte writes 41 42 43 44 is 0x4443_4241. -/
theorem test_little_endian :
    ((hostRead .w32 0x100000 { State.reset with ibuf := Memory.writeBytes [] 0 [0x41#8, 0x42#8, 0x43#8, 0x44#8] }).map
      Prod.fst) = some 0x44434241#32 := by decide +kernel

/-- L2.1: NODE[2] after HUFF on "AAAB" reads 0x0000_0001, 4, 1, 0 from offset 0x4020 on. -/
theorem test_node_image :
    ((ran .huff (loaded 4096 aaab)).map fun t =>
      [0x4000, 0x4020, 0x4024, 0x4028, 0x402C].map fun off => (hostRead .w32 off t).map Prod.fst) =
      some [some 0x4100#32, some 1#32, some 4#32, some 1#32, some 0#32] := by decide +kernel

/-- R90: a misaligned read is a bus error that names the access, and so is a byte read of a register. -/
theorem test_bus_errors : hostRead .w32 0x100002 State.reset = none ∧ hostRead .w8 0x00C State.reset = none := by
  decide +kernel

/-- R90, R305: a bus error while a command runs leaves the host's fault, and the command goes on. -/
theorem test_bus_error_goes_on :
    ((nextOf (step { accept 0#32 State.reset with turns := [.host], host := [.access (.read .w32 0x100002)] })).map
      fun t => (t.hostFaults, statusWord t, (nextOf (step t)).map statusWord)) =
      some ([.read .w32 0x100002], 0x1#32, some 0x2#32) := by decide +kernel

/-- R84, R86: an 8-bit write stores one byte, and the 32-bit read sees it in its lane. -/
theorem test_byte_write :
    ((hostWrite .w8 0x100002 0x5A#32 { State.reset with ibuf := Memory.writeBytes [] 0 [0x41#8, 0x42#8, 0x43#8, 0x44#8] }).bind
      fun t => (hostRead .w32 0x100000 t).map Prod.fst) = some 0x445A4241#32 := by decide +kernel

/-- R84: the last byte of IBUF is mapped and the one after it is not. -/
theorem test_ibuf_end :
    target 4096 .w8 0x100FFF = some (.ibuf 4095) ∧ target 4096 .w8 0x101000 = none ∧
      target 4096 .w32 0x100FFC = some (.ibuf 4092) := by decide +kernel

/-- R120: WAITDONE polls until BUSY is clear; the poll that finds BUSY clear is the host's read. -/
theorem test_wait_done :
    ((nextOf (step { State.reset with host := [.waitDone] })).map fun t => (t.host, t.reads)) =
      some ([], [{ width := .w32, off := 0x00C, data := 0 }]) := by decide +kernel

/-- R342: a soft reset keeps IBUF and clears LEN. -/
theorem test_soft_reset :
    ((hostWrite .w32 0x008 2#32 (loaded 4096 aaab)).map fun t => (inByte t 3, t.len)) = some (0x42#8, 0#32) := by
  decide +kernel

/-! ### Witnesses: a state and operands that meet a statement's hypotheses, for each of its clauses -/

/-- An idle block, the word `w` latched and the next turn the sequencer's. -/
def latchedState (w : Word) : State := { accept w State.reset with turns := [.sequencer] }

/-- A block of capacity 1 with one input byte, whose code has `bits` bits. -/
def longCode (bits : Nat) : State :=
  setCode ((Vector.replicate 256 []).set 0x41 (List.replicate bits true)) (loaded 1 [0x41#8])

/-- The tree of "AAB". -/
def treeAab : Tree := Tree.mk [.leaf 0x41#8 2, .leaf 0x42#8 1, .internal 3 1 0] 2

/-- The code of "AAB". -/
def codeAab : Vector Code 256 := codeTable [(0x41#8, [true]), (0x42#8, [false])]

/-- The table of "AAB". -/
def countedAab : State :=
  { loaded 3 [0x41#8, 0x41#8, 0x42#8] with
    freq := ((Vector.replicate 256 0).set 0x41 2).set 0x42 1
    nsym := 2
    freqValid := true }

/-- The state after FREQ, BUILD and CODEGEN on "AAB". -/
def codedAab : State := setCode codeAab (setTree treeAab countedAab)

theorem counted_count : countedAab.nsym.toNat = symbolCount (freqTable countedAab) := by decide +kernel

theorem counted_build : buildStep (freqTable countedAab) = some treeAab := by decide +kernel

theorem coded_nodes : nodeAt codedAab 0 = some (.leaf 0x41#8 2) ∧ nodeAt codedAab 1 = some (.leaf 0x42#8 1) ∧
    nodeAt codedAab 2 = some (.internal 3 1 0) := by decide +kernel

theorem coded_code : codegenStep (nodeAt codedAab) codedAab.root.toNat = some codedAab.code :=
  HTree.Stored.codegen (t := .bin (.leaf 0x42#8 1) (.leaf 0x41#8 2)) (k := 2)
    ⟨1, 0, coded_nodes.2.2, by decide, by decide, coded_nodes.2.1, coded_nodes.1⟩ (by decide)

theorem counted_pipelineInv : PipelineInv countedAab :=
  ⟨counted_count, fun h => (by cases h), fun h => (by cases h)⟩

theorem coded_pipelineInv : PipelineInv codedAab :=
  ⟨counted_count, fun _ => ⟨treeAab, counted_build, fun _ _ hk => nodeAt_setTree_of_some (by decide) countedAab hk, rfl, rfl⟩,
    fun _ => coded_code⟩

theorem paramInv_one : ParamInv (State.resetWith 1) := by unfold ParamInv; decide
theorem paramInv_limit : ParamInv (State.resetWith Config.maxLenLimit) := by unfold ParamInv; decide

/-- HUFF and BENCH answer a next state for every input within the capacity. -/
theorem huff_bench_next {s : State} (h : s.len.toNat ≤ s.maxLen) :
    (∃ t, exec .huff s = .next t) ∧ ∃ t, exec .bench s = .next t := by
  obtain ⟨u, hu, hm⟩ : ∃ u, huffBody s.len.toNat s = .ok u ∧ u.maxLen = s.maxLen := by
    rcases Nat.eq_zero_or_pos s.len.toNat with h₀ | h₀
    · exact ⟨publishWrites .huffman [] 0 0 (setFreq (freqStep []) s), by rw [h₀]; exact huffBody_empty s, rfl⟩
    · obtain ⟨_, _, _, _, _, _, _, _, hb⟩ := huffBody_ok h (Nat.pos_iff_ne_zero.1 h₀)
      exact ⟨_, hb, rfl⟩
  refine ⟨⟨_, finish_body h hu⟩, ?_⟩
  obtain ⟨v, hv⟩ := benchBody_ok hu (by omega)
  exact ⟨_, finish_body (g := benchBody) h hv⟩

/-- Every command answers a next state on the state after FREQ, BUILD and CODEGEN. -/
theorem exec_coded (i : Instr) : ∃ t, exec i codedAab = .next t := by
  have hl : codedAab.len.toNat ≤ codedAab.maxLen := by decide
  cases i with
  | nop => exact ⟨_, rfl⟩
  | freq => exact ⟨_, execFreq_ok hl⟩
  | build => exact ⟨_, execBuild_ok rfl (by decide) counted_build⟩
  | codegen => exact ⟨_, execCodegen_ok rfl coded_code⟩
  | henc => exact nextOf_isSome (by decide +kernel)
  | huff => exact (huff_bench_next hl).1
  | rle => exact ⟨_, finish_body hl (rleBody_ok hl)⟩
  | delta => exact ⟨_, finish_body hl (deltaBody_ok hl)⟩
  | lz77 => exact ⟨_, finish_body hl (lz77Body_ok hl)⟩
  | bench => exact (huff_bench_next hl).2

theorem witness_DecodeAndEncodeAgree : Instr.bench.wellFormed = true ∧ decodeBytes [0x09#8, 0x00#8, 0x00#8, 0x00#8] = some .bench := by
  decide

/-- The host's turn while a command runs, with one operation pending. -/
def hostsMove (op : HostOp) : State := { accept 0x9#32 State.reset with turns := [.host], host := [op] }

/-- The sequencer's turn, and each of the host's operations idle and while a command runs. -/
theorem witness_StepRunsTheLatchedCommand :
    ((latchedState 0x9#32).latched = some 0x9#32 ∧ decode 0x9#32 = some .bench ∧ Instr.bench.wellFormed = true ∧
      hostsTurn (latchedState 0x9#32) = false) ∧
    (State.reset.latched = none ∧ State.reset.host = []) ∧
    ∀ op : HostOp, ({ State.reset with host := [op] } : State).latched = none ∧
      ({ State.reset with host := [op] } : State).host = op :: [] ∧
      (hostsMove op).latched ≠ none ∧ hostsTurn (hostsMove op) = true ∧ (hostsMove op).host = op :: [] :=
  ⟨by decide, ⟨rfl, rfl⟩, fun _ => ⟨rfl, rfl, by simp [hostsMove], rfl, rfl⟩⟩

/-- Each error there is, and none. -/
theorem witness_StatusReadsAndClears : ∀ e : Option CmdError, ({ State.reset with err := e } : State).err = e := fun _ => rfl

theorem witness_IllegalWordCompletesWithError :
    10 ≤ (0xA#32).toNat ∧ State.reset.busy = false ∧ (latchedState 0xA#32).latched = some 0xA#32 ∧
      hostsTurn (latchedState 0xA#32) = false := by decide

theorem witness_OnlyACommandWriteStartsACommand :
    State.reset.busy = false ∧ (latchedState 5#32).busy = true ∧
      ∃ t, step { State.reset with host := [w32 0x010 5#32] } = .next t ∧ t.latched = some 5#32 :=
  ⟨by decide, by decide, _, rfl, rfl⟩

theorem witness_NopCompletes : ({ State.reset with ie := true } : State).ie = true := rfl

theorem witness_FreqCompletes :
    (loaded 3 aaab).maxLen < inLen (loaded 3 aaab) ∧ inLen (loaded 4 aaab) ≤ (loaded 4 aaab).maxLen := by decide

theorem witness_BuildCompletes :
    State.reset.freqValid = false ∧ ((setFreq (freqStep []) State.reset).freqValid = true ∧
      (setFreq (freqStep []) State.reset).nsym = 0) ∧
      (countedAab.freqValid = true ∧ countedAab.nsym ≠ 0 ∧ PipelineInv countedAab) :=
  ⟨rfl, by decide +kernel, rfl, by decide, counted_pipelineInv⟩

theorem witness_CodegenCompletes : State.reset.treeValid = false ∧ codedAab.treeValid = true ∧ PipelineInv codedAab :=
  ⟨rfl, rfl, coded_pipelineInv⟩

/-- LEN one beyond the capacity, at it, and 0; no code; a byte without a code; a bit-string of exactly OBUF_SIZE bytes and
one bit more. -/
theorem witness_HencCompletes :
    (ParamInv codedAab ∧ codedAab.maxLen < inLen { codedAab with len := 4 }) ∧
    (inLen countedAab ≤ countedAab.maxLen ∧ countedAab.codeValid = false) ∧
    (inLen { codedAab with len := 0 } = 0 ∧ codedAab.codeValid = true) ∧
    (0 < inLen (setCode codeAab (loaded 1 [0x43#8])) ∧ ∃ b ∈ input (setCode codeAab (loaded 1 [0x43#8])),
      codeOf codeAab b = []) ∧
    (∀ bits, bits = 24 ∨ bits = 25 → ParamInv (longCode bits) ∧ inLen (longCode bits) = (longCode bits).maxLen ∧
      (longCode bits).codeValid = true ∧ (∀ b ∈ input (longCode bits), codeOf (longCode bits).code b ≠ []) ∧
      ((input (longCode bits)).flatMap (codeOf (longCode bits).code)).length = bits ∧
      8 * obufSize (longCode bits) = 24) := by
  refine ⟨⟨⟨by decide, by decide⟩, by decide⟩, ⟨by decide, rfl⟩, ⟨rfl, rfl⟩, ⟨by decide, 0x43#8, by decide +kernel⟩, ?_⟩
  rintro bits (rfl | rfl) <;> exact ⟨⟨by decide, by decide⟩, by decide +kernel⟩

theorem witness_encoders :
    (ParamInv codedAab ∧ codedAab.maxLen < inLen { codedAab with len := 4 }) ∧ inLen { codedAab with len := 0 } = 0 ∧
      0 < inLen codedAab ∧ inLen codedAab = codedAab.maxLen := by
  refine ⟨⟨⟨by decide, by decide⟩, by decide⟩, ?_⟩
  decide

theorem witness_HuffCompletes : ParamInv codedAab ∧ 0 < inLen codedAab ∧ inLen codedAab ≤ codedAab.maxLen :=
  ⟨witness_encoders.1.1, witness_encoders.2.2.1, witness_encoders.2.2.2.le⟩

theorem witness_RleCompletes : ParamInv codedAab ∧ inLen codedAab ≤ codedAab.maxLen :=
  ⟨witness_encoders.1.1, witness_encoders.2.2.2.le⟩

theorem witness_DeltaCompletes : ParamInv codedAab ∧ inLen codedAab ≤ codedAab.maxLen := witness_RleCompletes

theorem witness_Lz77Completes : ParamInv codedAab ∧ inLen codedAab ≤ codedAab.maxLen := witness_RleCompletes

theorem witness_BenchIsTheFourEncodersInOrder : ParamInv codedAab ∧ inLen codedAab ≤ codedAab.maxLen :=
  witness_RleCompletes

theorem witness_ErrorsArePrecise : ∃ t, exec .build State.reset = .next t ∧ State.reset.err = none ∧ t.err ≠ none :=
  ⟨_, rfl, rfl, by decide⟩

theorem witness_CommandsReportOnlyTheirErrors :
    (∃ t, exec .build State.reset = .next t ∧ State.reset.err = none ∧ t.err = some .seq) ∧
      ∃ t, execIllegal State.reset = .next t := ⟨⟨_, rfl, rfl, rfl⟩, _, rfl⟩

theorem witness_EmptyInputIsNoError :
    State.reset.len = 0 ∧ State.reset.err = none ∧ (setCode codeAab State.reset).codeValid = true ∧
      ∃ t, exec .freq State.reset = .next t := ⟨rfl, rfl, rfl, _, execFreq_ok (by decide)⟩

theorem witness_CommandsKeepTheInput (i : Instr) : ∃ t, exec i codedAab = .next t := exec_coded i

theorem witness_EncodersKeepThePipeline (i : Instr) : ParamInv codedAab ∧ ∃ t, exec i codedAab = .next t :=
  ⟨witness_encoders.1.1, witness_CommandsKeepTheInput i⟩

theorem witness_StagesKeepTheResult (i : Instr) : ∃ t, exec i codedAab = .next t := witness_CommandsKeepTheInput i

theorem witness_HuffAndBenchKeepLaterOutputBytes :
    ParamInv codedAab ∧ (∃ t, exec .huff codedAab = .next t) ∧ ∃ t, exec .bench codedAab = .next t :=
  ⟨witness_encoders.1.1, witness_CommandsKeepTheInput .huff, witness_CommandsKeepTheInput .bench⟩

theorem witness_CommandsDoNotReadTheOutputBuffer (i : Instr) : ∃ t, exec i codedAab = .next t :=
  witness_CommandsKeepTheInput i

theorem witness_PublishLeavesTheExactResult :
    ParamInv (State.resetWith Config.maxLenLimit) ∧ Config.maxLenLimit ≤ (State.resetWith Config.maxLenLimit).maxLen ∧
      ([] : List Byte).length ≤ 3 * 0 ∧ 24 * Config.maxLenLimit ≤ 24 * Config.maxLenLimit :=
  ⟨paramInv_limit, by decide, by decide, le_rfl⟩

theorem witness_DecIsTheShortestDecimalText :
    0 < 3 ∧ 10 ^ (3 - 1) ≤ 255 ∧ 255 < 10 ^ 3 ∧ dec 255 = [0x32#8, 0x35#8, 0x35#8] := by decide +kernel

theorem witness_RleOutputIsAtMostDouble :
    1 ≤ 1048576 ∧ 1048576 ≤ Config.maxLenLimit ∧ [0x41#8, 0x42#8, 0x41#8].IsChain (· ≠ ·) := by decide

theorem witness_DeltaEmitsDifferences : aaab[2 + 1]? = some 0x42#8 ∧ aaab[2]? = some 0x41#8 := by decide

/-- A match that ends at a mismatch, one that ends at LOOKAHEAD, and one that ends with the input. -/
theorem witness_MatchLenCountsEqualBytes :
    (0 < 1 ∧ 1 < aaab.length ∧ matchLen aaab 0 1 = 2) ∧ matchLen (List.replicate 20 0x41#8) 0 1 = 15 ∧
      matchLen (List.replicate 16 0x41#8) 0 1 = 15 ∧ matchLen (List.replicate 15 0x41#8) 0 1 = 14 := by decide

/-- No match at pos 0, and two equally long ones of which the leftmost is taken. -/
theorem witness_FindBestIsLeftmostLongest :
    findBest aaab 0 = (0, 0) ∧ findBest (List.replicate 20 0x41#8) 16 = (16, 4) := by decide +kernel

theorem witness_LzStepIsTheGreedyLoop :
    aaab[3]? = some 0x42#8 ∧ (findBest aaab 3).2 = 0 ∧ (findBest (List.replicate 4 0x41#8) 1).2 = 3 := by
  decide +kernel

theorem witness_LzTokensAndOutputAreBounded : (lzToken 1 3).length = 5 ∧ (lzToken 255 15).length = 8 := by
  decide +kernel

theorem witness_PackIsMostSignificantBitFirst : (pack [true, false, true])[2 / 8]? = some 0xA0#8 := by decide

theorem witness_BuiltTreesAreStrictlyBinary :
    (freqTable countedAab).length = 256 ∧ buildStep (freqTable countedAab) = some treeAab :=
  ⟨by simp [freqTable], counted_build⟩

theorem witness_BuildMergesTheTwoSmallest :
    (freqTable countedAab).length = 256 ∧ buildStep (freqTable countedAab) = some treeAab ∧
      treeAab.nodes[2]? = some (.internal 3 1 0) := ⟨by decide +kernel, counted_build, rfl⟩

theorem witness_CodewordsArePrefixFree :
    PipelineInv codedAab ∧ codedAab.codeValid = true ∧ codedAab.treeValid = true ∧ (0x41#8 ≠ 0x42#8) ∧
      codeOf codedAab.code 0x41#8 ≠ [] ∧ codeOf codedAab.code 0x42#8 ≠ [] :=
  ⟨coded_pipelineInv, rfl, rfl, by decide +kernel⟩

theorem witness_SingleSymbolHasTheOneBitCode :
    ParamInv (loaded 2 [0x41#8, 0x41#8]) ∧ 0 < inLen (loaded 2 [0x41#8, 0x41#8]) ∧
      inLen (loaded 2 [0x41#8, 0x41#8]) ≤ (loaded 2 [0x41#8, 0x41#8]).maxLen ∧
      (∀ c ∈ input (loaded 2 [0x41#8, 0x41#8]), c = 0x41#8) ∧
      ∃ t, exec .huff (loaded 2 [0x41#8, 0x41#8]) = .next t :=
  ⟨⟨by decide, by decide⟩, by decide, by decide, by decide, (huff_bench_next (by decide)).1⟩

theorem witness_HuffmanOutputIsNoLongerThanItsInput :
    ParamInv codedAab ∧ 0 < inLen codedAab ∧ inLen codedAab ≤ codedAab.maxLen ∧ ∃ t, exec .huff codedAab = .next t :=
  ⟨witness_encoders.1.1, witness_encoders.2.2.1, witness_encoders.2.2.2.le, witness_CommandsKeepTheInput .huff⟩

theorem witness_OnlyHencCanOverflowTheOutputBuffer :
    Instr.huff ≠ .henc ∧ exec .henc (longCode 25) = .fault .outByteRange := by
  refine ⟨by decide, ?_⟩
  rw [show exec .henc (longCode 25) = finish (longCode 25) (publishHenc (longCode 25).code 1 (longCode 25) >>= fun t =>
    .ok (t, false)) by rfl]
  have : ¬ (pack (hencBits (longCode 25).code (inputBytes (longCode 25) 1))).length ≤ obufSize (longCode 25) := by
    decide +kernel
  rw [publishHenc, publish, if_neg this]
  rfl

theorem witness_StagedPipelineEqualsHuff :
    0 < inLen codedAab ∧ inLen codedAab ≤ codedAab.maxLen ∧ inLen State.reset = 0 :=
  ⟨witness_encoders.2.2.1, witness_encoders.2.2.2.le, rfl⟩

/-- "AAB" and "BAA". -/
theorem witness_TreeAndCodeIgnoreByteOrder :
    (input (loaded 3 [0x42#8, 0x41#8, 0x41#8])).Perm (input (loaded 3 [0x41#8, 0x41#8, 0x42#8])) ∧
      0 < inLen (loaded 3 [0x41#8, 0x41#8, 0x42#8]) ∧
      (∃ t, exec .huff (loaded 3 [0x41#8, 0x41#8, 0x42#8]) = .next t) ∧
      ∃ t, exec .huff (loaded 3 [0x42#8, 0x41#8, 0x41#8]) = .next t :=
  ⟨by decide, by decide, (huff_bench_next (by decide)).1, (huff_bench_next (by decide)).1⟩

theorem witness_EncodersCarryNoStateAcrossCalls (i : Instr) :
    input codedAab = input countedAab ∧ inLen codedAab ≤ codedAab.maxLen ∧ (∃ t, exec i codedAab = .next t) ∧
      ∃ t, exec .bench countedAab = .next t :=
  ⟨by decide +kernel, witness_encoders.2.2.2.le, witness_CommandsKeepTheInput i, (huff_bench_next (by decide)).2⟩

/-- The last aligned access of each width inside IBUF and OBUF. -/
theorem witness_AddressMapIsAsListed :
    4096 ≤ Config.maxLenLimit ∧ 4092 % Width.w32.bytes = 0 ∧ 4092 + Width.w32.bytes ≤ 4096 ∧
      4095 + Width.w8.bytes ≤ 4096 ∧ 12286 % Width.w16.bytes = 0 ∧ 12286 + Width.w16.bytes ≤ 3 * 4096 := by decide

/-- Each clause at the ends of its range. -/
theorem witness_RejectedAccessesAreBusErrors :
    ParamInv State.reset ∧
      (∀ a ∈ [Access.read .w32 0x100002, .read .w8 0xFFFFF, .write .w16 0 0, .read .w32 0x38, .read .w32 0xFC,
        .read .w32 0x140, .read .w32 0x3FC, .read .w32 0xC00, .read .w32 0x1FFC, .read .w32 0x5FF0, .read .w32 0xFFFFC,
        .read .w8 0x101000, .read .w8 0x3FFFFF, .write .w8 0x403000 0, .read .w8 0x7FFFFF],
        a.offset < 0x800000 ∧ busAccess a State.reset = .next { State.reset with hostFaults := [a] }) ∧
      target State.reset.maxLen .w32 0x00C = some (.reg .status) ∧ ∃ t, step State.reset = .next t := by
  refine ⟨⟨by decide, by decide⟩, fun a ha => ?_, by decide +kernel, ⟨_, rfl⟩⟩
  simp only [List.mem_cons, List.not_mem_nil, or_false] at ha
  rcases ha with rfl | rfl | rfl | rfl | rfl | rfl | rfl | rfl | rfl | rfl | rfl | rfl | rfl | rfl | rfl <;>
    exact ⟨by decide, rfl⟩

/-- A block of four bytes at its first index of each width, and the full default block at its last. -/
theorem witness_InputBufferIsLittleEndian :
    (∀ w : Width, ParamInv (State.resetWith 4) ∧ (State.resetWith 4).busy = false ∧ 0 % w.bytes = 0 ∧
      0 + w.bytes ≤ (State.resetWith 4).maxLen) ∧
    ParamInv State.reset ∧ State.reset.busy = false ∧ 4095 % Width.w8.bytes = 0 ∧ 4095 + Width.w8.bytes ≤ 4096 ∧
      4094 % Width.w16.bytes = 0 ∧ 4094 + Width.w16.bytes ≤ 4096 ∧ 2 % 2 = 0 ∧ 2 + 2 ≤ Width.w32.bytes :=
  ⟨fun w => ⟨⟨by decide, by decide⟩, rfl, Nat.zero_mod _, by cases w <;> decide⟩, ⟨by decide, by decide⟩, rfl, by decide⟩

theorem witness_ReadOnlyWritesAreIgnored :
    target State.reset.maxLen .w32 0x5FEC = some (.reg (.node 510 3)) ∧ target State.reset.maxLen .w32 0 = some (.reg .id) ∧
      target State.reset.maxLen .w8 0x402FFF = some (.obuf 12287) := by decide +kernel

theorem witness_WritesWhileBusyAreDropped :
    (latchedState 5#32).busy = true ∧ target (latchedState 5#32).maxLen .w8 0x100FFF = some (.ibuf 4095) ∧
      (1#32).getLsbD 1 = false ∧ (3#32).getLsbD 1 = true ∧ State.reset.busy = false ∧
      target State.reset.maxLen .w32 0x100 = some (.reg (.res 0 0)) := by decide +kernel

/-- A mapped and a rejected read, an idle register and OBUF read, the five values of OUT_ALG, and both kinds of NODE
entry. -/
theorem witness_ReadsHaveNoSideEffects :
    (∃ t, busAccess (.read .w32 0) State.reset = .next t) ∧ target State.reset.maxLen .w32 0 = some (.reg .id) ∧
    (∃ t, busAccess (.read .w8 0) State.reset = .next t) ∧ target State.reset.maxLen .w8 0 = none ∧
    codedAab.busy = false ∧ target codedAab.maxLen .w8 0x400008 = some (.obuf 8) ∧
    (∀ a : Option Alg, ({ State.reset with outAlg := a } : State).outAlg = a) ∧
    ParamInv State.reset ∧ codedAab.code[0x41].length = 1 ∧ 31 < 32 ∧
    codedAab.node[0] = some (.leaf 0x41#8 2) ∧ codedAab.node[2] = some (.internal 3 1 0) :=
  ⟨⟨_, rfl⟩, by decide +kernel, ⟨_, rfl⟩, by decide +kernel, rfl, by decide +kernel, fun _ => rfl, ⟨by decide, by decide⟩,
    by decide +kernel, by decide, by decide +kernel, by decide +kernel⟩

theorem witness_ReadsWhileBusyNeverFault :
    (latchedState 5#32).busy = true ∧ 0x00C < 0x800000 ∧
      target (latchedState 5#32).maxLen .w32 0x00C = some (.reg .status) ∧
      target (latchedState 5#32).maxLen .w16 0x100FFE = some (.ibuf 4094) := by decide +kernel

theorem witness_InterruptFollowsEnableAndDone :
    (∃ t, exec .nop State.reset = .next t) ∧ (∃ t, hostWrite .w32 0x00C 2#32 State.reset = some t) ∧
      (2#32).getLsbD 1 = true := ⟨⟨_, rfl⟩, ⟨_, rfl⟩, by decide⟩

theorem witness_SoftResetRestoresRegisters :
    (2#32).getLsbD 1 = true ∧ State.reset.busy = false ∧ (latchedState 5#32).busy = true := by decide

theorem witness_HardwareResetLeavesTheTable : hardReset codedAab = hardReset codedAab := rfl

theorem witness_StepKeepsTheMemories :
    MemoryInv State.reset ∧ ∃ t, step { State.reset with host := [.access (.write .w8 0x100FFF 0x41#32)] } = .next t :=
  ⟨⟨List.Pairwise.nil, List.Pairwise.nil, fun _ h => (by cases h), fun _ h => (by cases h)⟩, _, rfl⟩

theorem witness_StepKeepsStatusConsistent :
    StatusInv (latchedState 0#32) ∧ ∃ t, step (latchedState 0#32) = .next t :=
  ⟨⟨fun _ => ⟨rfl, rfl, rfl⟩, fun _ => rfl, fun h => (by cases h), fun h => (by cases h)⟩, _, rfl⟩

theorem witness_StepKeepsThePipelineConsistent :
    PipelineInv codedAab ∧ ∃ t, step { codedAab with latched := some 0#32 } = .next t := ⟨coded_pipelineInv, _, rfl⟩

theorem witness_StepKeepsTheResultsConsistent :
    ResultInv State.reset ∧ ∃ t, step (latchedState 0#32) = .next t :=
  ⟨⟨fun a _ => (by cases a <;> rfl), fun a h => (by cases a <;> cases h), fun _ h => (by cases h),
    fun _ => ⟨rfl, rfl, rfl, rfl⟩, by decide⟩, _, rfl⟩

end Sys2Proof.Tests
end

section
/-! PROOFS. The scope family (00_scope.md): the decimal text of a number (R10) and the invariants at reset (R6, R340). -/

namespace Sys2Proof.Machine

/-! ### Decimal text (R10) -/

theorem digitByte_toNat {d : Nat} (h : d < 10) : (digitByte d).toNat = 0x30 + d := by
  rw [digitByte, BitVec.toNat_ofNat, Nat.mod_eq_of_lt (by omega)]

/-- Induction along the digits of a number: one digit alone, or a last digit after the text of the tens. -/
theorem dec_induction {P : Nat → List Byte → Prop} (one : ∀ d, d < 10 → P d [digitByte d])
    (more : ∀ v, 10 ≤ v → P (v / 10) (dec (v / 10)) → P v (dec (v / 10) ++ [digitByte (v % 10)])) (v : Nat) :
    P v (dec v) := by
  induction v using Nat.strong_induction_on with
  | _ v ih =>
    rcases Nat.lt_or_ge v 10 with h | h
    · rw [dec_lt_ten h]
      exact one v h
    · rw [dec_ge_ten h]
      exact more v h (ih (v / 10) (by omega))

theorem dec_ne_nil (v : Nat) : dec v ≠ [] := List.ne_nil_of_length_pos (dec_length_pos v)

theorem digitByte_is_ascii_digit {d : Nat} (h : d < 10) : 0x30 ≤ (digitByte d).toNat ∧ (digitByte d).toNat ≤ 0x39 := by
  rw [digitByte_toNat h]
  omega

theorem dec_ascii_digits (v : Nat) : ∀ b ∈ dec v, 0x30 ≤ b.toNat ∧ b.toNat ≤ 0x39 := by
  induction v using dec_induction with
  | one d hd => exact List.forall_mem_singleton.2 (digitByte_is_ascii_digit hd)
  | more v hv ih =>
    exact List.forall_mem_append.2
      ⟨ih, List.forall_mem_singleton.2 (digitByte_is_ascii_digit (Nat.mod_lt v (by decide)))⟩

/-- Read most significant digit first, the text of a number spells it. -/
theorem dec_value (v : Nat) : (dec v).foldl (fun acc b => 10 * acc + (b.toNat - 0x30)) 0 = v := by
  induction v using dec_induction with
  | one d hd =>
    rw [List.foldl_cons, List.foldl_nil, digitByte_toNat hd]
    omega
  | more v hv ih =>
    rw [List.foldl_append, ih, List.foldl_cons, List.foldl_nil, digitByte_toNat (Nat.mod_lt v (by decide))]
    omega

theorem dec_no_leading_zero (v : Nat) : v ≠ 0 → (dec v).head? ≠ some 0x30#8 := by
  induction v using dec_induction with
  | one d hd =>
    intro h0 h
    have hval := digitByte_toNat hd
    rw [show digitByte d = 0x30#8 from Option.some.inj h] at hval
    exact h0 (Nat.left_eq_add.1 hval)
  | more v hv ih =>
    rw [List.head?_append_of_ne_nil _ (dec_ne_nil _)]
    exact fun _ => ih (by omega)

theorem dec_length_eq_log (v : Nat) : (dec v).length = Nat.log 10 v + 1 := by
  induction v using dec_induction with
  | one d hd => rw [Nat.log_of_lt hd, List.length_singleton]
  | more v hv ih => rw [List.length_append, ih, List.length_singleton, Nat.log_of_one_lt_of_le (by decide) hv]

/-- Settles O26, by induction along the digits; the number of digits is one more than the logarithm. -/
theorem decIsTheShortestDecimalText : Obligations.DecIsTheShortestDecimalText := by
  intro v
  refine ⟨dec_ne_nil v, dec_ascii_digits v, dec_value v, dec_no_leading_zero v, ?zero, ?length⟩
  case zero =>
    rintro rfl
    rfl
  case length =>
    intro k hk hlo hhi
    have hlog : Nat.log 10 v = k - 1 :=
      Nat.log_eq_of_pow_le_of_lt_pow hlo (by rwa [Nat.sub_add_cancel hk])
    rw [dec_length_eq_log, hlog, Nat.sub_add_cancel hk]

/-! ### The state after reset (R340), at every capacity -/

theorem resetWith_memoryInv (m : Nat) : MemoryInv (State.resetWith m) :=
  ⟨nil_wf, nil_wf, List.forall_mem_nil _, List.forall_mem_nil _⟩

/-- No command runs, no error stands and no stage is valid. -/
theorem resetWith_statusInv (m : Nat) : StatusInv (State.resetWith m) :=
  ⟨nofun, fun _ => rfl, nofun, nofun⟩

/-- A table of zeros counts no symbols, as NSYM = 0 says. -/
theorem resetWith_nsym (m : Nat) : (State.resetWith m).nsym.toNat = symbolCount (freqTable (State.resetWith m)) := by
  have hfreq : freqTable (State.resetWith m) = List.replicate 256 0 := by
    rw [freqTable, State.resetWith, Vector.toList_replicate, List.map_replicate]
    rfl
  rw [hfreq, symbolCount, List.countP_replicate]
  rfl

theorem resetWith_pipelineInv (m : Nat) : PipelineInv (State.resetWith m) :=
  ⟨resetWith_nsym m, nofun, nofun⟩

@[simp] theorem resetWith_res (m : Nat) (a : Alg) : (State.resetWith m).res[algId a] = ResRec.cleared := by
  simp [State.resetWith]

/-- Every record is cleared and OUT_ALG names none. -/
theorem resetWith_resultInv (m : Nat) : ResultInv (State.resetWith m) := by
  refine ⟨fun a _ => resetWith_res m a, fun a h => ?written, nofun, fun _ => ⟨rfl, rfl, rfl, rfl⟩, Nat.zero_le _⟩
  case written =>
    rw [resetWith_res] at h
    cases h

/-- Settles O56, from the invariants of the state after reset at any capacity. -/
theorem resetMeetsTheInvariants : Obligations.ResetMeetsTheInvariants :=
  ⟨reset_maxLen, by unfold ParamInv; decide, resetWith_memoryInv _, resetWith_statusInv _, resetWith_pipelineInv _,
    resetWith_resultInv _⟩

end Sys2Proof.Machine
end

section
/-! PROOFS. The state family (10_state.md): the invariants that every step keeps (R36, R42, R47, R48, R54, R55), what no
command changes (R113), the interrupt line (R49), and STATUS bit by bit (R36). -/

namespace Sys2Proof.Machine

/-! ### What a chain of a command's writes leaves alone (R113) -/

theorem WritesChain.err {s u : State} (h : WritesChain s u) : u.err = s.err := by rw [h.frame]

/-! ### What a step keeps of the tables, the results and the memories -/

/-- A soft reset is the register reset, after which a discarded command's outputs are unspecified (R342). -/
theorem softReset_cases (s : State) :
    softReset s = forgetOutputs (resetRegisters s) ∨ softReset s = resetRegisters s := by
  unfold softReset
  split
  · exact .inl rfl
  · exact .inr rfl

/-- `t` is `s` but for CTRL, LEN, the fields of STATUS other than the valid flags, and the host's side. -/
def SameButControl (s t : State) : Prop :=
  t = { s with
    ie := t.ie
    latched := t.latched
    done := t.done
    err := t.err
    ovr := t.ovr
    empty := t.empty
    len := t.len
    draws := t.draws
    host := t.host
    reads := t.reads
    hostFaults := t.hostFaults
    turns := t.turns }

/-- An invariant that speaks of none of the fields of SameButControl is kept by every step when the resets, an IBUF write
within the capacity and each group of a command's writes keep it. -/
theorem step_keeps_storage {Inv : State → Prop}
    (control : ∀ {s t}, SameButControl s t → Inv s → Inv t)
    (registers : ∀ {s}, Inv s → Inv (resetRegisters s))
    (outputs : ∀ {s}, Inv s → Inv (forgetOutputs (resetRegisters s)))
    (input : ∀ {s}, Inv s → Inv (forgetInput s))
    (ibuf : ∀ {s j bs}, j + bs.length ≤ s.maxLen → Inv s → Inv { s with ibuf := s.ibuf.writeBytes j bs })
    (writes : ∀ {s u}, Inv s → Writes s u → Inv u) {s t : State} (hs : Inv s) (h : step s = .next t) : Inv t :=
  step_keeps (Inv := Inv)
    (hostSide := fun _ _ _ _ _ _ hs => control rfl hs)
    (hard := fun _ hs => input (outputs hs))
    (soft := fun s hs => by
      rcases softReset_cases s with h | h <;> rw [h]
      · exact outputs hs
      · exact registers hs)
    (ie := fun _ _ hs => control rfl hs)
    (status := fun _ _ hs => control rfl hs)
    (drop := fun _ _ hs => control rfl hs)
    (accepted := fun _ _ _ hs => control rfl hs)
    (len := fun _ _ hs => control rfl hs)
    (ibuf := fun _ _ _ hfit hs => ibuf hfit hs)
    (failed := fun _ _ _ hs => control rfl hs)
    (completed := fun _ _ _ _ hs hc => control rfl (hc.keeps (fun _ _ => writes) hs))
    hs h

/-! ### The memories and MAX_LEN (R34, R54, R55) -/

/-- A byte buffer of `cap` bytes in canonical form, the shape MemoryInv asks of both memories. -/
def Memory.Within (m : Memory) (cap : Nat) : Prop := m.wf ∧ ∀ x ∈ m, x.1 < cap

theorem memoryInv_iff {s : State} :
    MemoryInv s ↔ s.ibuf.Within s.maxLen ∧ s.obuf.Within (obufSize s) :=
  ⟨fun ⟨hi, ho, bi, bo⟩ => ⟨⟨hi, bi⟩, ho, bo⟩, fun ⟨⟨hi, bi⟩, ho, bo⟩ => ⟨hi, ho, bi, bo⟩⟩

theorem Memory.Within.nil (cap : Nat) : Memory.Within [] cap := ⟨nil_wf, List.forall_mem_nil _⟩

theorem Memory.Within.writeBytes {m : Memory} {cap a : Nat} {bs : List Byte} (h : m.Within cap)
    (hfit : a + bs.length ≤ cap) : (m.writeBytes a bs).Within cap := by
  obtain ⟨hwf, hcap⟩ := h
  refine ⟨writeBytes_wf bs hwf a, fun x hx => ?_⟩
  rcases mem_writeBytes bs hx with ⟨-, hlt⟩ | hold
  · omega
  · exact hcap x hold

/-- Of the four groups of writes only Publish reaches a memory, and its output fits OBUF (R97, R273). -/
theorem Writes.keeps_memoryInv {s u : State} (hs : MemoryInv s) (h : Writes s u) : MemoryInv u := by
  cases h with
  | freq | tree | code => exact hs
  | publish a out bits n hfit =>
    obtain ⟨hin, hout⟩ := memoryInv_iff.1 hs
    exact memoryInv_iff.2 ⟨hin, hout.writeBytes (by rwa [Nat.zero_add])⟩

theorem step_keeps_memoryInv {s t : State} (hs : MemoryInv s) (h : step s = .next t) : MemoryInv t := by
  refine step_keeps_storage (Inv := MemoryInv) ?control ?registers ?outputs ?input ?ibuf Writes.keeps_memoryInv hs h
  case control =>
    intro s t h hs
    rw [h]
    exact hs
  case registers => exact fun hs => hs
  case outputs => exact fun hs => memoryInv_iff.2 ⟨(memoryInv_iff.1 hs).1, .nil _⟩
  case input => exact fun hs => memoryInv_iff.2 ⟨.nil _, (memoryInv_iff.1 hs).2⟩
  case ibuf =>
    intro s j bs hfit hs
    obtain ⟨hin, hout⟩ := memoryInv_iff.1 hs
    exact memoryInv_iff.2 ⟨hin.writeBytes hfit, hout⟩

theorem Writes.maxLen {s u : State} (h : Writes s u) : u.maxLen = s.maxLen := by cases h <;> rfl

theorem step_keeps_maxLen {s t : State} (h : step s = .next t) : t.maxLen = s.maxLen :=
  step_keeps_storage (Inv := fun u => u.maxLen = s.maxLen)
    (control := fun h hs => by rw [h]; exact hs)
    (registers := fun hs => hs)
    (outputs := fun hs => hs)
    (input := fun hs => hs)
    (ibuf := fun _ hs => hs)
    (writes := fun hs h => h.maxLen.trans hs)
    rfl h

/-- Settles O57: the only writes to a memory are an accepted IBUF write and Publish, both inside the capacity. -/
theorem stepKeepsTheMemories : Obligations.StepKeepsTheMemories :=
  fun _ _ hs h => ⟨step_keeps_memoryInv hs h, step_keeps_maxLen h⟩

/-! ### STATUS (R36, R48, R114, R302) -/

/-- A reset leaves every field of STATUS as a fresh block has it (R340). -/
theorem resetRegisters_statusInv (s : State) : StatusInv (resetRegisters s) := resetWith_statusInv s.maxLen

theorem softReset_statusInv (s : State) : StatusInv (softReset s) := by
  rcases softReset_cases s with h | h <;> rw [h] <;> exact resetRegisters_statusInv s

/-- Each stage sets its own flag only where the flag of the stage before is set, and clears the flags of the stages after
it (R48). -/
theorem Writes.keeps_statusInv {s u : State} (hs : StatusInv s) (h : Writes s u) : StatusInv u := by
  obtain ⟨running, error, code, tree⟩ := hs
  cases h with
  | freq => exact ⟨running, error, nofun, nofun⟩
  | tree _ hv => exact ⟨running, error, nofun, fun _ => hv⟩
  | code _ hv => exact ⟨running, error, fun _ => hv, tree⟩
  | publish => exact ⟨running, error, code, tree⟩

/-- A write to STATUS can only clear DONE and OVR (R36). -/
theorem writeStatus_statusInv {s : State} (hs : StatusInv s) (v : Word) : StatusInv (writeStatus v s) := by
  obtain ⟨running, error, flags⟩ := hs
  refine ⟨fun hb => ?_, error, flags⟩
  obtain ⟨hdone, herr, hempty⟩ := running hb
  exact ⟨by rw [writeStatus_done, hdone, Bool.false_and], herr, hempty⟩

/-- While a command runs EMPTY is clear, and it stays so at a completion with an error (R302). -/
theorem completeError_statusInv {s : State} (hb : s.busy = true) (hs : StatusInv s) (e : CmdError) :
    StatusInv (completeError e s) := by
  obtain ⟨running, -, flags⟩ := hs
  obtain ⟨-, -, hempty⟩ := running hb
  exact ⟨nofun, fun _ => hempty, flags⟩

/-- While a command runs ERR is clear, and a completion with a result leaves it so (R115). -/
theorem completeOk_statusInv {s u : State} (hb : s.busy = true) (hs : StatusInv s) (h : WritesChain s u) (b : Bool) :
    StatusInv (completeOk b u) := by
  obtain ⟨-, -, flags⟩ := h.keeps (fun _ _ => Writes.keeps_statusInv) hs
  obtain ⟨running, -⟩ := hs
  obtain ⟨-, herr, -⟩ := running hb
  exact ⟨nofun, fun he => absurd (h.err.trans herr) he, flags⟩

theorem accept_statusInv {s : State} (hs : StatusInv s) (w : Word) : StatusInv (accept w s) := by
  obtain ⟨-, -, flags⟩ := hs
  exact ⟨fun _ => ⟨rfl, rfl, rfl⟩, fun _ => rfl, flags⟩

theorem step_keeps_statusInv {s t : State} (hs : StatusInv s) (h : step s = .next t) : StatusInv t :=
  step_keeps (Inv := StatusInv)
    (hostSide := fun _ _ _ _ _ _ hs => hs)
    (hard := fun s _ => resetRegisters_statusInv s)
    (soft := fun s _ => softReset_statusInv s)
    (ie := fun _ _ hs => hs)
    (status := fun _ v hs => writeStatus_statusInv hs v)
    (drop := fun _ _ hs => hs)
    (accepted := fun _ w _ hs => accept_statusInv hs w)
    (len := fun _ _ hs => hs)
    (ibuf := fun _ _ _ _ hs => hs)
    (failed := fun _ e hb hs => completeError_statusInv hb hs e)
    (completed := fun _ _ b hb hs hc => completeOk_statusInv hb hs hc b)
    hs h

/-- Settles O58: acceptance clears DONE, ERR and EMPTY, nothing sets them before completion, and a completion sets at
most one of ERR and EMPTY. -/
theorem stepKeepsStatusConsistent : Obligations.StepKeepsStatusConsistent :=
  fun _ _ => step_keeps_statusInv

/-! ### The pipeline (R48) -/

theorem symbolCount_freqStep_le (input : List Byte) : symbolCount (freqStep input).toList ≤ 256 :=
  le_trans List.countP_le_length (by simp)

/-- NSYM has room for the number of symbols (R39). -/
theorem setFreq_nsym_toNat {input : List Byte} (h : input.length < 2 ^ 32) (s : State) :
    (setFreq (freqStep input) s).nsym.toNat = symbolCount (freqTable (setFreq (freqStep input) s)) := by
  have := symbolCount_freqStep_le input
  rw [freqTable_setFreq h, setFreq_nsym, BitVec.toNat_ofNat, Nat.mod_eq_of_lt (by omega)]

/-- NNODES has room for the number of entries (R40). -/
theorem setTree_nnodes_toNat {t : Tree} (h : t.nodes.length ≤ 511) (s : State) :
    (setTree t s).nnodes.toNat = t.nodes.length := by
  rw [setTree_nnodes, BitVec.toNat_ofNat, Nat.mod_eq_of_lt (by omega)]

/-- Each stage leaves its own result and takes back the results of the stages after it (R48). -/
theorem Writes.keeps_pipelineInv {s u : State} (hs : PipelineInv s) (h : Writes s u) : PipelineInv u := by
  obtain ⟨count, tree, code⟩ := hs
  cases h with
  | freq input hlen => exact ⟨setFreq_nsym_toNat hlen s, nofun, nofun⟩
  | @tree t ht hv =>
    obtain ⟨-, -, hroot, hsize, -⟩ := buildStep_some ht (freqTable_length s).le
    exact ⟨count, fun _ => ⟨t, ht, fun _ _ => nodeAt_setTree_of_some hsize s, setTree_nnodes_toNat hsize s,
      setTree_root_toNat hsize hroot s⟩, nofun⟩
  | code hc hv => exact ⟨count, tree, fun _ => hc⟩
  | publish => exact ⟨count, tree, code⟩

/-- With every flag clear only NSYM speaks of a table, and it counts the table of zeros (R340). -/
theorem resetRegisters_pipelineInv (s : State) : PipelineInv (resetRegisters s) :=
  ⟨resetWith_nsym s.maxLen, nofun, nofun⟩

theorem forgetOutputs_resetRegisters_pipelineInv (s : State) : PipelineInv (forgetOutputs (resetRegisters s)) :=
  ⟨resetWith_nsym s.maxLen, nofun, nofun⟩

theorem step_keeps_pipelineInv {s t : State} (hs : PipelineInv s) (h : step s = .next t) : PipelineInv t :=
  step_keeps_storage (Inv := PipelineInv)
    (control := fun h hs => by rw [h]; exact hs)
    (registers := fun {s} _ => resetRegisters_pipelineInv s)
    (outputs := fun {s} _ => forgetOutputs_resetRegisters_pipelineInv s)
    (input := fun hs => hs)
    (ibuf := fun _ hs => hs)
    (writes := Writes.keeps_pipelineInv)
    hs h

/-- Settles O59: every group of a command's writes keeps the stages consistent, and a reset clears all three flags. -/
theorem stepKeepsThePipelineConsistent : Obligations.StepKeepsThePipelineConsistent :=
  fun _ _ => step_keeps_pipelineInv

/-! ### The results (R42, R47, R273) -/

/-- Publish writes the record of its own algorithm (R273). -/
theorem publishWrites_record (a : Alg) (out : List Byte) (bits n : Nat) (s : State) :
    (publishWrites a out bits n s).res[algId a] = resultRecord a bits n := by
  simp

/-- Publish keeps the records of the other algorithms (R273). -/
theorem publishWrites_other_record {a b : Alg} (h : b ≠ a) (out : List Byte) (bits n : Nat) (s : State) :
    (publishWrites a out bits n s).res[algId b] = s.res[algId b] := by
  have hne : (algId a).val ≠ (algId b).val := fun he => h (algId_inj (Fin.ext he)).symm
  simp [Vector.getElem_set_ne, hne]

theorem publishWrites_resultInv {s : State} (hs : ResultInv s) (a : Alg) {out : List Byte} (bits n : Nat)
    (hfit : out.length ≤ obufSize s) : ResultInv (publishWrites a out bits n s) := by
  obtain ⟨unwritten, named, -, -, -⟩ := hs
  refine ⟨fun b hb => ?unwritten, fun b hb => ?named, fun b hb => ?last, nofun, ?bytes⟩
  case unwritten =>
    by_cases hab : b = a
    · subst hab
      rw [publishWrites_record] at hb
      exact nomatch hb
    · rw [publishWrites_other_record hab] at hb ⊢
      exact unwritten b hb
  case named =>
    by_cases hab : b = a
    · subst hab
      rw [publishWrites_record]
      rfl
    · rw [publishWrites_other_record hab] at hb ⊢
      exact named b hb
  case last =>
    obtain rfl : a = b := Option.some.inj hb
    exact publishWrites_record a out bits n s
  case bytes =>
    rw [publishWrites_outBytes, BitVec.toNat_ofNat]
    exact (Nat.mod_le _ _).trans hfit

/-- Of the four groups of writes only Publish reaches a result. -/
theorem Writes.keeps_resultInv {s u : State} (hs : ResultInv s) (h : Writes s u) : ResultInv u := by
  cases h with
  | freq | tree | code => exact hs
  | publish a out bits n hfit => exact publishWrites_resultInv hs a bits n hfit

theorem resetRegisters_resultInv (s : State) : ResultInv (resetRegisters s) := resetWith_resultInv s.maxLen

theorem step_keeps_resultInv {s t : State} (hs : ResultInv s) (h : step s = .next t) : ResultInv t :=
  step_keeps_storage (Inv := ResultInv)
    (control := fun h hs => by rw [h]; exact hs)
    (registers := fun {s} _ => resetRegisters_resultInv s)
    (outputs := fun {s} _ => resetRegisters_resultInv s)
    (input := fun hs => hs)
    (ibuf := fun _ hs => hs)
    (writes := Writes.keeps_resultInv)
    hs h

/-- Settles O60: Publish writes the registers and the record of one algorithm from the same values, and nothing else but a
reset writes either. -/
theorem stepKeepsTheResultsConsistent : Obligations.StepKeepsTheResultsConsistent :=
  fun _ _ => step_keeps_resultInv

/-! ### What no command changes (R38, R98, R113) -/

theorem WritesChain.completeOk_sameButPipeline {s u : State} (h : WritesChain s u) (b : Bool) :
    SameButPipeline s (completeOk b u) := by
  rw [h.frame]
  rfl

theorem exec_sameButPipeline {i : Instr} {s t : State} (h : exec i s = .next t) : SameButPipeline s t := by
  rcases exec_next h with ⟨e, rfl⟩ | ⟨u, b, hc, rfl⟩
  · rfl
  · exact hc.completeOk_sameButPipeline b

theorem SameButPipeline.ie {s t : State} (h : SameButPipeline s t) : t.ie = s.ie := by rw [h]

theorem SameButPipeline.inByte {s t : State} (h : SameButPipeline s t) (j : Nat) : inByte t j = inByte s j := by
  rw [h]
  rfl

/-- Settles O20, from the chain of writes each command is. -/
theorem commandsKeepTheInput : Obligations.CommandsKeepTheInput :=
  fun _ _ _ h => ⟨exec_sameButPipeline h, (exec_sameButPipeline h).inByte⟩

/-! ### The STATUS register on the bus (R36) -/

theorem target_status (maxLen : Nat) : target maxLen .w32 0x00C = some (.reg .status) := target_w32 rfl (by decide)

theorem hostRead_status (s : State) : hostRead .w32 0x00C s = some (statusWord s, s) := by
  simp [hostRead, target_status, isResultReg, readReg]

theorem hostWrite_status (v : Word) (s : State) : hostWrite .w32 0x00C v s = some (writeStatus v s) := by
  simp [hostWrite, target_status, writeReg]

/-! ### The interrupt line (R49) -/

theorem irq_eq_false_of_done {s : State} (h : s.done = false) : irq s = false := by rw [irq, h, Bool.and_false]

theorem irq_eq_ie_of_done {s : State} (h : s.done = true) : irq s = s.ie := by rw [irq, h, Bool.and_true]

theorem exec_done {i : Instr} {s t : State} (h : exec i s = .next t) : t.done = true := by
  rcases exec_next h with ⟨e, rfl⟩ | ⟨u, b, -, rfl⟩ <;> rfl

theorem writeStatus_done_cleared {v : Word} (h : v.getLsbD 1 = true) (s : State) : (writeStatus v s).done = false := by
  rw [writeStatus_done, h, Bool.not_true, Bool.and_false]

@[simp] theorem softReset_done (s : State) : (softReset s).done = false := by
  rcases softReset_cases s with h | h <;> rw [h] <;> rfl

/-- Settles O53: completion sets DONE and keeps IE; each of the other events leaves DONE clear. -/
theorem interruptFollowsEnableAndDone : Obligations.InterruptFollowsEnableAndDone := by
  refine fun s => ⟨Bool.and_eq_true_iff, fun i t h => ?completed, fun v t h hv => ?cleared, fun w => ?accepted, ?soft,
    ?hard⟩
  case completed => rw [irq_eq_ie_of_done (exec_done h), (exec_sameButPipeline h).ie]
  case cleared =>
    obtain rfl : writeStatus v s = t := Option.some.inj ((hostWrite_status v s).symm.trans h)
    exact irq_eq_false_of_done (writeStatus_done_cleared hv s)
  case accepted => exact irq_eq_false_of_done (accept_done w s)
  case soft => exact irq_eq_false_of_done (softReset_done s)
  case hard => exact irq_eq_false_of_done rfl

/-! ### STATUS bit by bit (R36, R300) -/

theorem errField_none {s : State} (h : s.err = none) : errField s = 0 := by rw [errField, h]

theorem errField_some {s : State} {e : CmdError} (h : s.err = some e) : errField s = CmdError.code e := by
  rw [errField, h]

/-- The one-bit fields of STATUS (R36). -/
theorem statusWord_bits (s : State) :
    (statusWord s).getLsbD 0 = s.busy ∧ (statusWord s).getLsbD 1 = s.done ∧ (statusWord s).getLsbD 8 = s.ovr ∧
      (statusWord s).getLsbD 9 = s.empty ∧ (statusWord s).getLsbD 12 = s.freqValid ∧
      (statusWord s).getLsbD 13 = s.treeValid ∧ (statusWord s).getLsbD 14 = s.codeValid := by
  unfold statusWord
  refine ⟨?_, ?_, ?_, ?_, ?_, ?_, ?_⟩
  all_goals
    repeat rw [BitVec.getLsbD_append]
    simp

/-- STATUS.ERR (R36). -/
theorem statusWord_err (s : State) : (statusWord s).extractLsb' 4 4 = errField s := by
  unfold statusWord
  repeat rw [BitVec.extractLsb'_append_eq_of_le (by decide)]
  exact BitVec.extractLsb'_append_eq_right

/-- The reserved fields of STATUS (R36). -/
theorem statusWord_reserved (s : State) :
    (statusWord s).extractLsb' 2 2 = 0 ∧ (statusWord s).extractLsb' 10 2 = 0 ∧ (statusWord s).extractLsb' 15 17 = 0 := by
  unfold statusWord
  refine ⟨?_, ?_, ?_⟩
  all_goals repeat rw [BitVec.extractLsb'_append_eq_of_le (by decide)]
  · exact BitVec.extractLsb'_append_eq_right
  · exact BitVec.extractLsb'_append_eq_right
  · exact BitVec.extractLsb'_eq_self

/-- Settles O48, field by field. -/
theorem statusReadsAndClears : Obligations.StatusReadsAndClears := by
  intro s v
  obtain ⟨busy, done, ovr, empty, freqValid, treeValid, codeValid⟩ := statusWord_bits s
  obtain ⟨reserved₂, reserved₁₀, reserved₁₅⟩ := statusWord_reserved s
  have err := statusWord_err s
  have code {e : CmdError} (h : s.err = some e) : (statusWord s).extractLsb' 4 4 = CmdError.code e :=
    err.trans (errField_some h)
  exact ⟨hostRead_status s, busy, done, reserved₂, err, fun h => err.trans (errField_none h), code, code, code, code,
    code, ovr, empty, reserved₁₀, freqValid, treeValid, codeValid, reserved₁₅, hostWrite_status v s⟩

end Sys2Proof.Machine
end

section
/-! PROOFS. The memory family (20_memory.md): no command reads OBUF (R98) and only HENC can run out of it (R91, R97); the
address map, bus errors, and host reads and writes (R82 to R90, R305). -/

namespace Sys2Proof.Machine

/-! ### Which commands always complete (R91) -/

/-- HUFF's body always publishes its output (R154). -/
theorem huffBody_total {s : State} {n : Nat} (h : n ≤ s.maxLen) : ∃ u, huffBody n s = .ok u := by
  rcases Nat.eq_zero_or_pos n with rfl | hn
  · exact ⟨_, huffBody_empty s⟩
  · obtain ⟨_, _, -, -, -, -, -, -, hu⟩ := huffBody_ok h hn.ne'
    exact ⟨_, hu⟩

/-- BENCH's four bodies always publish their outputs (R276). -/
theorem benchBody_total {s : State} {n : Nat} (h : n ≤ s.maxLen) (hn : n < 2 ^ 32) : ∃ v, benchBody n s = .ok v := by
  obtain ⟨u, hu⟩ := huffBody_total h
  have hcap : u.maxLen = s.maxLen := by rw [(huffBody_chain hn hu).frame]
  exact benchBody_ok hu (hcap ▸ h)

/-- A command that checks LEN completes when what follows the check always answers a state (R115, R300). -/
theorem finish_total {s : State} {g : Nat → State → Run State}
    (hg : s.len.toNat ≤ s.maxLen → ∃ u, g s.len.toNat s = .ok u) :
    ∃ t, finish s (do let n ← inputLen s; let t ← g n s; .ok (t, n == 0)) = .next t := by
  rcases Nat.lt_or_ge s.maxLen s.len.toNat with hlen | hlen
  · exact ⟨_, finish_lenRange hlen⟩
  · obtain ⟨u, hu⟩ := hg hlen
    exact ⟨_, finish_body hlen hu⟩

/-- BUILD without a valid table (R151). -/
theorem execBuild_seq {s : State} (hv : s.freqValid = false) : execBuild s = .next (completeError .seq s) := by
  rw [execBuild, if_pos hv, finish_raise]

/-- BUILD on a table that counts nothing (R151). -/
theorem execBuild_emptyTable {s : State} (hv : s.freqValid = true) (hm : s.nsym = 0) :
    execBuild s = .next (completeError .emptyTable s) := by
  rw [execBuild, if_neg (by simp [hv]), if_pos hm, finish_raise]

/-- BUILD where NSYM is not 0 and yet the table has no tree (R141). -/
theorem execBuild_emptyQueue {s : State} (hv : s.freqValid = true) (hm : s.nsym ≠ 0)
    (ht : buildStep (freqTable s) = none) : execBuild s = .fault .emptyQueue := by
  have ht : buildStep (s.freq.toList.map BitVec.toNat) = none := ht
  rw [execBuild, if_neg (by simp [hv]), if_neg hm, ht]
  rfl

/-- BUILD's outcomes, in the order it checks for them (R151). -/
theorem execBuild_cases (s : State) :
    (s.freqValid = false ∧ execBuild s = .next (completeError .seq s)) ∨
    (s.freqValid = true ∧ s.nsym = 0 ∧ execBuild s = .next (completeError .emptyTable s)) ∨
    (s.freqValid = true ∧ s.nsym ≠ 0 ∧ buildStep (freqTable s) = none ∧ execBuild s = .fault .emptyQueue) ∨
    ∃ tree, s.freqValid = true ∧ s.nsym ≠ 0 ∧ buildStep (freqTable s) = some tree ∧
      execBuild s = .next (completeOk false (setTree tree s)) := by
  cases hv : s.freqValid with
  | false => exact .inl ⟨rfl, execBuild_seq hv⟩
  | true =>
    by_cases hm : s.nsym = 0
    · exact .inr (.inl ⟨rfl, hm, execBuild_emptyTable hv hm⟩)
    · cases ht : buildStep (freqTable s) with
      | none => exact .inr (.inr (.inl ⟨rfl, hm, rfl, execBuild_emptyQueue hv hm ht⟩))
      | some tree => exact .inr (.inr (.inr ⟨tree, rfl, hm, rfl, execBuild_ok hv hm ht⟩))

/-- CODEGEN without a valid tree (R152). -/
theorem execCodegen_seq {s : State} (hv : s.treeValid = false) : execCodegen s = .next (completeError .seq s) := by
  rw [execCodegen, if_pos hv, finish_raise]

/-- CODEGEN where NODE holds no tree (R152). -/
theorem execCodegen_brokenTree {s : State} (hv : s.treeValid = true)
    (hc : codegenStep (nodeAt s) s.root.toNat = none) : execCodegen s = .fault .brokenTree := by
  rw [execCodegen, if_neg (by simp [hv]), hc]
  rfl

/-- CODEGEN's outcomes, in the order it checks for them (R152). -/
theorem execCodegen_cases (s : State) :
    (s.treeValid = false ∧ execCodegen s = .next (completeError .seq s)) ∨
    (s.treeValid = true ∧ codegenStep (nodeAt s) s.root.toNat = none ∧ execCodegen s = .fault .brokenTree) ∨
    ∃ c, s.treeValid = true ∧ codegenStep (nodeAt s) s.root.toNat = some c ∧
      execCodegen s = .next (completeOk false (setCode c s)) := by
  cases hv : s.treeValid with
  | false => exact .inl ⟨rfl, execCodegen_seq hv⟩
  | true =>
    cases hc : codegenStep (nodeAt s) s.root.toNat with
    | none => exact .inr (.inl ⟨rfl, rfl, execCodegen_brokenTree hv hc⟩)
    | some c => exact .inr (.inr ⟨c, rfl, rfl, execCodegen_ok hv hc⟩)

/-- Settles O41: BUILD and CODEGEN have other faults, and every other command but HENC completes in every state. -/
theorem onlyHencCanOverflowTheOutputBuffer : Obligations.OnlyHencCanOverflowTheOutputBuffer := by
  intro i s hi hf
  have completes {r : Host.Outcome State Fault Refusal} (hr : ∃ t, r = .next t) : r ≠ .fault .outByteRange := by
    obtain ⟨t, rfl⟩ := hr
    exact nofun
  cases i with
  | henc => exact hi rfl
  | nop => exact nomatch hf
  | build =>
    rcases execBuild_cases s with ⟨-, h⟩ | ⟨-, -, h⟩ | ⟨-, -, -, h⟩ | ⟨tree, -, -, -, h⟩ <;>
      exact nomatch h.symm.trans hf
  | codegen =>
    rcases execCodegen_cases s with ⟨-, h⟩ | ⟨-, -, h⟩ | ⟨c, -, -, h⟩ <;> exact nomatch h.symm.trans hf
  | freq =>
    rcases Nat.lt_or_ge s.maxLen s.len.toNat with hlen | hlen
    · exact completes ⟨_, finish_lenRange hlen⟩ hf
    · exact completes ⟨_, execFreq_ok hlen⟩ hf
  | huff => exact completes (finish_total huffBody_total) hf
  | rle => exact completes (finish_total fun h => ⟨_, rleBody_ok h⟩) hf
  | delta => exact completes (finish_total fun h => ⟨_, deltaBody_ok h⟩) hf
  | lz77 => exact completes (finish_total fun h => ⟨_, lz77Body_ok h⟩) hf
  | bench => exact completes (finish_total fun h => benchBody_total h s.len.isLt) hf

/-! ### Commands on other contents of OBUF (R98) -/

/-- `s` with other contents of OBUF: written bytes `m`, and unspecified ones of number `fill`. -/
def State.withOutput (m : Memory) (fill : Nat) (s : State) : State := { s with obuf := m, outFill := fill }

@[simp] theorem inputLen_withOutput (m : Memory) (fill : Nat) (s : State) : inputLen (s.withOutput m fill) = inputLen s := rfl
@[simp] theorem inputBytes_withOutput (m : Memory) (fill : Nat) (s : State) : inputBytes (s.withOutput m fill) = inputBytes s := rfl
@[simp] theorem obufSize_withOutput (m : Memory) (fill : Nat) (s : State) : obufSize (s.withOutput m fill) = obufSize s := rfl

/-- `m` after each of `outs` in turn has been stored from index 0 on. -/
def Memory.overwrite (m : Memory) (outs : List (List Byte)) : Memory := outs.foldl (fun m out => m.writeBytes 0 out) m

theorem overwrite_append (m : Memory) (outs outs' : List (List Byte)) :
    m.overwrite (outs ++ outs') = (m.overwrite outs).overwrite outs' := List.foldl_append

/-- Two memories that the same outputs overwrite agree wherever an output reached, and are as before elsewhere. -/
theorem read_overwrite (outs : List (List Byte)) : ∀ (m₁ m₂ : Memory) (j : Nat),
    (m₁.overwrite outs).read j = (m₂.overwrite outs).read j ∨
      ((m₁.overwrite outs).read j = m₁.read j ∧ (m₂.overwrite outs).read j = m₂.read j) := by
  induction outs with
  | nil => exact fun _ _ _ => .inr ⟨rfl, rfl⟩
  | cons out outs ih =>
    intro m₁ m₂ j
    rcases ih (m₁.writeBytes 0 out) (m₂.writeBytes 0 out) j with h | ⟨h₁, h₂⟩
    · exact .inl h
    · change (m₁.overwrite (out :: outs)).read j = _ at h₁
      change (m₂.overwrite (out :: outs)).read j = _ at h₂
      rw [h₁, h₂, read_writeBytes, read_writeBytes]
      split
      · exact .inl rfl
      · exact .inr ⟨rfl, rfl⟩

/-- What `f` answers depends on OBUF only in that OBUF is overwritten with outputs, which depend on the rest of the state.
`put` gives an answer of `f` other contents of OBUF. -/
def OutputBlind {α : Type} (put : Memory → Nat → α → α) (f : State → Run α) : Prop :=
  ∀ s, ∃ outs, ∀ m fill, f (s.withOutput m fill) = (f s).map (put (m.overwrite outs) fill)

/-- A result of a command (a state and its EMPTY) with other contents of OBUF. -/
def resultWithOutput (m : Memory) (fill : Nat) : State × Bool → State × Bool := Prod.map (State.withOutput m fill) id

theorem OutputBlind.error {α : Type} {put : Memory → Nat → α → α} (e : Stop) : OutputBlind put fun _ => .error e :=
  fun _ => ⟨[], fun _ _ => rfl⟩

theorem OutputBlind.result (e : Bool) : OutputBlind resultWithOutput fun s => .ok (s, e) := fun _ => ⟨[], fun _ _ => rfl⟩

/-- One body after another overwrites OBUF with the outputs of both. -/
theorem OutputBlind.bind {α : Type} {put : Memory → Nat → α → α} {f : State → Run State} {g : State → Run α}
    (hf : OutputBlind State.withOutput f) (hg : OutputBlind put g) : OutputBlind put fun s => f s >>= g := by
  intro s
  obtain ⟨outs, hs⟩ := hf s
  cases hr : f s with
  | error e => exact ⟨[], fun m fill => by simp only [hs, hr]; rfl⟩
  | ok u =>
    obtain ⟨outs', hu⟩ := hg u
    refine ⟨outs ++ outs', fun m fill => ?_⟩
    simp only [hs, hr, overwrite_append]
    exact hu _ fill

/-- A condition on what lies outside OBUF. -/
theorem OutputBlind.ite {α : Type} {put : Memory → Nat → α → α} {p : State → Prop} [DecidablePred p]
    {f g : State → Run α} (hp : ∀ s m fill, p (s.withOutput m fill) ↔ p s) (hf : OutputBlind put f)
    (hg : OutputBlind put g) : OutputBlind put fun s => if p s then f s else g s := by
  intro s
  by_cases h : p s
  · simp only [hp, h, if_true]
    exact hf s
  · simp only [hp, h, if_false]
    exact hg s

/-- The LEN check reads LEN and MAX_LEN alone. -/
theorem OutputBlind.checkLen {α : Type} {put : Memory → Nat → α → α} {f : Nat → State → Run α}
    (hf : ∀ n, OutputBlind put (f n)) : OutputBlind put (fun s => do let n ← inputLen s; f n s) := by
  intro s
  cases hr : inputLen s with
  | error e => exact ⟨[], fun m fill => by simp only [inputLen_withOutput, hr]; rfl⟩
  | ok n =>
    obtain ⟨outs, hs⟩ := hf n s
    exact ⟨outs, fun m fill => by simp only [inputLen_withOutput, hr]; exact hs m fill⟩

/-- Publish overwrites OBUF with its output (R273). -/
theorem publish_withOutput (a : Alg) (out : List Byte) (bits n : Nat) (s : State) (m : Memory) (fill : Nat) :
    publish a out bits n (s.withOutput m fill) =
      (publish a out bits n s).map (State.withOutput (m.overwrite [out]) fill) := by
  unfold publish
  rw [obufSize_withOutput]
  split <;> rfl

/-- A body that publishes an output made of what it reads outside OBUF. -/
theorem OutputBlind.publish (a : Alg) {out : State → List Byte} {bits : State → Nat} (n : Nat)
    (hout : ∀ s m fill, out (s.withOutput m fill) = out s) (hbits : ∀ s m fill, bits (s.withOutput m fill) = bits s) :
    OutputBlind State.withOutput fun s => publish a (out s) (bits s) n s :=
  fun s => ⟨[out s], fun m fill => by simp only [hout, hbits]; exact publish_withOutput a (out s) (bits s) n s m fill⟩

theorem rleBody_blind (n : Nat) : OutputBlind State.withOutput (rleBody n) := by
  unfold rleBody
  split
  · exact .publish .rle 0 (fun _ _ _ => rfl) fun _ _ _ => rfl
  · exact .publish .rle n (fun _ _ _ => rfl) fun _ _ _ => rfl

theorem deltaBody_blind (n : Nat) : OutputBlind State.withOutput (deltaBody n) := by
  unfold deltaBody
  split
  · exact .publish .delta 0 (fun _ _ _ => rfl) fun _ _ _ => rfl
  · exact .publish .delta n (fun _ _ _ => rfl) fun _ _ _ => rfl

theorem lz77Body_blind (n : Nat) : OutputBlind State.withOutput (lz77Body n) := by
  unfold lz77Body
  split
  · exact .publish .lz77 0 (fun _ _ _ => rfl) fun _ _ _ => rfl
  · exact .publish .lz77 n (fun _ _ _ => rfl) fun _ _ _ => rfl

theorem publishHenc_withOutput (c : Vector Code 256) (n : Nat) (s : State) (m : Memory) (fill : Nat) :
    publishHenc c n (s.withOutput m fill) = (publishHenc c n s).map
      (State.withOutput (m.overwrite [pack (hencBits c (inputBytes s n))]) fill) :=
  publish_withOutput ..

/-- The pipeline stages leave OBUF alone, and the last publishes (R154). -/
theorem huffBody_blind (n : Nat) : OutputBlind State.withOutput (huffBody n) := by
  intro s
  unfold huffBody
  simp only [inputBytes_withOutput]
  split
  · exact ⟨_, fun m fill => publish_withOutput .huffman [] 0 0 (setFreq (freqStep (inputBytes s n)) s) m fill⟩
  · split
    · exact ⟨[], fun m fill => rfl⟩
    · next t _ =>
      split
      · exact ⟨[], fun m fill => rfl⟩
      · next c _ =>
        exact ⟨_, publishHenc_withOutput c n (setCode c (setTree t (setFreq (freqStep (inputBytes s n)) s)))⟩

theorem benchBody_blind (n : Nat) : OutputBlind State.withOutput (benchBody n) :=
  (huffBody_blind n).bind <| (rleBody_blind n).bind <| (deltaBody_blind n).bind <| lz77Body_blind n

/-- A command is finished alike on both contents of OBUF. -/
theorem OutputBlind.finish {r : State → Run (State × Bool)} (h : OutputBlind resultWithOutput r) (s : State) :
    ∃ outs, ∀ m fill t, finish s (r s) = .next t →
      finish (s.withOutput m fill) (r (s.withOutput m fill)) = .next (t.withOutput (m.overwrite outs) fill) := by
  obtain ⟨outs, hs⟩ := h s
  match hr : r s with
  | .error (.fault f) => exact ⟨[], fun _ _ _ ht => nomatch ht⟩
  | .error (.error e) =>
    refine ⟨[], fun m fill t ht => ?_⟩
    obtain rfl := Host.Outcome.next.inj ht
    rw [hs, hr]
    rfl
  | .ok (u, e) =>
    refine ⟨outs, fun m fill t ht => ?_⟩
    obtain rfl := Host.Outcome.next.inj ht
    rw [hs, hr]
    rfl

/-- What an encoder command does: the LEN check, then its body (R115). -/
theorem OutputBlind.encoder {g : Nat → State → Run State} (hg : ∀ n, OutputBlind State.withOutput (g n)) :
    OutputBlind resultWithOutput (fun s => do let n ← inputLen s; let t ← g n s; .ok (t, n == 0)) :=
  .checkLen fun n => (hg n).bind (.result (n == 0))

/-- HENC after its LEN check (R153). -/
theorem henc_blind (n : Nat) : OutputBlind resultWithOutput (fun s =>
    if s.codeValid = false then raise .seq
    else if n = 0 then do
      let t ← publish .huffman [] 0 0 s
      .ok (t, true)
    else if (inputBytes s n).any (fun b => (codeOf s.code b).isEmpty) then raise .noCode
    else do
      let t ← publishHenc s.code n s
      .ok (t, false)) :=
  .ite (fun _ _ _ => Iff.rfl) (.error _) <|
    .ite (fun _ _ _ => Iff.rfl) (.bind (.publish .huffman 0 (fun _ _ _ => rfl) fun _ _ _ => rfl) (.result true)) <|
      .ite (fun _ _ _ => Iff.rfl) (.error _) <|
        .bind (fun s => ⟨_, publishHenc_withOutput s.code n s⟩) (.result false)

/-- FREQ neither reads nor writes OBUF (R150). -/
theorem execFreq_withOutput {s t : State} (h : execFreq s = .next t) (m : Memory) (fill : Nat) :
    execFreq (s.withOutput m fill) = .next (t.withOutput m fill) := by
  rcases Nat.lt_or_ge s.maxLen s.len.toNat with hlen | hlen
  · obtain rfl := Host.Outcome.next.inj ((finish_lenRange hlen).symm.trans h)
    exact finish_lenRange hlen
  · obtain rfl := Host.Outcome.next.inj ((execFreq_ok hlen).symm.trans h)
    exact execFreq_ok (s := s.withOutput m fill) hlen

/-- BUILD neither reads nor writes OBUF (R151). -/
theorem execBuild_withOutput {s t : State} (h : execBuild s = .next t) (m : Memory) (fill : Nat) :
    execBuild (s.withOutput m fill) = .next (t.withOutput m fill) := by
  rcases execBuild_cases s with ⟨hv, hs⟩ | ⟨hv, hm, hs⟩ | ⟨-, -, -, hs⟩ | ⟨tree, hv, hm, ht, hs⟩ <;>
    cases hs.symm.trans h
  · exact execBuild_seq (s := s.withOutput m fill) hv
  · exact execBuild_emptyTable (s := s.withOutput m fill) hv hm
  · exact execBuild_ok (s := s.withOutput m fill) hv hm ht

/-- CODEGEN neither reads nor writes OBUF (R152). -/
theorem execCodegen_withOutput {s t : State} (h : execCodegen s = .next t) (m : Memory) (fill : Nat) :
    execCodegen (s.withOutput m fill) = .next (t.withOutput m fill) := by
  rcases execCodegen_cases s with ⟨hv, hs⟩ | ⟨-, -, hs⟩ | ⟨c, hv, hc, hs⟩ <;> cases hs.symm.trans h
  · exact execCodegen_seq (s := s.withOutput m fill) hv
  · exact execCodegen_ok (s := s.withOutput m fill) hv hc

/-- Every command's outcome on other contents of OBUF: the same outputs overwrite those. -/
theorem exec_withOutput (i : Instr) (s : State) : ∃ outs, ∀ m fill t, exec i s = .next t →
    exec i (s.withOutput m fill) = .next (t.withOutput (m.overwrite outs) fill) := by
  cases i with
  | nop => exact OutputBlind.finish (.result false) s
  | freq => exact ⟨[], fun m fill _ h => execFreq_withOutput h m fill⟩
  | build => exact ⟨[], fun m fill _ h => execBuild_withOutput h m fill⟩
  | codegen => exact ⟨[], fun m fill _ h => execCodegen_withOutput h m fill⟩
  | henc => exact OutputBlind.finish (.checkLen henc_blind) s
  | huff => exact (OutputBlind.encoder huffBody_blind).finish s
  | rle => exact (OutputBlind.encoder rleBody_blind).finish s
  | delta => exact (OutputBlind.encoder deltaBody_blind).finish s
  | lz77 => exact (OutputBlind.encoder lz77Body_blind).finish s
  | bench => exact (OutputBlind.encoder benchBody_blind).finish s

/-- Settles O24: both runs overwrite OBUF with the same outputs. -/
theorem commandsDoNotReadTheOutputBuffer : Obligations.CommandsDoNotReadTheOutputBuffer := by
  intro i s t m fill h
  obtain ⟨outs, hrun⟩ := exec_withOutput i s
  have ht : t.obuf = s.obuf.overwrite outs :=
    congrArg State.obuf (Host.Outcome.next.inj (h.symm.trans (hrun s.obuf s.outFill t h)))
  exact ⟨m.overwrite outs, hrun m fill t h, fun j => ht ▸ read_overwrite outs m s.obuf j⟩


/-! ### The address map (R82 to R85) -/

/-- The registers from ID to RATIO_DEN lie one word apart from offset 0 on (R32, R82). -/
theorem target_low {k : Nat} (hk : k < 64) (maxLen : Nat) : target maxLen .w32 (4 * k) = (lowReg k).map .reg := by
  have hlow : 4 * k < ibufBase := by
    simp only [ibufBase]
    omega
  rw [target_w32 (by omega) hlow, regAt, if_pos (by omega), Nat.mul_div_cancel_left k (by decide)]

/-- A table entry of the map, as an aligned 32-bit access reaches it (R82, R83). -/
theorem target_table {off : Nat} {r : Reg} (hr : regAt off = some r) (hal : off % 4 = 0) (hlow : off < 0x100000)
    (maxLen : Nat) : target maxLen .w32 off = some (.reg r) := by
  rw [target_w32 hal hlow, hr, Option.map_some]

/-- Alignment within a memory is alignment in the window: both memories lie at multiples of every width (R82, R87). -/
theorem ibufBase_add_mod (w : Width) (j : Nat) : (ibufBase + j) % w.bytes = j % w.bytes := by
  cases w <;> simp only [ibufBase, Width.bytes] <;> omega

theorem obufBase_add_mod (w : Width) (j : Nat) : (obufBase + j) % w.bytes = j % w.bytes := by
  cases w <;> simp only [obufBase, Width.bytes] <;> omega

theorem Width.bytes_pos (w : Width) : 0 < w.bytes := by cases w <;> decide

/-- An aligned access within capacity at IBUF[j] (R84). -/
theorem target_ibuf_of_fits {maxLen j : Nat} {w : Width} (hmax : maxLen ≤ Config.maxLenLimit) (hj : j % w.bytes = 0)
    (hfit : j + w.bytes ≤ maxLen) : target maxLen w (ibufBase + j) = some (.ibuf j) := by
  have hpos := Width.bytes_pos w
  have hwindow : ibufBase + j < obufBase := by
    simp only [Config.maxLenLimit] at hmax
    simp only [ibufBase, obufBase]
    omega
  rw [target_ibuf_window (by rwa [ibufBase_add_mod]) (Nat.le_add_right ..) hwindow, Nat.add_sub_cancel_left, if_pos hfit]

/-- An aligned access within capacity at OBUF[j] (R85). -/
theorem target_obuf_of_fits {maxLen j : Nat} {w : Width} (hj : j % w.bytes = 0) (hfit : j + w.bytes ≤ 3 * maxLen) :
    target maxLen w (obufBase + j) = some (.obuf j) := by
  rw [target_obuf_window (by rwa [obufBase_add_mod]) (Nat.le_add_right ..), Nat.add_sub_cancel_left, if_pos hfit]

/-- Settles O45, range by range of the map. -/
theorem addressMapIsAsListed : Obligations.AddressMapIsAsListed := by
  refine ⟨fun maxLen => ?low, fun maxLen a w => ?res, fun maxLen s => ⟨?freq, ?codeLen⟩, fun maxLen s w => ?codeBits,
    fun maxLen k w => ?node, fun _ _ _ => target_ibuf_of_fits, fun _ _ _ => target_obuf_of_fits⟩
  case low =>
    rw [List.map_congr_left fun k hk => target_low (Nat.lt_trans (List.mem_range.1 hk) (by decide)) maxLen]
    rfl
  case res => exact target_table (regAt_res a w) (by omega) (by omega) maxLen
  case freq => exact target_table (regAt_freq s) (by omega) (by omega) maxLen
  case codeLen => exact target_table (regAt_codeLen s) (by omega) (by omega) maxLen
  case codeBits => exact target_table (regAt_codeBits s w) (by omega) (by omega) maxLen
  case node => exact target_table (regAt_node k w) (by omega) (by omega) maxLen

/-! ### Bus errors (R83, R87, R90, R305) -/

/-- Beyond MAX_LEN bytes the IBUF window reaches nothing (R84). -/
theorem target_ibuf_beyond {maxLen off : Nat} {w : Width} (h₁ : ibufBase ≤ off) (h₂ : off < obufBase)
    (hbeyond : ibufBase + maxLen < off + w.bytes) : target maxLen w off = none := by
  by_cases hal : off % w.bytes = 0
  · rw [target_ibuf_window hal h₁ h₂, if_neg (by omega)]
  · exact target_misaligned hal

/-- Beyond OBUF_SIZE bytes the OBUF window reaches nothing (R85). -/
theorem target_obuf_beyond {maxLen off : Nat} {w : Width} (h₁ : obufBase ≤ off)
    (hbeyond : obufBase + 3 * maxLen < off + w.bytes) : target maxLen w off = none := by
  by_cases hal : off % w.bytes = 0
  · rw [target_obuf_window hal h₁, if_neg (by omega)]
  · exact target_misaligned hal

/-- The offsets that the map reserves reach nothing at any width (R82, R83). -/
theorem target_reserved {maxLen off : Nat} {w : Width} (h : off < ibufBase)
    (hgap : (0x38 ≤ off ∧ off < 0x100) ∨ (0x140 ≤ off ∧ off < 0x400) ∨ (0xC00 ≤ off ∧ off < 0x2000) ∨ 0x5FF0 ≤ off) :
    target maxLen w off = none := by
  by_cases hw : w = .w32
  · subst hw
    by_cases hal : off % 4 = 0
    · rw [target_w32 hal h, regAt_reserved hgap, Option.map_none]
    · exact target_misaligned hal
  · exact target_subword hw h

/-- A read is rejected exactly where its access reaches nothing (R90). -/
theorem hostRead_eq_none_iff {w : Width} {off : Nat} {s : State} :
    hostRead w off s = none ↔ target s.maxLen w off = none := by
  unfold hostRead
  split <;> simp [*]

/-- A write is rejected exactly where its access reaches nothing (R90). -/
theorem hostWrite_eq_none_iff {w : Width} {off : Nat} {v : Word} {s : State} :
    hostWrite w off v s = none ↔ target s.maxLen w off = none := by
  unfold hostWrite
  split <;> simp [*]

/-- An access that reaches nothing is a bus error (R90, R305). -/
theorem busAccess_rejected {a : Access} {s : State} (hwin : a.offset < windowSize)
    (h : target s.maxLen a.width a.offset = none) : busAccess a s = .next (rejectAccess a s) := by
  unfold busAccess
  rw [if_pos hwin]
  cases a with
  | read w off => simp only [show hostRead w off s = none from hostRead_eq_none_iff.2 h]
  | write w off v => simp only [show hostWrite w off v s = none from hostWrite_eq_none_iff.2 h]

/-- What a read on the bus can leave: the fault of a rejected one, or the data handed to the host (R89, R90). -/
theorem busAccess_read_next {w : Width} {off : Nat} {s t : State} (h : busAccess (.read w off) s = .next t) :
    (hostRead w off s = none ∧ t = rejectAccess (.read w off) s) ∨
      ∃ v u, hostRead w off s = some (v, u) ∧ t = recordRead w off v u := by
  unfold busAccess at h
  split at h
  · cases hr : hostRead w off s with
    | none =>
      simp only [hr] at h
      exact .inl ⟨rfl, (Host.Outcome.next.inj h).symm⟩
    | some p =>
      simp only [hr] at h
      exact .inr ⟨p.1, p.2, rfl, (Host.Outcome.next.inj h).symm⟩
  · exact nomatch h

/-- What a write on the bus can leave: the fault of a rejected one, or the write's effect (R90). -/
theorem busAccess_write_next {w : Width} {off : Nat} {v : Word} {s t : State}
    (h : busAccess (.write w off v) s = .next t) :
    (hostWrite w off v s = none ∧ t = rejectAccess (.write w off v) s) ∨ hostWrite w off v s = some t := by
  unfold busAccess at h
  split at h
  · cases hw : hostWrite w off v s with
    | none =>
      simp only [hw] at h
      exact .inl ⟨rfl, (Host.Outcome.next.inj h).symm⟩
    | some u =>
      simp only [hw] at h
      exact .inr (congrArg some (Host.Outcome.next.inj h))
  · exact nomatch h

/-- A host read leaves the host's faults alone (R89). -/
theorem hostRead_hostFaults {w : Width} {off : Nat} {v : Word} {s t : State} (h : hostRead w off s = some (v, t)) :
    t.hostFaults = s.hostFaults := by
  rcases hostRead_state h with rfl | rfl <;> rfl

/-- A host write leaves the host's faults alone: a bus error is not its doing (R90). -/
theorem hostWrite_hostFaults {w : Width} {off : Nat} {v : Word} {s t : State} (h : hostWrite w off v s = some t) :
    t.hostFaults = s.hostFaults := by
  rcases hostWrite_cases h with rfl | rfl | rfl | ⟨-, rfl⟩ | ⟨-, rfl⟩ | ⟨-, rfl⟩ | ⟨-, j, -, rfl⟩
  case inr.inl =>
    unfold writeCtrl
    split
    · rcases softReset_cases s with hr | hr <;> rw [hr] <;> rfl
    · rfl
  all_goals rfl

/-- An access either is rejected and leaves its own fault, or reaches something and leaves the faults as they were
(R90, R305). -/
theorem busAccess_hostFaults {a : Access} {s t : State} (h : busAccess a s = .next t) :
    (target s.maxLen a.width a.offset = none ∧ t = rejectAccess a s) ∨
      (target s.maxLen a.width a.offset ≠ none ∧ t.hostFaults = s.hostFaults) := by
  cases a with
  | read w off =>
    rcases busAccess_read_next h with ⟨hr, rfl⟩ | ⟨v, u, hr, rfl⟩
    · exact .inl ⟨hostRead_eq_none_iff.1 hr, rfl⟩
    · exact .inr ⟨fun hn => (nomatch hr.symm.trans (hostRead_eq_none_iff.2 hn)),
        (recordRead_hostFaults w off v u).trans (hostRead_hostFaults hr)⟩
  | write w off v =>
    rcases busAccess_write_next h with ⟨hw, rfl⟩ | hw
    · exact .inl ⟨hostWrite_eq_none_iff.1 hw, rfl⟩
    · exact .inr ⟨fun hn => (nomatch hw.symm.trans (hostWrite_eq_none_iff.2 hn)), hostWrite_hostFaults hw⟩

theorem busAccess_keeps_faults {a : Access} {s t : State} (h : busAccess a s = .next t) :
    s.hostFaults <:+ t.hostFaults := by
  rcases busAccess_hostFaults h with ⟨-, rfl⟩ | ⟨-, ht⟩
  · exact List.suffix_cons a s.hostFaults
  · exact ht ▸ List.suffix_rfl

/-- No host operation clears a fault, a hardware reset included (R305). -/
theorem runHostOp_keeps_faults {op : HostOp} {s t : State} (h : runHostOp op s = .next t) :
    s.hostFaults <:+ t.hostFaults := by
  cases op with
  | access a => exact busAccess_keeps_faults h
  | waitDone =>
    change waitDone s = .next t at h
    unfold waitDone at h
    split at h
    · obtain rfl := Host.Outcome.next.inj h
      exact List.suffix_rfl
    · exact busAccess_keeps_faults h
  | readOut =>
    change readOut s = .next t at h
    unfold readOut at h
    split at h
    · obtain rfl := Host.Outcome.next.inj h
      exact List.suffix_cons _ s.hostFaults
    · next hr =>
      obtain rfl := Host.Outcome.next.inj h
      exact (hostRead_hostFaults hr).symm ▸ List.suffix_rfl
  | hardReset =>
    obtain rfl := Host.Outcome.next.inj h
    exact List.suffix_rfl

theorem hostStep_keeps_faults {s t : State} (h : hostStep s = .next t) : s.hostFaults <:+ t.hostFaults := by
  unfold hostStep at h
  split at h
  · obtain rfl := Host.Outcome.next.inj h
    exact List.suffix_rfl
  · next op rest _ => exact runHostOp_keeps_faults (s := { s with host := rest }) h

theorem SameButPipeline.hostFaults {s t : State} (h : SameButPipeline s t) : t.hostFaults = s.hostFaults := by rw [h]

/-- No step clears a fault of the host (R305). -/
theorem step_keeps_faults {s t : State} (h : step s = .next t) : s.hostFaults <:+ t.hostFaults := by
  rcases step_next h with h | h | ⟨w, i, -, -, h⟩ | ⟨w, -, -, rfl⟩
  · exact hostStep_keeps_faults h
  · exact hostStep_keeps_faults (s := popTurn s) h
  · exact (exec_sameButPipeline h).hostFaults ▸ List.suffix_rfl
  · exact List.suffix_rfl

/-- Settles O46: each kind of rejected access reaches nothing, and what is rejected leaves its fault and no more. -/
theorem rejectedAccessesAreBusErrors : Obligations.RejectedAccessesAreBusErrors := by
  refine ⟨fun s a _ hwin h => busAccess_rejected hwin ?rejected, fun s t a x hx h => ?mapped,
    fun _ _ => step_keeps_faults⟩
  case rejected =>
    rcases h with h | ⟨hlow, hw⟩ | hgap | hgap | hgap | ⟨hgap, hlow⟩ | ⟨h₁, h₂, hbeyond⟩ | ⟨h₁, hbeyond⟩
    · exact target_misaligned h
    · exact target_subword hw hlow
    · exact target_reserved (hgap.2.trans (by decide)) (.inl hgap)
    · exact target_reserved (hgap.2.trans (by decide)) (.inr (.inl hgap))
    · exact target_reserved (hgap.2.trans (by decide)) (.inr (.inr (.inl hgap)))
    · exact target_reserved hlow (.inr (.inr (.inr hgap)))
    · exact target_ibuf_beyond h₁ h₂ hbeyond
    · exact target_obuf_beyond h₁ hbeyond
  case mapped =>
    rcases busAccess_hostFaults h with ⟨hn, -⟩ | ⟨-, ht⟩
    · exact nomatch hx.symm.trans hn
    · exact ht

/-! ### What a mapped access does (R84 to R88, R351, R352) -/

section Mapped

variable {w : Width} {off j : Nat} {r : Reg} {v : Word} {s : State}

theorem hostWrite_reg (h : target s.maxLen w off = some (.reg r)) : hostWrite w off v s = some (writeReg v s r) := by
  simp only [hostWrite, h]

theorem hostWrite_obuf (h : target s.maxLen w off = some (.obuf j)) : hostWrite w off v s = some s := by
  simp only [hostWrite, h]

theorem hostRead_ibuf (h : target s.maxLen w off = some (.ibuf j)) : hostRead w off s =
    some (BitVec.ofNat 32 (littleEndian ((List.range w.bytes).map fun i => inByte s (j + i))), s) := by
  simp only [hostRead, h]

/-- Of the block's own registers a read is exact at any time, and of the others while no command runs (R352). -/
theorem hostRead_reg_exact (h : target s.maxLen w off = some (.reg r)) (hr : s.busy = false ∨ isResultReg r = false) :
    hostRead w off s = some (readReg s r, s) := by
  have hr : (s.busy && isResultReg r) = false := Bool.and_eq_false_iff.2 hr
  simp only [hostRead, h, hr, Bool.false_eq_true, if_false]

theorem hostRead_obuf_idle (h : target s.maxLen w off = some (.obuf j)) (hb : s.busy = false) : hostRead w off s =
    some (BitVec.ofNat 32 (littleEndian ((List.range w.bytes).map fun i => outByte s (j + i))), s) := by
  simp only [hostRead, h, hb, Bool.false_eq_true, if_false]

end Mapped

/-- Every register but CTRL, STATUS, CMD and LEN ignores a write (R88). -/
theorem writeReg_readOnly {r : Reg} (hctrl : r ≠ .ctrl) (hstatus : r ≠ .status) (hcmd : r ≠ .cmd) (hlen : r ≠ .len)
    (v : Word) (s : State) : writeReg v s r = s := by
  cases r with
  | ctrl => exact absurd rfl hctrl
  | status => exact absurd rfl hstatus
  | cmd => exact absurd rfl hcmd
  | len => exact absurd rfl hlen
  | _ => rfl

theorem target_cmd (maxLen : Nat) : target maxLen .w32 0x010 = some (.reg .cmd) := target_w32 rfl (by decide)

/-- Settles O49, from what a write to a register and to OBUF does. -/
theorem readOnlyWritesAreIgnored : Obligations.ReadOnlyWritesAreIgnored := by
  refine ⟨fun s w off v r h hctrl hstatus hcmd hlen => ?_, fun s w off j v h => hostWrite_obuf h, fun s => ?_⟩
  · rw [hostWrite_reg h, writeReg_readOnly hctrl hstatus hcmd hlen]
  · exact hostRead_reg_exact (target_cmd s.maxLen) (.inr rfl)

/-! ### Byte order (R86) -/

/-- A little-endian number is the sum of its bytes by place. -/
theorem littleEndian_eq_sum (f : Nat → Byte) (k : Nat) :
    littleEndian ((List.range k).map f) = ((List.range k).map fun i => (f i).toNat * 2 ^ (8 * i)).sum := by
  induction k generalizing f with
  | zero => rfl
  | succ k ih =>
    simp only [List.range_succ_eq_map, List.map_cons, List.map_map, littleEndian_cons, List.sum_cons, ih,
      Function.comp_def, Nat.mul_zero, Nat.pow_zero, Nat.mul_one, ← List.sum_map_mul_left]
    congr 3
    funext i
    rw [Nat.succ_eq_add_one, Nat.mul_succ, Nat.pow_add]
    ring

theorem littleEndian_lt (bs : List Byte) : littleEndian bs < 2 ^ (8 * bs.length) := by
  induction bs with
  | nil => decide
  | cons b bs ih =>
    have hb := b.isLt
    rw [littleEndian_cons, List.length_cons, Nat.mul_succ, Nat.pow_add]
    omega

/-- A read of up to four bytes gives their sum by place: no bit is lost (R86). -/
theorem readWord_toNat (w : Width) (f : Nat → Byte) :
    (BitVec.ofNat 32 (littleEndian ((List.range w.bytes).map f))).toNat =
      ((List.range w.bytes).map fun i => (f i).toNat * 2 ^ (8 * i)).sum := by
  have hlt := littleEndian_lt ((List.range w.bytes).map f)
  have hw : 2 ^ (8 * w.bytes) ≤ 2 ^ 32 := Nat.pow_le_pow_right (by decide) (by cases w <;> decide)
  rw [List.length_map, List.length_range] at hlt
  rw [BitVec.toNat_ofNat, Nat.mod_eq_of_lt (hlt.trans_le hw), littleEndian_eq_sum]

/-- The bytes of a word from byte `i` on, lowest first, spell its bits from `8 * i` on. -/
theorem littleEndian_extract (v : Word) (k i : Nat) :
    littleEndian ((List.range k).map fun d => v.extractLsb' (8 * (i + d)) 8) = (v.extractLsb' (8 * i) (8 * k)).toNat := by
  induction k generalizing i with
  | zero => simp
  | succ k ih =>
    have hnext : (fun d => v.extractLsb' (8 * (i + d)) 8) ∘ Nat.succ = fun d => v.extractLsb' (8 * (i + 1 + d)) 8 := by
      funext d
      rw [Function.comp_apply, Nat.succ_eq_add_one, Nat.add_right_comm, Nat.add_assoc]
    rw [List.range_succ_eq_map, List.map_cons, List.map_map, hnext, littleEndian_cons, ih]
    simp only [BitVec.extractLsb'_toNat, Nat.shiftRight_eq_div_pow, Nat.add_zero]
    rw [show 8 * (k + 1) = 8 + 8 * k by omega, Nat.pow_add, Nat.mod_mul, Nat.div_div_eq_div_mul, ← Nat.pow_add]
    rfl

/-! ### Writing IBUF and reading it back (R84, R86) -/

/-- `s` after a `w`-wide write of `v` at IBUF[j]. -/
def storeInput (w : Width) (j : Nat) (v : Word) (s : State) : State :=
  { s with ibuf := s.ibuf.writeBytes j (valueBytes w v) }

theorem hostWrite_ibuf_idle {w : Width} {off j : Nat} {v : Word} {s : State} (h : target s.maxLen w off = some (.ibuf j))
    (hb : s.busy = false) : hostWrite w off v s = some (storeInput w j v s) := by
  simp only [hostWrite, h, hb, Bool.false_eq_true, if_false, storeInput]

/-- IBUF after a write: the value's bytes, lowest first, in the written range, the old bytes elsewhere (R84, R86). -/
theorem inByte_storeInput (w : Width) (j : Nat) (v : Word) (s : State) (k : Nat) :
    inByte (storeInput w j v s) k = if j ≤ k ∧ k < j + w.bytes then v.extractLsb' (8 * (k - j)) 8 else inByte s k := by
  simp only [inByte, storeInput, read_writeBytes, valueBytes, List.length_map, List.length_range]
  split
  · next hk =>
    rw [List.getElem?_map, List.getElem?_range (by omega)]
    rfl
  · rfl

theorem inByte_storeInput_inside (w : Width) (j : Nat) (v : Word) (s : State) {i : Nat} (hi : i < w.bytes) :
    inByte (storeInput w j v s) (j + i) = v.extractLsb' (8 * i) 8 := by
  rw [inByte_storeInput, if_pos ⟨Nat.le_add_right j i, Nat.add_lt_add_left hi j⟩, Nat.add_sub_cancel_left]

theorem inByte_storeInput_outside (w : Width) {j : Nat} (v : Word) (s : State) {k : Nat} (hk : k < j ∨ j + w.bytes ≤ k) :
    inByte (storeInput w j v s) k = inByte s k := by
  rw [inByte_storeInput, if_neg (by omega)]

/-- A narrower width's alignment follows from a wider one's (R87). -/
theorem Width.bytes_dvd_of_le {w w' : Width} (h : w'.bytes ≤ w.bytes) : w'.bytes ∣ w.bytes := by
  revert h
  cases w <;> cases w' <;> decide

/-- After a write to IBUF, an aligned read of any width inside the written range gives its part of the value (R86). -/
theorem hostRead_storeInput {w w' : Width} {j i : Nat} {s : State} (v : Word) (hmax : s.maxLen ≤ Config.maxLenLimit)
    (hj : j % w.bytes = 0) (hfit : j + w.bytes ≤ s.maxLen) (hi : i % w'.bytes = 0) (hin : i + w'.bytes ≤ w.bytes) :
    hostRead w' (ibufBase + j + i) (storeInput w j v s) =
      some ((v.extractLsb' (8 * i) (8 * w'.bytes)).setWidth 32, storeInput w j v s) := by
  have hal : (j + i) % w'.bytes = 0 :=
    Nat.mod_eq_zero_of_dvd <| Nat.dvd_add
      ((Width.bytes_dvd_of_le (by omega)).trans (Nat.dvd_of_mod_eq_zero hj)) (Nat.dvd_of_mod_eq_zero hi)
  have htarget : target (storeInput w j v s).maxLen w' (ibufBase + j + i) = some (.ibuf (j + i)) := by
    rw [Nat.add_assoc]
    exact target_ibuf_of_fits hmax hal (by change _ ≤ s.maxLen; omega)
  have hbytes : ((List.range w'.bytes).map fun d => inByte (storeInput w j v s) (j + i + d)) =
      (List.range w'.bytes).map fun d => v.extractLsb' (8 * (i + d)) 8 :=
    List.map_congr_left fun d hd => by
      have := List.mem_range.1 hd
      rw [Nat.add_assoc, inByte_storeInput_inside w j v s (by omega)]
  rw [hostRead_ibuf htarget, hbytes, littleEndian_extract, BitVec.ofNat_toNat]

/-- Settles O47: the written bytes, then each read as a read inside the written range. -/
theorem inputBufferIsLittleEndian : Obligations.InputBufferIsLittleEndian := by
  rintro s w j v ⟨-, hmax⟩ hb hj hfit
  refine ⟨storeInput w j v s, hostWrite_ibuf_idle (target_ibuf_of_fits hmax hj hfit) hb, ?same,
    fun i hi => ?byte, fun i hi hin => ?half, fun i => inByte_storeInput_inside w j v s,
    fun k => inByte_storeInput_outside w v s, rfl⟩
  case same => exact hostRead_storeInput v hmax hj hfit (Nat.zero_mod _) (Nat.zero_add _).le
  case byte => exact hostRead_storeInput (w' := .w8) v hmax hj hfit (Nat.mod_one i) hi
  case half => exact hostRead_storeInput (w' := .w16) v hmax hj hfit hi hin

/-! ### Reads and the registers' images (R33 to R53, R89) -/

/-- A host read leaves what the host has read alone; only the bus hands data over (R89). -/
theorem hostRead_reads {w : Width} {off : Nat} {v : Word} {s t : State} (h : hostRead w off s = some (v, t)) :
    t.reads = s.reads := by
  rcases hostRead_state h with rfl | rfl <;> rfl

theorem busAccess_read_frame {w : Width} {off : Nat} {s t : State} (h : busAccess (.read w off) s = .next t) :
    t = { s with draws := t.draws, reads := t.reads, hostFaults := t.hostFaults } := by
  rcases busAccess_read_next h with ⟨-, rfl⟩ | ⟨v, u, hr, rfl⟩
  · rfl
  · rcases hostRead_state hr with rfl | rfl <;> rfl

/-- A rejected read takes no free draw and hands over no data (R90). -/
theorem busAccess_read_rejected {w : Width} {off : Nat} {s t : State} (h : busAccess (.read w off) s = .next t)
    (hn : target s.maxLen w off = none) : t.draws = s.draws ∧ t.reads = s.reads := by
  rcases busAccess_read_next h with ⟨-, rfl⟩ | ⟨v, u, hr, -⟩
  · exact ⟨rfl, rfl⟩
  · exact nomatch hr.symm.trans (hostRead_eq_none_iff.2 hn)

/-- A mapped read is no fault and hands its data to the host (R119). -/
theorem busAccess_read_mapped {w : Width} {off : Nat} {s t : State} {x : Target}
    (h : busAccess (.read w off) s = .next t) (hx : target s.maxLen w off = some x) :
    t.hostFaults = s.hostFaults ∧
      ∃ v u, hostRead w off s = some (v, u) ∧ t.reads = { width := w, off := off, data := v } :: s.reads := by
  rcases busAccess_read_next h with ⟨hn, -⟩ | ⟨v, u, hr, rfl⟩
  · exact nomatch hx.symm.trans (hostRead_eq_none_iff.1 hn)
  · refine ⟨(recordRead_hostFaults w off v u).trans (hostRead_hostFaults hr), v, u, hr, ?_⟩
    rw [recordRead_reads, hostRead_reads hr]

theorem codeLenWord_toNat {c : Code} (h : c.length ≤ 255) : (codeLenWord c).toNat = c.length := by
  rw [codeLenWord, BitVec.toNat_setWidth_of_le (by decide), BitVec.toNat_ofNat, Nat.mod_eq_of_lt (by omega)]

/-- A codeword's first bit is the most significant (R52). -/
theorem codeBitsWord_getLsbD (c : Code) (w : Nat) {k : Nat} (hk : k < 32) :
    (codeBitsWord c w).getLsbD (31 - k) = c.getD (32 * w + k) false := by
  have hrev : 32 - (31 - k + 1) = k := by omega
  rw [codeBitsWord, BitVec.getLsbD_ofFnBE, dif_pos (by omega)]
  simp only [Fin.rev, hrev]

/-- The fields of the first word of a result record (R47). -/
theorem resWord_zero (r : ResRec) : (resWord r 0).extractLsb' 0 2 = r.alg ∧ (resWord r 0).extractLsb' 2 29 = 0 ∧
    (resWord r 0).getLsbD 31 = r.valid := by
  change (BitVec.ofBool r.valid ++ 0#29 ++ r.alg).extractLsb' 0 2 = _ ∧
    (BitVec.ofBool r.valid ++ 0#29 ++ r.alg).extractLsb' 2 29 = _ ∧ (BitVec.ofBool r.valid ++ 0#29 ++ r.alg).getLsbD 31 = _
  refine ⟨BitVec.extractLsb'_append_eq_right, ?_, ?_⟩
  · rw [BitVec.extractLsb'_append_eq_of_le (by decide)]
    exact BitVec.extractLsb'_append_eq_right
  · rw [BitVec.getLsbD_append, BitVec.getLsbD_append]
    simp

/-- The fields of the first word of a Leaf (R53). -/
theorem nodeWord_leaf_zero (b : Byte) (f : Nat) : (nodeWord (.leaf b f) 0).extractLsb' 0 8 = 0 ∧
    (nodeWord (.leaf b f) 0).extractLsb' 8 8 = b ∧ (nodeWord (.leaf b f) 0).extractLsb' 16 16 = 0 := by
  change (0#16 ++ b ++ 0#8).extractLsb' 0 8 = _ ∧ (0#16 ++ b ++ 0#8).extractLsb' 8 8 = _ ∧
    (0#16 ++ b ++ 0#8).extractLsb' 16 16 = _
  refine ⟨BitVec.extractLsb'_append_eq_right, ?_, ?_⟩
  · rw [BitVec.extractLsb'_append_eq_of_le (by decide)]
    exact BitVec.extractLsb'_append_eq_right
  · rw [BitVec.extractLsb'_append_eq_of_le (by decide), BitVec.extractLsb'_append_eq_of_le (by decide)]
    exact BitVec.extractLsb'_eq_self

theorem readReg_node {s : State} {k : Fin 511} {n : Node} (h : s.node[k] = some n) (w : Fin 4) :
    readReg s (.node k w) = nodeWord n w := by
  simp only [readReg, h]

theorem readReg_outAlg {s : State} {a : Option Alg} (h : s.outAlg = a) : readReg s .outAlg = outAlgWord a := by
  rw [readReg, h]

theorem readReg_param {s : State} (h : ParamInv s) : (readReg s .param).toNat = s.maxLen := by
  obtain ⟨-, hmax⟩ := h
  exact Nat.mod_eq_of_lt (hmax.trans_lt (by decide))

/-- Settles O51: a read's frame, an idle block's reads, then the images one by one. -/
theorem readsHaveNoSideEffects : Obligations.ReadsHaveNoSideEffects := by
  refine ⟨fun s t w off h => ⟨busAccess_read_frame h, busAccess_read_rejected h, fun x => busAccess_read_mapped h⟩,
    fun s w off r hb hr => hostRead_reg_exact hr (.inl hb),
    fun s w off j hb hj => ⟨_, hostRead_obuf_idle hj hb, readWord_toNat w fun i => outByte s (j + i)⟩,
    fun s => ?images⟩
  refine ⟨rfl, readReg_param, fun b => ⟨codeLenWord_toNat, fun w k => codeBitsWord_getLsbD s.code[b] w⟩,
    rfl, rfl, rfl, rfl, rfl, BitVec.toNat_setWidth_of_le (by decide), BitVec.toNat_setWidth_of_le (by decide),
    BitVec.toNat_setWidth_of_le (by decide), readReg_outAlg, readReg_outAlg, readReg_outAlg, readReg_outAlg,
    readReg_outAlg, fun b => rfl, fun a => ?record, fun k b f hk => ?leaf, fun k f l r hk => ?internal⟩
  case record =>
    obtain ⟨alg, reserved, valid⟩ := resWord_zero s.res[a]
    exact ⟨alg, reserved, valid, rfl, rfl, rfl⟩
  case leaf =>
    obtain ⟨kind, sym, reserved⟩ := nodeWord_leaf_zero b f
    simp only [readReg_node hk]
    exact ⟨kind, sym, reserved, rfl, rfl, rfl⟩
  case internal =>
    simp only [readReg_node hk]
    exact ⟨rfl, rfl, rfl, rfl⟩

end Sys2Proof.Machine
end

section
/-! PROOFS. The encoding family (30_encoding.md): the opcode map and the bytes of a command word (R110 to R112, R116, R117),
acceptance and the step (R114, R115, R119, R120), and which output bytes and result registers a command writes (R113). -/

namespace Sys2Proof.Machine

/-! ### Command words (R110, R112, R116) -/

/-- A word is its two fields (R110). -/
theorem rsvdField_append_opcField (w : Word) : rsvdField w ++ opcField w = w := by
  rw [rsvdField, opcField, BitVec.extractLsb'_append_extractLsb'_eq_extractLsb' (by decide)]
  exact BitVec.extractLsb'_eq_self

theorem decodeOpc_opcodeOf (i : Instr) : decodeOpc (opcodeOf i) = some i := by cases i <;> rfl

/-- Each opcode names one command (R112). -/
theorem decodeOpc_eq_some_iff {opc : BitVec 8} {i : Instr} : decodeOpc opc = some i ↔ opc = opcodeOf i := by
  refine ⟨fun h => ?_, fun h => h ▸ decodeOpc_opcodeOf i⟩
  unfold decodeOpc at h
  split at h
  case h_11 => exact nomatch h
  all_goals
    next hopc =>
      obtain rfl := Option.some.inj h
      exact BitVec.eq_of_toNat_eq hopc

theorem commandWord_statement : ∀ i, Laws.CommandWord.Statement i
  | .nop => Laws.CommandWord.nop
  | .freq => Laws.CommandWord.freq
  | .build => Laws.CommandWord.build
  | .codegen => Laws.CommandWord.codegen
  | .henc => Laws.CommandWord.henc
  | .huff => Laws.CommandWord.huff
  | .rle => Laws.CommandWord.rle
  | .delta => Laws.CommandWord.delta
  | .lz77 => Laws.CommandWord.lz77
  | .bench => Laws.CommandWord.bench

/-- A word decodes to a command exactly when it is the command's word (R110, R112, R116). -/
theorem decode_eq_some_iff {w : Word} {i : Instr} : decode w = some i ↔ w = encode i := by
  rw [decode]
  constructor
  · intro h
    split at h
    · next hrsvd => rw [← rsvdField_append_opcField w, hrsvd, decodeOpc_eq_some_iff.1 h]; rfl
    · exact nomatch h
  · rintro rfl
    obtain ⟨hrsvd, hopc, -⟩ := commandWord_statement i
    rw [if_pos hrsvd, hopc, decodeOpc_opcodeOf]

theorem decode_encode (i : Instr) : decode (encode i) = some i := decode_eq_some_iff.2 rfl

/-! ### The bytes of a command word (R86, R110) -/

/-- A word is its four byte lanes. -/
theorem decodeBytes_valueBytes (w : Word) : decodeBytes (valueBytes .w32 w) = decode w := by
  change decode (w.extractLsb' 24 8 ++ w.extractLsb' 16 8 ++ w.extractLsb' 8 8 ++ w.extractLsb' 0 8) = _
  rw [BitVec.extractLsb'_append_extractLsb'_eq_extractLsb' (by decide),
    BitVec.extractLsb'_append_extractLsb'_eq_extractLsb' (by decide),
    BitVec.extractLsb'_append_extractLsb'_eq_extractLsb' (by decide)]
  exact congrArg decode BitVec.extractLsb'_eq_self

/-- The byte lanes of four bytes put together are those bytes. -/
theorem valueBytes_append (b₀ b₁ b₂ b₃ : Byte) : valueBytes .w32 (b₃ ++ b₂ ++ b₁ ++ b₀) = [b₀, b₁, b₂, b₃] := by
  have lanes (w : Word) : valueBytes .w32 w =
      [w.extractLsb' 0 8, w.extractLsb' 8 8, w.extractLsb' 16 8, w.extractLsb' 24 8] := rfl
  rw [lanes]
  simp only [List.cons.injEq, and_true]
  refine ⟨BitVec.extractLsb'_append_eq_right, ?_, ?_, ?_⟩
  all_goals repeat rw [BitVec.extractLsb'_append_eq_of_le (by decide)]
  · exact BitVec.extractLsb'_append_eq_right
  · exact BitVec.extractLsb'_append_eq_right
  · exact BitVec.extractLsb'_eq_self

theorem encodeBytes_eq (i : Instr) : encodeBytes i = valueBytes .w32 (encode i) := rfl

/-- Settles O3: a byte list decodes only as the byte lanes of a word, and a word decodes exactly to the command it encodes. -/
theorem decodeAndEncodeAgree : Obligations.DecodeAndEncodeAgree := by
  intro bs i _
  rw [encodeBytes_eq]
  constructor
  · intro h
    match bs, h with
    | [b₀, b₁, b₂, b₃], h =>
      rw [← decode_eq_some_iff.1 (show decode (b₃ ++ b₂ ++ b₁ ++ b₀) = some i from h), valueBytes_append]
  · rintro rfl
    rw [decodeBytes_valueBytes, decode_encode]

/-! ### The opcode map (R112, R116, R117) -/

/-- The opcode map by value of the whole word, as R112 lists it. -/
def opcodeMap : List (Nat × Instr) :=
  [(0x00, .nop), (0x01, .freq), (0x02, .build), (0x03, .codegen), (0x04, .henc), (0x05, .huff), (0x06, .rle),
    (0x07, .delta), (0x08, .lz77), (0x09, .bench)]

/-- Every command is in the map, under the value of its word. -/
theorem opcodeMap_lookup_encode (i : Instr) : opcodeMap.lookup (encode i).toNat = some i := by cases i <;> rfl

theorem opcodeMap_keys : ∀ p ∈ opcodeMap, p.1 = (encode p.2).toNat := by decide

/-- Settles O2: a word decodes to a command exactly when it is the command's word, and so does the map. -/
theorem decodesExactlyTheOpcodeMap : Obligations.DecodesExactlyTheOpcodeMap := by
  intro w
  change decode w = opcodeMap.lookup w.toNat
  refine Option.ext fun i => ?_
  rw [decode_eq_some_iff]
  constructor
  · rintro rfl
    exact opcodeMap_lookup_encode i
  · intro h
    obtain ⟨before, after, hmap, -⟩ := List.lookup_eq_some_iff.1 h
    have hmem : (w.toNat, i) ∈ opcodeMap := hmap ▸ List.mem_append_right _ List.mem_cons_self
    exact BitVec.eq_of_toNat_eq (opcodeMap_keys _ hmem)

theorem encode_toNat_lt (i : Instr) : (encode i).toNat < 10 := by cases i <;> decide

/-- A word of value 10 or more is no command (R117). -/
theorem decode_illegal {w : Word} (h : 10 ≤ w.toNat) : decode w = none := by
  refine Option.eq_none_iff_forall_ne_some.2 fun i hi => ?_
  have hlt := encode_toNat_lt i
  rw [← decode_eq_some_iff.1 hi] at hlt
  omega

/-- Settles O1: the words of the ten commands, and four words of value 10 or more. -/
theorem decodesSampleWords : Obligations.DecodesSampleWords :=
  ⟨decode_encode .nop, decode_encode .freq, decode_encode .build, decode_encode .codegen, decode_encode .henc,
    decode_encode .huff, decode_encode .rle, decode_encode .delta, decode_encode .lz77, decode_encode .bench,
    decode_illegal (by decide), decode_illegal (by decide), decode_illegal (by decide), decode_illegal (by decide)⟩

/-! ### Acceptance (R114, R117) -/

/-- A block with no word latched is idle (R36). -/
theorem busy_of_latched_none {s : State} (h : s.latched = none) : s.busy = false := by
  rw [State.busy, h, Option.isSome_none]

theorem hostWrite_cmd (w : Word) (s : State) :
    hostWrite .w32 0x010 w s = some (if s.busy then dropWrite s else accept w s) :=
  hostWrite_reg (target_cmd s.maxLen)

theorem hostWrite_cmd_idle {s : State} (h : s.busy = false) (w : Word) :
    hostWrite .w32 0x010 w s = some (accept w s) := by
  rw [hostWrite_cmd, h]
  rfl

theorem hostWrite_cmd_busy {s : State} (h : s.busy = true) (w : Word) :
    hostWrite .w32 0x010 w s = some (dropWrite s) := by
  rw [hostWrite_cmd, h]
  rfl

/-- The map puts CMD at one word (R32, R82). -/
theorem lowReg_eq_cmd {k : Nat} (h : lowReg k = some .cmd) : k = 4 := by
  unfold lowReg at h
  split at h
  case h_5 => rfl
  all_goals exact nomatch h

theorem regAt_eq_cmd {off : Nat} (h : regAt off = some .cmd) : off / 4 = 4 := by
  unfold regAt at h
  split at h
  · exact lowReg_eq_cmd h
  · repeat' split at h
    all_goals exact nomatch h

/-- A register is reached by an aligned 32-bit access only (R83, R87). -/
theorem target_eq_reg {maxLen off : Nat} {w : Width} {r : Reg} (h : target maxLen w off = some (.reg r)) :
    w = .w32 ∧ off % 4 = 0 ∧ regAt off = some r := by
  by_cases hal : off % w.bytes = 0
  case neg => exact nomatch (target_misaligned hal).symm.trans h
  rcases Nat.lt_or_ge off ibufBase with hlow | hmem
  · by_cases hw : w = .w32
    · subst hw
      obtain ⟨r', hr, hreg⟩ := Option.map_eq_some_iff.1 ((target_w32 hal hlow).symm.trans h)
      exact ⟨rfl, hal, hr.trans (congrArg some (Target.reg.inj hreg))⟩
    · exact nomatch (target_subword hw hlow).symm.trans h
  · rcases Nat.lt_or_ge off obufBase with hin | hout
    · rw [target_ibuf_window hal hmem hin] at h
      split at h <;> exact nomatch h
    · rw [target_obuf_window hal hout] at h
      split at h <;> exact nomatch h

theorem target_eq_cmd {maxLen off : Nat} {w : Width} (h : target maxLen w off = some (.reg .cmd)) :
    w = .w32 ∧ off = 0x010 := by
  obtain ⟨hw, hal, hr⟩ := target_eq_reg h
  have := regAt_eq_cmd hr
  exact ⟨hw, by omega⟩

/-- On an idle block a write to any register but CMD latches nothing (R114). -/
theorem writeReg_idle {r : Reg} (hr : r ≠ .cmd) {s : State} (hs : s.latched = none) (v : Word) :
    (writeReg v s r).latched = none := by
  cases r with
  | cmd => exact absurd rfl hr
  | ctrl =>
    change (writeCtrl v s).latched = none
    unfold writeCtrl
    split
    · rcases softReset_cases s with h | h <;> rw [h] <;> rfl
    · exact hs
  | len =>
    change (if s.busy then dropWrite s else { s with len := v }).latched = none
    split <;> exact hs
  | _ => exact hs

/-- On an idle block only a 32-bit write to CMD latches a word (R114). -/
theorem hostWrite_latches {w : Width} {off : Nat} {v x : Word} {s t : State} (h : hostWrite w off v s = some t)
    (hs : s.latched = none) (ht : t.latched = some x) : w = .w32 ∧ off = 0x010 ∧ v = x := by
  have hb := busy_of_latched_none hs
  cases htarget : target s.maxLen w off with
  | none => exact nomatch (hostWrite_eq_none_iff.2 htarget).symm.trans h
  | some reached =>
    cases reached with
    | reg r =>
      by_cases hr : r = .cmd
      · subst hr
        obtain ⟨rfl, rfl⟩ := target_eq_cmd htarget
        obtain rfl := Option.some.inj ((hostWrite_cmd_idle hb v).symm.trans h)
        exact ⟨rfl, rfl, Option.some.inj ht⟩
      · obtain rfl := Option.some.inj ((hostWrite_reg htarget).symm.trans h)
        exact nomatch (writeReg_idle hr hs v).symm.trans ht
    | ibuf j =>
      obtain rfl := Option.some.inj ((hostWrite_ibuf_idle htarget hb).symm.trans h)
      exact nomatch hs.symm.trans ht
    | obuf j =>
      obtain rfl := Option.some.inj ((hostWrite_obuf htarget).symm.trans h)
      exact nomatch hs.symm.trans ht

/-! ### The host's operations (R120, R325) -/

/-- With nothing pending the host does nothing (R325). -/
theorem hostStep_nil {s : State} (h : s.host = []) : hostStep s = .next s := by
  simp only [hostStep, h]

theorem waitDone_idle {s : State} (h : s.busy = false) : waitDone s = busAccess (.read .w32 statusOff) s := by
  rw [waitDone, h]
  rfl

theorem waitDone_busy {s : State} (h : s.busy = true) : waitDone s = .next { s with host := .waitDone :: s.host } := by
  rw [waitDone, if_pos h]

theorem hostRead_host {w : Width} {off : Nat} {v : Word} {s t : State} (h : hostRead w off s = some (v, t)) :
    t.host = s.host := by
  rcases hostRead_state h with rfl | rfl <;> rfl

theorem hostRead_latched {w : Width} {off : Nat} {v : Word} {s t : State} (h : hostRead w off s = some (v, t)) :
    t.latched = s.latched := by
  rcases hostRead_state h with rfl | rfl <;> rfl

theorem hostRead_outBytes (s : State) : ∃ k t, hostRead .w32 outBytesOff s = some (k, t) := by
  have hmapped : target s.maxLen .w32 outBytesOff = some (.reg .outBytes) := target_low (k := 10) (by decide) s.maxLen
  cases h : hostRead .w32 outBytesOff s with
  | none => exact nomatch hmapped.symm.trans (hostRead_eq_none_iff.1 h)
  | some p => exact ⟨p.1, p.2, rfl⟩

/-- The state after READOUT's read of OUT_BYTES gave `k` and left `t`: the data handed to the host, and the reads of
OBUF[0..k) pending before the rest of its program (R120). -/
def afterReadOut (k : Word) (t : State) : State :=
  { t with
    reads := { width := .w32, off := outBytesOff, data := k } :: t.reads
    host := (List.range k.toNat).map (fun j => .access (.read .w8 (obufBase + j))) ++ t.host }

theorem readOut_eq {s t : State} {k : Word} (h : hostRead .w32 outBytesOff s = some (k, t)) :
    readOut s = .next (afterReadOut k t) := by
  rw [readOut, h]
  rfl

/-! ### What starts a command (R114) -/

/-- On an idle block the host's only operation that latches a word is its write of it to CMD (R114). -/
theorem runHostOp_latches {op : HostOp} {x : Word} {s t : State} (h : runHostOp op s = .next t)
    (hs : s.latched = none) (ht : t.latched = some x) : op = .access (.write .w32 0x010 x) := by
  have notRead {w off} : busAccess (.read w off) s ≠ .next t := fun h => by
    rw [busAccess_read_frame h] at ht
    exact nomatch hs.symm.trans ht
  cases op with
  | access a =>
    cases a with
    | read w off => exact absurd h notRead
    | write w off v =>
      rcases busAccess_write_next h with ⟨-, rfl⟩ | hw
      · exact nomatch hs.symm.trans ht
      · obtain ⟨rfl, rfl, rfl⟩ := hostWrite_latches hw hs ht
        rfl
  | waitDone => exact absurd ((waitDone_idle (busy_of_latched_none hs)).symm.trans h) notRead
  | readOut =>
    obtain ⟨k, u, hread⟩ := hostRead_outBytes s
    obtain rfl := Host.Outcome.next.inj ((readOut_eq hread).symm.trans h)
    exact nomatch ((hostRead_latched hread).trans hs).symm.trans ht
  | hardReset =>
    obtain rfl := Host.Outcome.next.inj h
    exact nomatch ht

/-- Settles O6: a CMD write's effect, and that no other host operation latches a word on an idle block. -/
theorem onlyACommandWriteStartsACommand : Obligations.OnlyACommandWriteStartsACommand := by
  refine ⟨fun s w hb => hostWrite_cmd_idle hb w, fun s w hb => hostWrite_cmd_busy hb w, fun s t w hs h ht => ?started⟩
  case started =>
    rw [step_idle hs] at h
    cases hhost : s.host with
    | nil =>
      rw [hostStep_nil hhost] at h
      obtain rfl := Host.Outcome.next.inj h
      exact nomatch hs.symm.trans ht
    | cons op rest =>
      rw [hostStep_cons hhost] at h
      exact ⟨rest, congrArg (· :: rest) (runHostOp_latches h hs ht)⟩

/-- Settles O5: such a word is accepted as every word is, and decodes to no command. -/
theorem illegalWordCompletesWithError : Obligations.IllegalWordCompletesWithError := by
  refine fun s w hw => ⟨fun hb => hostWrite_cmd_idle hb w, fun hl ht => ?_⟩
  rw [step_sequencer hl ht, sequencerStep, decode_illegal hw]
  rfl

/-! ### The step (R115, R119, R120) -/

theorem hostsTurn_iff (s : State) : hostsTurn s = true ↔ s.host ≠ [] ∧ s.turns.head? = some .host := by
  simp [hostsTurn]

/-- Settles O4: the host's move reduces to its next operation on what is left, and each operation to its own meaning. -/
theorem stepRunsTheLatchedCommand : Obligations.StepRunsTheLatchedCommand := by
  refine ⟨fun s w i hl hw _ ht => ?sequencer, hostsTurn_iff, fun s hl hhost => ?idle, fun s u op rest hhost hmove => ?host⟩
  case sequencer =>
    rw [step_sequencer hl ht, sequencerStep, hw]
    rfl
  case idle => rw [step_idle hl, hostStep_nil hhost]
  case host =>
    obtain ⟨hstep, hrest, hreads, hlatched⟩ :
        step s = runHostOp op u ∧ u.host = rest ∧ u.reads = s.reads ∧ u.latched = s.latched := by
      rcases hmove with ⟨hl, rfl⟩ | ⟨hl, ht, rfl⟩
      · exact ⟨by rw [step_idle hl, hostStep_cons hhost], rfl, rfl, rfl⟩
      · obtain ⟨w, hw⟩ := Option.ne_none_iff_exists'.1 hl
        exact ⟨(step_hostsTurn hw ht).trans (hostStep_cons (s := popTurn s) hhost), rfl, rfl, rfl⟩
    refine ⟨?access, ?waitDone, ?readOut, ?hardReset⟩
    case access =>
      rintro a rfl
      exact hstep
    case hardReset =>
      rintro rfl
      exact hstep
    case waitDone =>
      rintro rfl
      refine ⟨fun hl => hstep.trans (waitDone_idle (busy_of_latched_none (hlatched.trans hl))), fun hl => ?_⟩
      have hb : u.busy = true := by rwa [State.busy, hlatched, Option.isSome_iff_ne_none]
      rw [← hrest]
      exact hstep.trans (waitDone_busy hb)
    case readOut =>
      rintro rfl
      obtain ⟨k, t, hread⟩ := hostRead_outBytes u
      refine ⟨k, t, hread, hstep.trans ((readOut_eq hread).trans ?_)⟩
      rw [← hrest, ← hreads, ← hostRead_host hread, ← hostRead_reads hread]
      rfl

/-! ### What NOP, FREQ, BUILD and CODEGEN write (R113) -/

/-- `t` is `s` but for STATUS.BUSY, DONE, ERR, EMPTY and what the pipeline stages write: FREQ, NSYM, NODE, NNODES, ROOT, CODE
and the validity flags (R113). -/
def SameButTables (s t : State) : Prop :=
  t = { s with
    latched := t.latched
    done := t.done
    err := t.err
    empty := t.empty
    freq := t.freq
    nsym := t.nsym
    node := t.node
    nnodes := t.nnodes
    root := t.root
    code := t.code
    freqValid := t.freqValid
    treeValid := t.treeValid
    codeValid := t.codeValid }

/-- FREQ's outcomes (R150). -/
theorem execFreq_cases (s : State) :
    execFreq s = .next (completeError .lenRange s) ∨
    execFreq s = .next (completeOk (s.len.toNat == 0) (setFreq (freqStep (inputBytes s s.len.toNat)) s)) := by
  rcases Nat.lt_or_ge s.maxLen s.len.toNat with hlen | hlen
  · exact .inl (finish_lenRange hlen)
  · exact .inr (execFreq_ok hlen)

theorem exec_sameButTables {i : Instr} {s t : State} (hi : i = .nop ∨ i = .freq ∨ i = .build ∨ i = .codegen)
    (h : exec i s = .next t) : SameButTables s t := by
  rcases hi with rfl | rfl | rfl | rfl
  · cases h
    rfl
  · rcases execFreq_cases s with hs | hs <;> cases hs.symm.trans h <;> rfl
  · rcases execBuild_cases s with ⟨-, hs⟩ | ⟨-, -, hs⟩ | ⟨-, -, -, hs⟩ | ⟨tree, -, -, -, hs⟩ <;>
      cases hs.symm.trans h <;> rfl
  · rcases execCodegen_cases s with ⟨-, hs⟩ | ⟨-, -, hs⟩ | ⟨c, -, -, hs⟩ <;> cases hs.symm.trans h <;> rfl

/-- Settles O22: none of the fields that these commands write is a result register, a record or a memory. -/
theorem stagesKeepTheResult : Obligations.StagesKeepTheResult := by
  intro i s t hi h
  have hframe : SameButTables s t := exec_sameButTables hi h
  rw [hframe]
  exact ⟨rfl, rfl, rfl, rfl, rfl, rfl, fun _ => rfl, fun _ => rfl⟩

/-! ### What the encoders write (R113, R273) -/

/-- A command that checks LEN and then runs a body reports an error, or completes with what the body answers (R115). -/
theorem finish_body_next {s t : State} {g : Nat → State → Run State}
    (h : finish s (do let n ← inputLen s; let u ← g n s; .ok (u, n == 0)) = .next t) :
    (∃ e, t = completeError e s) ∨
      ∃ u b, s.len.toNat ≤ s.maxLen ∧ g s.len.toNat s = .ok u ∧ t = completeOk b u := by
  rcases finish_next h with ⟨u, b, hr, rfl⟩ | ⟨e, -, rfl⟩
  · obtain ⟨hlen, hbody⟩ := checkLen_result hr
    exact .inr ⟨u, b, hlen, (withEmpty_result hbody).1, rfl⟩
  · exact .inl ⟨e, rfl⟩

@[simp] theorem outByte_completeOk (b : Bool) (s : State) (j : Nat) : outByte (completeOk b s) j = outByte s j := rfl

/-- Publish leaves every byte from its output's end on (R55, R273). -/
theorem outByte_publishWrites_beyond {a : Alg} {out : List Byte} {bits n j : Nat} {s : State} (h : out.length ≤ j) :
    outByte (publishWrites a out bits n s) j = outByte s j := by
  rw [outByte_publishWrites, dif_neg (Nat.not_lt.2 h)]

/-- OUT_BYTES has room for the length of every output that fits OBUF (R6, R275). -/
theorem publishWrites_outBytes_toNat {out : List Byte} {s : State} (hp : ParamInv s) (h : out.length ≤ obufSize s)
    (a : Alg) (bits n : Nat) : (publishWrites a out bits n s).outBytes.toNat = out.length := by
  obtain ⟨-, hmax⟩ := hp
  simp only [obufSize, Config.maxLenLimit] at h hmax
  rw [publishWrites_outBytes, BitVec.toNat_ofNat, Nat.mod_eq_of_lt (by omega)]

/-- `u` is `s` after one Publish of an output that fits OBUF. -/
def PublishedOnce (s u : State) : Prop :=
  ∃ a out bits n, out.length ≤ obufSize s ∧ u = publishWrites a out bits n s

theorem PublishedOnce.of_publish {a : Alg} {out : List Byte} {bits n : Nat} {s u : State}
    (h : publish a out bits n s = .ok u) : PublishedOnce s u := ⟨a, out, bits, n, publish_eq_ok h⟩

theorem rleBody_publishedOnce {n : Nat} {s u : State} (h : rleBody n s = .ok u) : PublishedOnce s u := by
  unfold rleBody at h
  split at h <;> exact .of_publish h

theorem deltaBody_publishedOnce {n : Nat} {s u : State} (h : deltaBody n s = .ok u) : PublishedOnce s u := by
  unfold deltaBody at h
  split at h <;> exact .of_publish h

theorem lz77Body_publishedOnce {n : Nat} {s u : State} (h : lz77Body n s = .ok u) : PublishedOnce s u := by
  unfold lz77Body at h
  split at h <;> exact .of_publish h

/-- HENC reports an error, or completes after one Publish (R153). -/
theorem execHenc_next {s t : State} (h : execHenc s = .next t) :
    (∃ e, t = completeError e s) ∨ ∃ u b, PublishedOnce s u ∧ t = completeOk b u := by
  rcases finish_next h with ⟨u, b, hr, rfl⟩ | ⟨e, -, rfl⟩
  case inr => exact .inl ⟨e, rfl⟩
  obtain ⟨-, hr⟩ := checkLen_result hr
  refine .inr ⟨u, b, ?_, rfl⟩
  split at hr
  · exact nomatch hr
  · split at hr
    · exact .of_publish (withEmpty_result hr).1
    · split at hr
      · exact nomatch hr
      · exact .of_publish (withEmpty_result hr).1

/-- HENC, RLE, DELTA and LZ77 report an error, or complete after one Publish (R113). -/
theorem encoder_next {i : Instr} {s t : State} (hi : i = .henc ∨ i = .rle ∨ i = .delta ∨ i = .lz77)
    (h : exec i s = .next t) :
    (∃ e, t = completeError e s) ∨ ∃ u b, PublishedOnce s u ∧ t = completeOk b u := by
  have ofBody {g : Nat → State → Run State} (hg : ∀ {n u}, g n s = .ok u → PublishedOnce s u)
      (h : finish s (do let n ← inputLen s; let u ← g n s; .ok (u, n == 0)) = .next t) :
      (∃ e, t = completeError e s) ∨ ∃ u b, PublishedOnce s u ∧ t = completeOk b u :=
    (finish_body_next h).imp_right fun ⟨u, b, _, hu, ht⟩ => ⟨u, b, hg hu, ht⟩
  rcases hi with rfl | rfl | rfl | rfl
  · exact execHenc_next h
  · exact ofBody rleBody_publishedOnce h
  · exact ofBody deltaBody_publishedOnce h
  · exact ofBody lz77Body_publishedOnce h

/-- Settles O21: a command error writes STATUS alone, and one Publish writes the result and OBUF up to OUT_BYTES. -/
theorem encodersKeepThePipeline : Obligations.EncodersKeepThePipeline := by
  intro i s t hi hp h
  rcases encoder_next hi h with ⟨e, rfl⟩ | ⟨u, b, ⟨a, out, bits, n, hfit, rfl⟩, rfl⟩
  · exact ⟨rfl, fun _ _ => rfl, fun _ => rfl⟩
  · refine ⟨rfl, fun j hj => ?_, fun _ => rfl⟩
    have hj : out.length ≤ j := (publishWrites_outBytes_toNat hp hfit a bits n).symm.trans_le hj
    rw [outByte_completeOk, outByte_publishWrites_beyond hj]

/-! ### What HUFF and BENCH write (R113, R276) -/

/-- HUFF's body is one Publish of at most n bytes after stages that leave OBUF alone (R91, R154). -/
theorem huffBody_result {n : Nat} {s u : State} (hn : n ≤ s.maxLen) (h : huffBody n s = .ok u) :
    ∃ out bits v, u = publishWrites .huffman out bits n v ∧ out.length ≤ n ∧
      outByte v = outByte s := by
  rcases Nat.eq_zero_or_pos n with rfl | hpos
  · obtain rfl := Except.ok.inj ((huffBody_empty s).symm.trans h)
    exact ⟨_, _, _, rfl, Nat.le_refl 0, rfl⟩
  · obtain ⟨_, tree, -, -, -, -, htree, -, hu⟩ := huffBody_ok hn hpos.ne'
    obtain rfl := Except.ok.inj (hu.symm.trans h)
    have hbits := htree.hencBits_length
    rw [inputBytes_length] at hbits
    exact ⟨_, _, _, rfl, by rw [pack_length]; omega, rfl⟩

theorem WritesChain.maxLen {s u : State} (h : WritesChain s u) : u.maxLen = s.maxLen := by rw [h.frame]

theorem WritesChain.inputBytes {s u : State} (h : WritesChain s u) (n : Nat) : inputBytes u n = inputBytes s n :=
  inputBytes_congr (by rw [h.frame]) (by rw [h.frame]) n

section Body

variable {n j : Nat} {s u : State}

theorem huffBody_keeps_outByte (hn : n ≤ s.maxLen) (h : huffBody n s = .ok u) (hj : n ≤ j) :
    outByte u j = outByte s j := by
  obtain ⟨out, bits, v, rfl, hlen, hv⟩ := huffBody_result hn h
  rw [outByte_publishWrites_beyond (hlen.trans hj), hv]

theorem rleBody_keeps_outByte (hn : n ≤ s.maxLen) (h : rleBody n s = .ok u) (hj : (rleStep (inputBytes s n)).length ≤ j) :
    outByte u j = outByte s j := by
  obtain rfl := Except.ok.inj ((rleBody_ok hn).symm.trans h)
  exact outByte_publishWrites_beyond hj

theorem deltaBody_keeps_outByte (hn : n ≤ s.maxLen) (h : deltaBody n s = .ok u) (hj : n ≤ j) :
    outByte u j = outByte s j := by
  obtain rfl := Except.ok.inj ((deltaBody_ok hn).symm.trans h)
  exact outByte_publishWrites_beyond (by rwa [deltaStep_length_eq, inputBytes_length])

theorem lz77Body_keeps_outByte (hn : n ≤ s.maxLen) (h : lz77Body n s = .ok u) (hj : (lzStep (inputBytes s n)).length ≤ j) :
    outByte u j = outByte s j := by
  obtain rfl := Except.ok.inj ((lz77Body_ok hn).symm.trans h)
  exact outByte_publishWrites_beyond hj

/-- BENCH's bodies all encode the same input, so that each leaves the bytes beyond its own output of it (R276). -/
theorem benchBody_keeps_outByte (hn : n ≤ s.maxLen) (hword : n < 2 ^ 32) (h : benchBody n s = .ok u)
    (hj : max n (max (rleStep (inputBytes s n)).length (lzStep (inputBytes s n)).length) ≤ j) :
    outByte u j = outByte s j := by
  obtain ⟨hinput, hj⟩ := max_le_iff.1 hj
  obtain ⟨hrle, hlz⟩ := max_le_iff.1 hj
  obtain ⟨s₁, s₂, s₃, h₁, h₂, h₃, h₄⟩ := benchBody_result h
  have c₁ : WritesChain s s₁ := huffBody_chain hword h₁
  have c₂ : WritesChain s s₂ := c₁.trans (rleBody_chain h₂)
  have c₃ : WritesChain s s₃ := c₂.trans (deltaBody_chain h₃)
  calc outByte u j
    _ = outByte s₃ j := lz77Body_keeps_outByte (c₃.maxLen ▸ hn) h₄ (c₃.inputBytes n ▸ hlz)
    _ = outByte s₂ j := deltaBody_keeps_outByte (c₂.maxLen ▸ hn) h₃ hinput
    _ = outByte s₁ j := rleBody_keeps_outByte (c₁.maxLen ▸ hn) h₂ (c₁.inputBytes n ▸ hrle)
    _ = outByte s j := huffBody_keeps_outByte hn h₁ hinput

end Body

/-- HUFF stores no byte from OUT_BYTES on (R113). -/
theorem execHuff_keeps_outByte {j : Nat} {s t : State} (h : execHuff s = .next t) (hj : t.outBytes.toNat ≤ j) :
    outByte t j = outByte s j := by
  rcases finish_body_next h with ⟨e, rfl⟩ | ⟨u, b, hlen, hu, rfl⟩
  · rfl
  · obtain ⟨out, bits, v, rfl, hout, hv⟩ := huffBody_result hlen hu
    have hbytes : (completeOk b (publishWrites .huffman out bits s.len.toNat v)).outBytes.toNat = out.length :=
      Nat.mod_eq_of_lt (hout.trans_lt s.len.isLt)
    rw [hbytes] at hj
    rw [outByte_completeOk, outByte_publishWrites_beyond hj, hv]

/-- BENCH stores no byte beyond its longest output (R276). -/
theorem execBench_keeps_outByte {j : Nat} {s t : State} (h : execBench s = .next t)
    (hj : max (inLen s) (max (rleStep (input s)).length (lzStep (input s)).length) ≤ j) :
    outByte t j = outByte s j := by
  rcases finish_body_next h with ⟨e, rfl⟩ | ⟨u, b, hlen, hu, rfl⟩
  · rfl
  · rw [outByte_completeOk]
    exact benchBody_keeps_outByte hlen s.len.isLt hu hj

/-- Settles O23, from the outputs of HUFF's body and of BENCH's four. -/
theorem huffAndBenchKeepLaterOutputBytes : Obligations.HuffAndBenchKeepLaterOutputBytes :=
  fun _ _ _ => ⟨fun h => ⟨exec_sameButPipeline h, fun _ => execHuff_keeps_outByte h⟩,
    fun h => ⟨exec_sameButPipeline h, fun _ => execBench_keeps_outByte h⟩⟩

end Sys2Proof.Machine
end

section
/-! PROOFS. The Huffman family (40_huffman.md), the tree: which entries each merge of BuildStep takes (R141 to R143), and the
shape and the paths of the tree it makes (R145). -/

namespace Sys2Proof.Machine

/-! ### The queue beside the node store (R142, R143) -/

/-- The queue `q` of the merge loop beside the node store built so far: it is in key order, each entry has the frequency of
its node, and the indices are, each once, the children of an entry or those that wait in the queue. -/
structure Pending (store : List Node) (q : List QueueEntry) : Prop where
  ordered : QueueOrdered q
  entry : ∀ x ∈ q, ∃ n, store[x.seq]? = some n ∧ Node.freq n = x.freq
  indices : (store.flatMap childrenOf ++ q.map QueueEntry.seq).Perm (List.range store.length)

theorem Pending.empty : Pending [] [] := ⟨List.Pairwise.nil, List.forall_mem_nil _, .nil⟩

theorem Pending.seq_lt {store : List Node} {q : List QueueEntry} (h : Pending store q) {x : QueueEntry} (hx : x ∈ q) :
    x.seq < store.length := by
  obtain ⟨n, hn, -⟩ := h.entry x hx
  exact (List.getElem?_eq_some_iff.1 hn).1

/-- The entries `xs` taken off the front become the children of a node at the next index, which waits from then on: none of
them for a leaf, the two smallest for a merge (R141, R143). -/
theorem Pending.push {store : List Node} {xs q : List QueueEntry} (h : Pending store (xs ++ q)) {n : Node}
    (hn : childrenOf n = xs.map QueueEntry.seq) :
    Pending (store ++ [n]) (enqueue { freq := Node.freq n, seq := store.length } q) := by
  obtain ⟨-, hq, -⟩ := List.pairwise_append.1 h.ordered
  have old {x : QueueEntry} (hx : x ∈ q) : x ∈ xs ++ q := List.mem_append_right xs hx
  refine ⟨enqueue_ordered hq fun x hx => (h.seq_lt (old hx)).ne, fun x hx => ?entry, ?indices⟩
  case entry =>
    rcases List.mem_cons.1 ((enqueue_perm _ q).mem_iff.1 hx) with rfl | hx
    · exact ⟨n, List.getElem?_concat_length, rfl⟩
    · obtain ⟨y, hy, hfreq⟩ := h.entry x (old hx)
      exact ⟨y, getElem?_append_mono _ _ _ _ hy, hfreq⟩
  case indices =>
    have hperm := (enqueue_perm { freq := Node.freq n, seq := store.length } q).map QueueEntry.seq
    have hchildren : (store ++ [n]).flatMap childrenOf = store.flatMap childrenOf ++ xs.map QueueEntry.seq := by
      rw [List.flatMap_append, List.flatMap_singleton, hn]
    have hold := h.indices
    rw [List.map_append, ← List.append_assoc, ← hchildren] at hold
    rw [List.length_append, List.length_singleton, List.range_succ]
    refine (hperm.append_left _).trans (List.perm_middle.trans ?_)
    exact (hold.cons _).trans (List.perm_append_singleton _ _).symm

/-- The queue after leaves have been inserted (R141). -/
theorem Pending.enqueueLeaves {ns : List Node} (hns : ∀ n ∈ ns, childrenOf n = []) :
    ∀ {store : List Node} {q : List QueueEntry}, Pending store q →
      Pending (store ++ ns) (enqueueLeaves store.length ns q) := by
  induction ns with
  | nil =>
    intro store q h
    rwa [List.append_nil]
  | cons n ns ih =>
    intro store q h
    obtain ⟨hn, hns⟩ := List.forall_mem_cons.1 hns
    have := ih hns (Pending.push (xs := []) h hn)
    rwa [List.append_assoc, List.length_append] at this

/-- Node `n` at index `k` of `nodes` is the merge of the two smallest entries of the queue beside the nodes before it
(R143). -/
def MergedAt (nodes : List Node) (k : Nat) (n : Node) : Prop :=
  ∃ a b q, Pending (nodes.take k) (a :: b :: q) ∧ n = .internal (a.freq + b.freq) a.seq b.seq

/-- Every node the merge loop makes is the merge of the two smallest, and the root is the one entry left (R143). -/
theorem mergeQueue_merges : ∀ {fuel : Nat} {store : List Node} {q : List QueueEntry} {ns : List Node} {root : Nat},
    Pending store q → mergeQueue fuel store.length q = some (ns, root) →
    (∀ k n, store.length ≤ k → (store ++ ns)[k]? = some n → MergedAt (store ++ ns) k n) ∧
      ∃ x, Pending (store ++ ns) [x] ∧ x.seq = root := by
  have last {fuel : Nat} {store ns : List Node} {e : QueueEntry} {root : Nat} (h : Pending store [e])
      (hm : some (([] : List Node), e.seq) = some (ns, root)) :
      (∀ k n, store.length ≤ k → (store ++ ns)[k]? = some n → MergedAt (store ++ ns) k n) ∧
        ∃ x, Pending (store ++ ns) [x] ∧ x.seq = root := by
    obtain ⟨rfl, rfl⟩ := Prod.mk.inj (Option.some.inj hm)
    rw [List.append_nil]
    exact ⟨fun k n hk hn => absurd (List.getElem?_eq_some_iff.1 hn).1 (Nat.not_lt.2 hk), e, h, rfl⟩
  intro fuel
  induction fuel with
  | zero =>
    intro store q ns root h hm
    match q, h, hm with
    | [e], h, hm => exact last (fuel := 0) h hm
  | succ fuel ih =>
    intro store q ns root h hm
    match q, h, hm with
    | [e], h, hm => exact last (fuel := 0) h hm
    | a :: b :: q, h, hm =>
      unfold mergeQueue at hm
      split at hm
      · exact nomatch hm
      · next ns' root' hm' =>
        obtain ⟨rfl, rfl⟩ := Prod.mk.inj (Option.some.inj hm)
        have hpush := Pending.push (xs := [a, b]) (n := .internal (a.freq + b.freq) a.seq b.seq) h rfl
        have happ : store ++ .internal (a.freq + b.freq) a.seq b.seq :: ns' =
            store ++ [.internal (a.freq + b.freq) a.seq b.seq] ++ ns' := by simp
        obtain ⟨later, hroot⟩ := ih hpush (by rwa [List.length_append])
        rw [← happ] at later hroot
        refine ⟨fun k n hk hn => ?_, hroot⟩
        rcases Nat.eq_or_lt_of_le hk with rfl | hk
        · refine ⟨a, b, q, by rwa [List.take_left], ?_⟩
          simpa using hn.symm
        · exact later k n (by rwa [List.length_append]) hn

/-! ### The tree BuildStep makes (R141 to R145) -/

theorem leavesFrom_length (f : List Nat) : (leavesFrom 0 f).length = symbolCount f := by
  rw [leavesFrom_eq, List.length_map, symbolsFrom_length]

theorem mem_leavesFrom {f : List Nat} {n : Node} (h : n ∈ leavesFrom 0 f) : ∃ b fr, n = .leaf b fr := by
  rw [leavesFrom_eq] at h
  obtain ⟨x, -, rfl⟩ := List.mem_map.1 h
  exact ⟨x.1, x.2, rfl⟩

/-- A built tree is the leaves, then the merges, with the last entry of the queue as the root (R141, R143). -/
theorem buildStep_merges {f : List Nat} {t : Tree} (h : buildStep f = some t) :
    (∃ ns, t.nodes = leavesFrom 0 f ++ ns) ∧
      (∀ k n, symbolCount f ≤ k → t.nodes[k]? = some n → MergedAt t.nodes k n) ∧
      ∃ x, Pending t.nodes [x] ∧ x.seq = t.root := by
  unfold buildStep at h
  dsimp only at h
  split at h
  · exact nomatch h
  · next ns root hm =>
    obtain rfl := Option.some.inj h
    have childless : ∀ n ∈ leavesFrom 0 f, childrenOf n = [] := fun n hn => by
      obtain ⟨b, fr, rfl⟩ := mem_leavesFrom hn
      rfl
    obtain ⟨merges, hroot⟩ := mergeQueue_merges (Pending.empty.enqueueLeaves childless) hm
    rw [List.nil_append, leavesFrom_length] at merges
    exact ⟨⟨ns, rfl⟩, merges, hroot⟩

/-- The first m entries are leaves, so an Internal entry is one of the merges. -/
theorem buildStep_internal {f : List Nat} {t : Tree} (h : buildStep f = some t) {k fr l r : Nat}
    (hk : t.nodes[k]? = some (.internal fr l r)) : symbolCount f ≤ k := by
  obtain ⟨⟨ns, hns⟩, -⟩ := buildStep_merges h
  by_contra hlt
  rw [hns, List.getElem?_append_left (by rw [leavesFrom_length]; omega)] at hk
  obtain ⟨b, fr', hleaf⟩ := mem_leavesFrom (List.mem_of_getElem? hk)
  exact nomatch hleaf

/-- A Leaf entry is one of the first m. -/
theorem buildStep_leaf {f : List Nat} {t : Tree} (h : buildStep f = some t) {k fr : Nat} {b : Byte}
    (hk : t.nodes[k]? = some (.leaf b fr)) : (b, fr) ∈ symbolsFrom 0 f := by
  obtain ⟨⟨ns, hns⟩, merges, -⟩ := buildStep_merges h
  rcases Nat.lt_or_ge k (symbolCount f) with hlt | hge
  · rw [hns, List.getElem?_append_left (by rwa [leavesFrom_length]), leavesFrom_eq, List.getElem?_map,
      Option.map_eq_some_iff] at hk
    obtain ⟨x, hx, hleaf⟩ := hk
    obtain ⟨rfl, rfl⟩ := Node.leaf.inj hleaf
    exact List.mem_of_getElem? hx
  · obtain ⟨a, c, q, -, hnode⟩ := merges k _ hge hk
    exact nomatch hnode

/-- The leaves by byte value (R141). -/
theorem leavesFrom_eq_filter {f : List Nat} (h : f.length = 256) :
    leavesFrom 0 f = ((List.range 256).filter fun v => 0 < f.getD v 0).map fun v =>
      Node.leaf (BitVec.ofNat 8 v) (f.getD v 0) := by
  have along (f : List Nat) : ∀ s, leavesFrom s f =
      ((f.zipIdx s).filter fun x => 0 < x.1).map fun x => Node.leaf (BitVec.ofNat 8 x.2) x.1 := by
    induction f with
    | nil => exact fun _ => rfl
    | cons x f ih =>
      intro s
      unfold leavesFrom
      split
      · next hx => simp [hx, ih]
      · next hx => simp [hx, ih]
  have hzip : f.zipIdx = (List.range 256).map fun v => (f.getD v 0, v) := by
    refine List.ext_getElem (by simp [h]) fun v hv _ => ?_
    rw [List.length_zipIdx] at hv
    simp [hv]
  rw [along, hzip, List.filter_map, List.map_map]
  rfl

/-! ### The merges in terms of the finished tree (R143) -/

theorem getElem?_of_take {α : Type} {l : List α} {k i : Nat} {n : α} (h : (l.take k)[i]? = some n) :
    i < k ∧ l[i]? = some n := by
  rw [List.getElem?_take] at h
  split at h
  · next hi => exact ⟨hi, h⟩
  · exact nomatch h

section Merge

variable {t : Tree} {k : Nat} {q : List QueueEntry}

/-- The queue beside the nodes before index `k` holds what waits when node `k` is made. -/
theorem Pending.waiting_iff (h : Pending (t.nodes.take k) q) (hk : k ≤ t.nodes.length) (j : Nat) :
    t.Waiting k j ↔ ∃ x ∈ q, x.seq = j := by
  have hlen : (t.nodes.take k).length = k := by rw [List.length_take, Nat.min_eq_left hk]
  have hperm := h.indices
  rw [hlen] at hperm
  have hnodup := (hperm.nodup_iff.2 List.nodup_range)
  have hmem : j < k ↔ j ∈ (t.nodes.take k).flatMap childrenOf ∨ ∃ x ∈ q, x.seq = j := by
    rw [← List.mem_range, ← hperm.mem_iff, List.mem_append, List.mem_map]
  have hchild : j ∈ (t.nodes.take k).flatMap childrenOf ↔
      ∃ i, i < k ∧ ∃ n, t.nodes[i]? = some n ∧ j ∈ childrenOf n := by
    rw [List.mem_flatMap]
    constructor
    · rintro ⟨n, hn, hj⟩
      obtain ⟨i, hi⟩ := List.mem_iff_getElem?.1 hn
      obtain ⟨hik, hi⟩ := getElem?_of_take hi
      exact ⟨i, hik, n, hi, hj⟩
    · rintro ⟨i, hik, n, hi, hj⟩
      exact ⟨n, List.mem_of_getElem? ((List.getElem?_take_of_lt hik).trans hi), hj⟩
  have hdisjoint : (∃ x ∈ q, x.seq = j) → j ∉ (t.nodes.take k).flatMap childrenOf := fun hq hc =>
    List.disjoint_of_nodup_append hnodup hc (List.mem_map.2 hq)
  have hwait : t.Waiting k j ↔ j < k ∧ j ∉ (t.nodes.take k).flatMap childrenOf := by
    rw [hchild]
    simp only [Tree.Waiting, not_exists, not_and]
  rw [hwait, hmem]
  exact ⟨fun ⟨hor, hnc⟩ => hor.resolve_left hnc, fun hq => ⟨.inr hq, hdisjoint hq⟩⟩

/-- The key order of the queue is the order of the nodes (R142). -/
theorem Pending.before (h : Pending (t.nodes.take k) q) {x y : QueueEntry} (hx : x ∈ q) (hy : y ∈ q)
    (hxy : QueueEntry.before x y = true) : t.Before x.seq y.seq := by
  obtain ⟨m, hm, hmx⟩ := h.entry x hx
  obtain ⟨n, hn, hny⟩ := h.entry y hy
  refine ⟨m, n, (getElem?_of_take hm).2, (getElem?_of_take hn).2, ?_⟩
  rw [hmx, hny]
  exact before_iff.1 hxy

/-- The children of a merge are earlier nodes whose frequencies add up to its own (R143, R145). -/
theorem MergedAt.children {n : Node} (h : MergedAt t.nodes k n) : ∃ fr l r, n = .internal fr l r ∧ l < k ∧ r < k ∧
    ∃ nl nr, t.nodes[l]? = some nl ∧ t.nodes[r]? = some nr ∧ fr = Node.freq nl + Node.freq nr := by
  obtain ⟨a, b, q, hq, rfl⟩ := h
  obtain ⟨nl, hl, hal⟩ := hq.entry a List.mem_cons_self
  obtain ⟨nr, hr, hbr⟩ := hq.entry b (List.mem_cons_of_mem _ List.mem_cons_self)
  obtain ⟨hlk, hl⟩ := getElem?_of_take hl
  obtain ⟨hrk, hr⟩ := getElem?_of_take hr
  exact ⟨_, _, _, rfl, hlk, hrk, nl, nr, hl, hr, by rw [hal, hbr]⟩

/-- The merge takes the two smallest of what waits, the smallest as the left child (R143). -/
theorem MergedAt.smallest {fr l r : Nat} (h : MergedAt t.nodes k (.internal fr l r)) (hk : k ≤ t.nodes.length) :
    t.Waiting k l ∧ t.Waiting k r ∧ l ≠ r ∧ (∀ j, t.Waiting k j → j ≠ l → t.Before l j) ∧
      ∀ j, t.Waiting k j → j ≠ l → j ≠ r → t.Before r j := by
  obtain ⟨a, b, q, hq, hnode⟩ := h
  obtain ⟨-, rfl, rfl⟩ := Node.internal.inj hnode
  have ha : a ∈ a :: b :: q := List.mem_cons_self
  have hb : b ∈ a :: b :: q := List.mem_cons_of_mem _ List.mem_cons_self
  obtain ⟨hafter, hrest⟩ := List.pairwise_cons.1 hq.ordered
  obtain ⟨hbfter, -⟩ := List.pairwise_cons.1 hrest
  have hnodup := (List.nodup_append.1 (hq.indices.nodup_iff.2 List.nodup_range)).2.1
  refine ⟨(hq.waiting_iff hk _).2 ⟨a, ha, rfl⟩, (hq.waiting_iff hk _).2 ⟨b, hb, rfl⟩, ?distinct, fun j hj hjl => ?left,
    fun j hj hjl hjr => ?right⟩
  case distinct =>
    intro hab
    exact (List.nodup_cons.1 hnodup).1 (List.mem_map.2 ⟨b, List.mem_cons_self, hab.symm⟩)
  case left =>
    obtain ⟨x, hx, rfl⟩ := (hq.waiting_iff hk j).1 hj
    rcases List.mem_cons.1 hx with rfl | hx'
    · exact absurd rfl hjl
    · exact hq.before ha hx (hafter x hx')
  case right =>
    obtain ⟨x, hx, rfl⟩ := (hq.waiting_iff hk j).1 hj
    rcases List.mem_cons.1 hx with rfl | hx'
    · exact absurd rfl hjl
    · rcases List.mem_cons.1 hx' with rfl | hx''
      · exact absurd rfl hjr
      · exact hq.before hb hx (hbfter x hx'')

end Merge

/-- Settles O37: each merge is the head of an ordered queue that holds exactly what waits. -/
theorem buildMergesTheTwoSmallest : Obligations.BuildMergesTheTwoSmallest := by
  intro f t hf h
  obtain ⟨-, hsize, hroot, -⟩ := buildStep_some h hf.le
  refine ⟨hsize, by omega, fun k fr l r hk => ?_⟩
  obtain ⟨-, merges, -⟩ := buildStep_merges h
  have hmerge := merges k _ (buildStep_internal h hk) hk
  obtain ⟨hl, hr, hne, hleft, hright⟩ := hmerge.smallest (List.getElem?_eq_some_iff.1 hk).1.le
  obtain ⟨fr', l', r', hnode, -, -, hsum⟩ := hmerge.children
  obtain ⟨rfl, rfl, rfl⟩ := Node.internal.inj hnode
  exact ⟨hl, hr, hne, hsum, hleft, hright⟩

/-! ### Paths in a stored tree (R145, R146) -/

/-- A path leads to an entry of the store. -/
theorem follow_entry {node : Nat → Option Node} {n : Node} : ∀ {p : Code} {k : Nat}, follow node k p = some n →
    ∃ j, node j = some n := by
  intro p
  induction p with
  | nil => exact fun {k} h => ⟨k, h⟩
  | cons b p ih =>
    intro k h
    unfold follow at h
    split at h
    · exact ih h
    · exact nomatch h

theorem follow_internal {node : Nat → Option Node} {k fr l r : Nat} (h : node k = some (.internal fr l r)) (b : Bool)
    (p : Code) : follow node k (b :: p) = follow node (if b then r else l) p := by
  simp only [follow, h]

theorem follow_leaf {node : Nat → Option Node} {k fr : Nat} {s : Byte} (h : node k = some (.leaf s fr)) (b : Bool)
    (p : Code) : follow node k (b :: p) = none := by
  simp only [follow, h]

/-- Nothing below one child of the root has a path that leaves the root by the other. -/
theorem HTree.notMem_paths_other (t : HTree) (s : Byte) {p q : Code} {b c : Bool} (h : b ≠ c) :
    (s, p ++ b :: q) ∉ t.paths (p ++ [c]) := by
  intro hx
  have := (List.prefix_append_right_inj p).1 (paths_start hx)
  exact h (List.cons_prefix_cons.1 this).1.symm

/-- The walk binds a byte to exactly the paths that lead to a Leaf of it (R146). -/
theorem HTree.Stored.mem_paths_iff {node : Nat → Option Node} {s : Byte} : ∀ {t : HTree} {k : Nat}, t.Stored node k →
    ∀ {p q : Code}, (s, p ++ q) ∈ t.paths p ↔ ∃ f, follow node k q = some (.leaf s f)
  | .leaf s' f', k, hs, p, [] => by
    have hs : node k = some (.leaf s' f') := hs
    simp [paths, follow, hs, eq_comm]
  | .leaf s' f', k, hs, p, b :: q => by
    rw [follow_leaf hs]
    simp [paths]
  | .bin l r, k, ⟨i, j, hk, _⟩, p, [] => by
    refine iff_of_false (fun h => ?_) (by simp [follow, hk])
    rw [List.append_nil] at h
    rcases List.mem_append.1 h with h | h
    all_goals
      have := (paths_start h).length_le
      simp at this
  | .bin l r, k, ⟨i, j, hk, _, _, hl, hr⟩, p, true :: q => by
    have hright := hr.mem_paths_iff (s := s) (p := p ++ [true]) (q := q)
    rw [List.append_assoc, List.singleton_append] at hright
    rw [follow_internal hk, if_pos rfl, ← hright, paths, List.mem_append]
    exact or_iff_left (l.notMem_paths_other s (by decide))
  | .bin l r, k, ⟨i, j, hk, _, _, hl, hr⟩, p, false :: q => by
    have hleft := hl.mem_paths_iff (s := s) (p := p ++ [false]) (q := q)
    rw [List.append_assoc, List.singleton_append] at hleft
    rw [follow_internal hk, if_neg (by decide), ← hleft, paths, List.mem_append]
    exact or_iff_right (r.notMem_paths_other s (by decide))

/-- In a stored tree whose leaves have different byte values, exactly one path leads to each of them (R145). -/
theorem HTree.Stored.existsUnique_path {node : Nat → Option Node} {t : HTree} {k : Nat} (h : t.Stored node k)
    (hnodup : (t.leaves.map Prod.fst).Nodup) {s : Byte} (hs : s ∈ t.leaves.map Prod.fst) :
    ∃ p, (∃ f, follow node k p = some (.leaf s f)) ∧ ∀ q f, follow node k q = some (.leaf s f) → q = p := by
  have hpaths : ((t.paths []).map Prod.fst).Nodup := by
    rw [paths_syms]
    exact List.nodup_reverse.2 hnodup
  have hmem : s ∈ (t.paths []).map Prod.fst := by rwa [paths_syms, List.mem_reverse]
  obtain ⟨⟨s, p⟩, hp, rfl⟩ := List.mem_map.1 hmem
  refine ⟨p, h.mem_paths_iff.1 hp, fun q f hq => ?_⟩
  have hq : (s, q) ∈ t.paths [] := h.mem_paths_iff.2 ⟨f, hq⟩
  exact Option.some.inj ((lookup_of_nodup hpaths hq).symm.trans (lookup_of_nodup hpaths hp))

/-- A table gives each byte value one count. -/
theorem symbolsFrom_count_unique {f : List Nat} (h : f.length ≤ 256) {b : Byte} {m n : Nat}
    (hm : (b, m) ∈ symbolsFrom 0 f) (hn : (b, n) ∈ symbolsFrom 0 f) : m = n :=
  (Prod.mk.inj (List.inj_on_of_nodup_map (symbolsFrom_nodup f 0 (by omega)) hm hn rfl)).2

/-- Settles O36: the leaves and the merges from the order of the nodes, the children from the queue's indices, the paths
from the tree stored in the nodes. -/
theorem builtTreesAreStrictlyBinary : Obligations.BuiltTreesAreStrictlyBinary := by
  intro f t hf h
  obtain ⟨-, -, hroot, -, tree, hstored, hleaves⟩ := buildStep_some h hf.le
  obtain ⟨⟨ns, hns⟩, merges, last, hpending, hlast⟩ := buildStep_merges h
  refine ⟨?leaves, fun k n hk hn => (merges k n hk hn).children, ?children, hroot, fun k b fr hk => ?path⟩
  case leaves => rw [hns, List.take_left' (leavesFrom_length f), leavesFrom_eq_filter hf]
  case children =>
    have hperm := hpending.indices
    rw [← hroot, List.range_succ, List.map_singleton, hlast] at hperm
    exact (List.perm_append_right_iff _).1 hperm
  case path =>
    have hsym := buildStep_leaf h hk
    have hnodup : (tree.leaves.map Prod.fst).Nodup :=
      (hleaves.map Prod.fst).nodup_iff.2 (symbolsFrom_nodup f 0 (by omega))
    have hmem : b ∈ tree.leaves.map Prod.fst := List.mem_map.2 ⟨_, hleaves.mem_iff.2 hsym, rfl⟩
    obtain ⟨p, ⟨fr', hp⟩, hunique⟩ := hstored.existsUnique_path hnodup hmem
    obtain ⟨j, hj⟩ := follow_entry hp
    obtain rfl := symbolsFrom_count_unique hf.le (buildStep_leaf h hj) hsym
    exact ⟨p, hp, fun q hq => hunique q _ hq⟩

end Sys2Proof.Machine
end

section
/-! PROOFS. The Huffman family (40_huffman.md), the stages: the packed bits (R148), the code of a stored tree (R146, R149), and
what FREQ, BUILD and CODEGEN complete with (R150 to R152). -/

namespace Sys2Proof.Machine

/-! ### Packing (R148) -/

/-- A packed byte's bits, the most significant first. -/
theorem packByte_getLsbD (bits : List Bool) (i : Nat) {t : Nat} (ht : t < 8) :
    (packByte bits i).getLsbD (7 - t) = bits.getD (8 * i + t) false := by
  have hrev : 8 - (7 - t + 1) = t := by omega
  rw [packByte, BitVec.getLsbD_ofFnBE, dif_pos (by omega)]
  simp only [Fin.rev, hrev]

theorem pack_getElem? {bits : List Bool} {i : Nat} {b : Byte} (h : (pack bits)[i]? = some b) : b = packByte bits i := by
  rw [pack, List.getElem?_map, Option.map_eq_some_iff] at h
  obtain ⟨j, hj, rfl⟩ := h
  obtain ⟨-, rfl⟩ := List.getElem?_eq_some_iff.1 hj
  rw [List.getElem_range]

/-- Settles O35: each byte is built from its eight bits, and bit k is bit k mod 8 of byte k div 8. -/
theorem packIsMostSignificantBitFirst : Obligations.PackIsMostSignificantBitFirst := by
  refine fun bits => ⟨pack_length bits, fun k b hb => ?_⟩
  rw [pack_getElem? hb, packByte_getLsbD bits _ (Nat.mod_lt k (by decide)), Nat.div_add_mod]

/-! ### The codewords of a tree (R146, R149) -/

/-- A byte with a codeword is bound to it. -/
theorem mem_of_codeOf_ne_nil {bound : List (Byte × Code)} {b : Byte} (h : codeOf (codeTable bound) b ≠ []) :
    (b, codeOf (codeTable bound) b) ∈ bound := by
  rw [codeOf_codeTable] at h ⊢
  cases hl : bound.lookup b with
  | none => exact absurd (by rw [hl]; rfl) h
  | some c =>
    obtain ⟨before, after, hbound, -⟩ := List.lookup_eq_some_iff.1 hl
    rw [hbound]
    exact List.mem_append_right _ List.mem_cons_self

/-- Exactly the tree's byte values have a codeword. -/
theorem HTree.codeOf_ne_nil_iff {t : HTree} (h : (t.leaves.map Prod.fst).Nodup) {b : Byte} :
    codeOf (codeTable t.codes) b ≠ [] ↔ b ∈ t.leaves.map Prod.fst := by
  have hsyms : b ∈ t.codes.map Prod.fst ↔ b ∈ t.leaves.map Prod.fst := by rw [codes_syms, List.mem_reverse]
  rw [← hsyms]
  constructor
  · exact fun hb => List.mem_map.2 ⟨_, mem_of_codeOf_ne_nil hb, rfl⟩
  · intro hb
    obtain ⟨x, hx, rfl⟩ := List.mem_map.1 hb
    rw [codeOf_codeTable, lookup_of_nodup (by rw [codes_syms]; exact List.nodup_reverse.2 h) (p := x.2) hx]
    exact codes_ne_nil hx

/-- Neither codeword starts the other. -/
def PrefixFree (x y : Byte × Code) : Prop := ¬ x.2 <+: y.2 ∧ ¬ y.2 <+: x.2

/-- No codeword of a tree starts another one (R149). -/
theorem HTree.codes_prefixFree (t : HTree) : t.codes.Pairwise PrefixFree := by
  cases t with
  | leaf s f => exact List.pairwise_singleton _ _
  | bin l r => exact (HTree.bin l r).paths_prefixFree []

theorem HTree.leaves_length_pos (t : HTree) : 0 < t.leaves.length := by
  induction t with
  | leaf s f => exact Nat.one_pos
  | bin l r hl hr =>
    rw [leaves, List.length_append]
    omega

/-- A path is shorter than the number of leaves: every turn leaves one behind. -/
theorem HTree.paths_length {t : HTree} : ∀ {p : Code} {x : Byte × Code}, x ∈ t.paths p →
    x.2.length + 1 ≤ p.length + t.leaves.length := by
  induction t with
  | leaf s f =>
    intro p x hx
    obtain rfl := List.mem_singleton.1 hx
    exact Nat.le_refl _
  | bin l r hl hr =>
    intro p x hx
    have := l.leaves_length_pos
    have := r.leaves_length_pos
    rw [leaves, List.length_append]
    rcases List.mem_append.1 hx with hx | hx
    · have := hr hx
      simp only [List.length_append, List.length_singleton] at this
      omega
    · have := hl hx
      simp only [List.length_append, List.length_singleton] at this
      omega

/-- With at most 256 leaves CODE_LEN has room for every codeword's length (R51). -/
theorem HTree.codes_length_le {t : HTree} (h : t.leaves.length ≤ 256) {x : Byte × Code} (hx : x ∈ t.codes) :
    x.2.length ≤ 255 := by
  cases t with
  | leaf s f =>
    obtain rfl := List.mem_singleton.1 hx
    exact (by decide : 1 ≤ 255)
  | bin l r =>
    have := (HTree.bin l r).paths_length (p := []) hx
    rw [List.length_nil] at this
    omega

theorem HTree.codeOf_length_le {t : HTree} (h : t.leaves.length ≤ 256) (b : Byte) :
    (codeOf (codeTable t.codes) b).length ≤ 255 := by
  by_cases hb : codeOf (codeTable t.codes) b = []
  · rw [hb]
    exact Nat.zero_le _
  · exact codes_length_le h (x := (b, _)) (mem_of_codeOf_ne_nil hb)

/-- A codeword is the path to its byte's Leaf, unless that is the root (R146). -/
theorem HTree.Stored.codes_path {node : Nat → Option Node} {t : HTree} {k : Nat} (h : t.Stored node k) {b : Byte}
    {c : Code} (hmem : (b, c) ∈ t.codes) :
    ∃ f, node k = some (.leaf b f) ∨ follow node k c = some (.leaf b f) := by
  cases t with
  | leaf s f =>
    obtain rfl := (Prod.mk.inj (List.mem_singleton.1 hmem)).1
    exact ⟨f, .inl h⟩
  | bin l r =>
    obtain ⟨f, hf⟩ := h.mem_paths_iff (p := []).1 hmem
    exact ⟨f, .inr hf⟩

/-- A Leaf as the root has the one-bit code (R146). -/
theorem HTree.Stored.codeOf_root {node : Nat → Option Node} {t : HTree} {k : Nat} (h : t.Stored node k) {b : Byte}
    {f : Nat} (hk : node k = some (.leaf b f)) : codeOf (codeTable t.codes) b = [false] := by
  cases t with
  | leaf s f' =>
    have h : node k = some (.leaf s f') := h
    obtain ⟨rfl, -⟩ := Node.leaf.inj (Option.some.inj (hk.symm.trans h))
    rw [codeOf_codeTable, codes, List.lookup_cons_self]
    rfl
  | bin l r =>
    obtain ⟨i, j, hk', -⟩ := h
    exact nomatch hk.symm.trans hk'

/-! ### The tree a consistent state stores (R48) -/

/-- The byte values of a table are those with a positive entry (R141). -/
theorem mem_symbols_iff {f : List Nat} (h : f.length ≤ 256) {b : Byte} {n : Nat} (hn : f[b.toNat]? = some n) :
    b ∈ (symbolsFrom 0 f).map Prod.fst ↔ 0 < n := by
  constructor
  · intro hb
    obtain ⟨x, hx, rfl⟩ := List.mem_map.1 hb
    obtain ⟨d, hd, hsym, hcount, hpos⟩ := symbolsFrom_range f 0 x hx
    have hval : x.1.toNat = d := by rw [hsym, BitVec.toNat_ofNat]; omega
    rw [hval, hcount] at hn
    exact Option.some.inj hn ▸ hpos
  · intro hpos
    have := mem_symbolsFrom f 0 _ n hn hpos
    rw [Nat.zero_add, BitVec.ofNat_toNat, BitVec.setWidth_eq] at this
    exact List.mem_map.2 ⟨_, this, rfl⟩

theorem freqTable_get (s : State) (b : Byte) : (freqTable s)[b.toNat]? = some (s.freq[b.toNat]'b.isLt).toNat := by
  rw [freqTable, List.getElem?_map, Vector.getElem?_toList, Vector.getElem?_eq_getElem b.isLt]
  rfl

/-- A tree stored in the node store over the symbols of the table, as a consistent state has it (R48, R141, R145). -/
structure StoredTree (s : State) (tree : HTree) : Prop where
  stored : tree.Stored (nodeAt s) s.root.toNat
  leaves : tree.leaves.Perm (symbolsFrom 0 (freqTable s))
  code : codegenStep (nodeAt s) s.root.toNat = some (codeTable tree.codes)

theorem StoredTree.of_pipelineInv {s : State} (h : PipelineInv s) (hv : s.treeValid = true) :
    ∃ tree, StoredTree s tree := by
  obtain ⟨-, hvalid, -⟩ := h
  obtain ⟨t, ht, hnodes, -, hroot⟩ := hvalid hv
  obtain ⟨-, -, hlast, hsize, tree, hstored, hleaves⟩ := buildStep_some ht (freqTable_length s).le
  have hstored := hroot ▸ hstored.mono hnodes
  exact ⟨tree, hstored, hleaves, hstored.codegen (by simp only [nodeMax]; omega)⟩

section StoredTree

variable {s : State} {tree : HTree}

theorem StoredTree.nodup (h : StoredTree s tree) : (tree.leaves.map Prod.fst).Nodup :=
  (h.leaves.map Prod.fst).nodup_iff.2 (symbolsFrom_nodup _ 0 (by rw [freqTable_length]))

theorem StoredTree.leaves_length_le (h : StoredTree s tree) : tree.leaves.length ≤ 256 := by
  rw [h.leaves.length_eq, symbolsFrom_length, ← freqTable_length s]
  exact List.countP_le_length

/-- Exactly the byte values with a count have a codeword (R152). -/
theorem StoredTree.codeOf_ne_nil_iff (h : StoredTree s tree) (b : Byte) :
    codeOf (codeTable tree.codes) b ≠ [] ↔ 0 < (s.freq[b.toNat]'b.isLt).toNat := by
  rw [HTree.codeOf_ne_nil_iff h.nodup, (h.leaves.map Prod.fst).mem_iff,
    mem_symbols_iff (freqTable_length s).le (freqTable_get s b)]

end StoredTree

/-- Settles O38: a valid code is the code of the stored tree, no codeword of which starts another one. -/
theorem codewordsArePrefixFree : Obligations.CodewordsArePrefixFree := by
  intro s hp hc ht b c hbc hb hcne
  obtain ⟨tree, htree⟩ := StoredTree.of_pipelineInv hp ht
  obtain ⟨-, -, hcode⟩ := hp
  have hcode : s.code = codeTable tree.codes := Option.some.inj ((hcode hc).symm.trans htree.code)
  rw [hcode] at hb hcne ⊢
  have hsymm : Std.Symm PrefixFree := ⟨fun _ _ h => h.symm⟩
  exact (tree.codes_prefixFree.forall (mem_of_codeOf_ne_nil hb) (mem_of_codeOf_ne_nil hcne)
    fun he => hbc (Prod.mk.inj he).1).1

/-! ### FREQ (R140, R150) -/

/-- The table of an input by byte value (R140). -/
theorem freqStep_toList_eq_map (input : List Byte) :
    (freqStep input).toList = (List.range 256).map fun v => input.count (BitVec.ofNat 8 v) := by
  refine List.ext_getElem (by simp) fun d h _ => ?_
  rw [Vector.getElem_toList, freqStep_get input (by simpa using h), List.getElem_map, List.getElem_range]

/-- The number of symbols of an input's table is the number of byte values that occur (R140). -/
theorem symbolCount_freqStep (input : List Byte) :
    symbolCount (freqStep input).toList = (List.range 256).countP fun v => BitVec.ofNat 8 v ∈ input := by
  rw [freqStep_toList_eq_map, symbolCount, List.countP_map]
  refine List.countP_congr fun v _ => ?_
  simp only [Function.comp_apply, decide_eq_true_eq]
  exact List.count_pos_iff

theorem setFreq_freq_get (input : List Byte) (s : State) (b : Byte) :
    (setFreq (freqStep input) s).freq[b.toNat]'b.isLt = BitVec.ofNat 32 (input.count b) := by
  simp only [setFreq_freq, Vector.getElem_map, freqStep_get input b.isLt, BitVec.ofNat_toNat, BitVec.setWidth_eq]

/-- A 32-bit FREQ entry has room for every count (R50). -/
theorem setFreq_freq_toNat {input : List Byte} (h : input.length < 2 ^ 32) (s : State) (b : Byte) :
    ((setFreq (freqStep input) s).freq[b.toNat]'b.isLt).toNat = input.count b := by
  have : input.count b ≤ input.length := List.count_le_length
  rw [setFreq_freq_get, BitVec.toNat_ofNat, Nat.mod_eq_of_lt (by omega)]

/-- The 9 bits of NSYM have room for 256 symbols (R39). -/
theorem setFreq_nsym_symbolCount (input : List Byte) (s : State) :
    (setFreq (freqStep input) s).nsym.toNat = symbolCount (freqStep input).toList := by
  have := symbolCount_freqStep_le input
  rw [setFreq_nsym, BitVec.toNat_ofNat, Nat.mod_eq_of_lt (by omega)]

theorem setFreq_nsym_countP (input : List Byte) (s : State) :
    (setFreq (freqStep input) s).nsym.toNat = (List.range 256).countP fun v => BitVec.ofNat 8 v ∈ input := by
  rw [setFreq_nsym_symbolCount, symbolCount_freqStep]

/-- An empty input has no symbol (R150). -/
theorem setFreq_nil_nsym (s : State) : (setFreq (freqStep []) s).nsym = 0 := by
  rw [setFreq_nsym, freqStep_nil]
  rfl

theorem input_length (s : State) : (input s).length = inLen s := inputBytes_length s _

theorem input_length_lt (s : State) : (input s).length < 2 ^ 32 := by
  rw [input_length]
  exact s.len.isLt

theorem completed_completeOk (b : Bool) (s : State) : Completed (completeOk b s) := ⟨rfl, rfl⟩

/-- Settles O8: the frequency stage counts each byte and each distinct one, and writes the flags. -/
theorem freqCompletes : Obligations.FreqCompletes := by
  refine ⟨rfl, fun s => ⟨fun hlen => finish_lenRange hlen, fun hlen => ⟨_, execFreq_ok hlen, completed_completeOk _ _,
    fun b => ⟨setFreq_freq_get (input s) s b, setFreq_freq_toNat (input_length_lt s) s b⟩,
    setFreq_nsym_countP (input s) s, rfl, rfl, rfl, rfl, rfl⟩⟩⟩

/-! ### BUILD (R151) -/

/-- BUILD keeps the entries beyond its tree (R151). -/
theorem nodeAt_setTree_beyond {t : Tree} (h : t.nodes.length ≤ 511) (s : State) {k : Nat} (hk : t.nodes.length ≤ k) :
    nodeAt (setTree t s) k = nodeAt s k := by
  rw [nodeAt_setTree h, List.getElem?_eq_none hk, Option.none_or]

/-- Settles O9: a consistent state's table with symbols has a tree, which the tree stage stores from NODE[0] on. -/
theorem buildCompletes : Obligations.BuildCompletes := by
  refine ⟨rfl, fun s => ⟨execBuild_seq, execBuild_emptyTable, fun hv hm hp => ?_⟩⟩
  obtain ⟨hcount, -, -⟩ := hp
  have hpos : 0 < s.nsym.toNat := Nat.pos_of_ne_zero fun h0 => hm (BitVec.eq_of_toNat_eq h0)
  obtain ⟨tr, -, htr, -⟩ := buildStep_spec (hcount ▸ hpos) (freqTable_length s).le
  obtain ⟨-, hsize, hroot, hfit, -⟩ := buildStep_some htr (freqTable_length s).le
  have hnnodes := setTree_nnodes_toNat hfit s
  have hrootReg := setTree_root_toNat hfit hroot s
  refine ⟨_, tr, execBuild_ok hv hm htr, completed_completeOk _ _, htr, fun k n => nodeAt_setTree_of_some hfit s,
    fun k => nodeAt_setTree_beyond hfit s, hnnodes, ?count, hrootReg, ?rootCount, rfl, rfl, rfl, rfl⟩
  case count => rw [completeOk_nnodes, hnnodes, hsize, hcount]
  case rootCount => rw [completeOk_root, hrootReg, hcount]; omega

/-! ### CODEGEN (R146, R152) -/

/-- Settles O10: CODEGEN binds the codewords of the tree that a consistent state stores. -/
theorem codegenCompletes : Obligations.CodegenCompletes := by
  refine ⟨rfl, fun s => ⟨execCodegen_seq, fun hv hp => ?_⟩⟩
  obtain ⟨tree, htree⟩ := StoredTree.of_pipelineInv hp hv
  refine ⟨_, execCodegen_ok hv htree.code, completed_completeOk _ _, fun b f => htree.stored.codeOf_root,
    fun b hb => htree.stored.codes_path (mem_of_codeOf_ne_nil hb), htree.codeOf_ne_nil_iff,
    fun b => ⟨codeLenWord_toNat (HTree.codeOf_length_le htree.leaves_length_le (BitVec.ofFin b)),
      fun w k hk => codeBitsWord_getLsbD _ _ hk⟩, rfl, rfl, rfl⟩

end Sys2Proof.Machine
end

section
/-! PROOFS. The Huffman family (40_huffman.md), the encoders: what Publish leaves (R273), what HENC and HUFF complete with (R147,
R153, R154), and what HUFF's result depends on (R144, R155, R156). -/

namespace Sys2Proof.Machine

/-! ### Publish (R271, R273, R275) -/

/-- The ratio of bits to input is exact in its 32-bit registers for every capacity (R275). -/
theorem ratio_registers {m bits n : Nat} (hm : m ≤ Config.maxLenLimit) (hbits : bits ≤ 24 * m) (hn : n ≤ m) :
    (BitVec.ofInt 32 (ratio bits n).1).toInt = (if n = 0 then 0 else 8 * (n : Int) - bits) ∧
      (BitVec.ofNat 32 (ratio bits n).2).toNat = if n = 0 then 0 else 8 * n := by
  simp only [Config.maxLenLimit] at hm
  by_cases h0 : n = 0
  · simp [ratio, h0]
  · simp only [ratio, h0, if_false]
    refine ⟨?_, by rw [BitVec.toNat_ofNat, Nat.mod_eq_of_lt (by omega)]⟩
    rw [BitVec.toInt_ofInt_eq_self (by decide) (by omega) (by omega)]
    omega

/-- Publish leaves the exact result wherever the output fits OBUF (R273, R275). -/
theorem publishWrites_published {s : State} (hp : ParamInv s) (a : Alg) {out : List Byte} {bits n : Nat}
    (hout : out.length ≤ obufSize s) (hbits : bits ≤ 24 * s.maxLen) (hn : n ≤ s.maxLen) :
    Published a out bits n s (publishWrites a out bits n s) := by
  have hmax : s.maxLen ≤ Config.maxLenLimit := hp.2
  obtain ⟨hnum, hden⟩ := ratio_registers hmax hbits hn
  refine ⟨rfl, publishWrites_outBytes_toNat hp hout a bits n, ?bits, hnum, hden, fun j hj => ?written,
    fun j => outByte_publishWrites_beyond, publishWrites_record a out bits n s,
    fun b hb => publishWrites_other_record hb out bits n s⟩
  case bits =>
    simp only [Config.maxLenLimit] at hmax
    rw [publishWrites_outBits, BitVec.toNat_ofNat, Nat.mod_eq_of_lt (by omega)]
  case written => rw [outByte_publishWrites, dif_pos hj, List.getElem?_eq_getElem hj]

/-- What was published on a state is published on every state with the same OBUF and records. -/
theorem Published.on {a : Alg} {out : List Byte} {bits n : Nat} {s u t : State} (h : Published a out bits n u t)
    (hout : ∀ j, outByte u j = outByte s j) (hres : u.res = s.res) : Published a out bits n s t :=
  { h with
    kept := fun j hj => (h.kept j hj).trans (hout j)
    others := fun b hb => (h.others b hb).trans (by rw [hres]) }

theorem Published.completeOk {a : Alg} {out : List Byte} {bits n : Nat} {s t : State} (h : Published a out bits n s t)
    (b : Bool) : Published a out bits n s (completeOk b t) := { h with }

/-! ### HENC (R147, R153) -/

section Henc

variable {s : State}

/-- HENC without a valid code (R153). -/
theorem execHenc_seq (hlen : inLen s ≤ s.maxLen) (hv : s.codeValid = false) :
    execHenc s = .next (completeError .seq s) := by
  rw [execHenc, finish_lenOk hlen, if_pos hv, finish_raise]

/-- HENC on an empty input (R153, R301). -/
theorem execHenc_empty (h0 : inLen s = 0) (hv : s.codeValid = true) :
    execHenc s = .next (completeOk true (publishWrites .huffman [] 0 0 s)) := by
  have hfit : ([] : List Byte).length ≤ obufSize s := Nat.zero_le _
  have hlen : inLen s ≤ s.maxLen := h0 ▸ Nat.zero_le _
  rw [execHenc, finish_lenOk hlen, if_neg (by rw [hv]; decide), if_pos (show s.len.toNat = 0 from h0),
    publish_fits hfit]
  rfl

/-- HENC's check for a byte with no codeword (R153). -/
theorem any_code_isEmpty :
    (inputBytes s s.len.toNat).any (fun b => (codeOf s.code b).isEmpty) = true ↔
      ∃ b ∈ input s, codeOf s.code b = [] := by
  simp only [List.any_eq_true, List.isEmpty_iff, input, inLen]

/-- HENC on an input byte with no codeword (R153). -/
theorem execHenc_noCode (h0 : 0 < inLen s) (hlen : inLen s ≤ s.maxLen) (hv : s.codeValid = true)
    (hb : ∃ b ∈ input s, codeOf s.code b = []) : execHenc s = .next (completeError .noCode s) := by
  rw [execHenc, finish_lenOk hlen, if_neg (by rw [hv]; decide), if_neg (show ¬ s.len.toNat = 0 from h0.ne'),
    if_pos (any_code_isEmpty.2 hb), finish_raise]

/-- HENC on an input whose bytes all have codewords is one Publish of the packed bits (R153). -/
theorem execHenc_coded (h0 : 0 < inLen s) (hlen : inLen s ≤ s.maxLen) (hv : s.codeValid = true)
    (hb : ∀ b ∈ input s, codeOf s.code b ≠ []) :
    execHenc s = finish s (do
      let t ← publish .huffman (pack (hencBits s.code (input s))) (hencBits s.code (input s)).length (inLen s) s
      .ok (t, false)) := by
  have hnone : ¬ ∃ b ∈ input s, codeOf s.code b = [] := fun ⟨b, hmem, hnil⟩ => hb b hmem hnil
  rw [execHenc, finish_lenOk hlen, if_neg (by rw [hv]; decide), if_neg (show ¬ s.len.toNat = 0 from h0.ne'),
    if_neg (mt any_code_isEmpty.1 hnone)]
  rfl

/-- A packed bit-string fits OBUF exactly when it has at most eight bits a byte of it (R148). -/
theorem pack_fits_iff {bits : List Bool} : (pack bits).length ≤ obufSize s ↔ bits.length ≤ 8 * obufSize s := by
  rw [pack_length]
  omega

theorem execHenc_publishes (h0 : 0 < inLen s) (hlen : inLen s ≤ s.maxLen) (hv : s.codeValid = true)
    (hb : ∀ b ∈ input s, codeOf s.code b ≠ []) (hfit : (hencBits s.code (input s)).length ≤ 8 * obufSize s) :
    execHenc s = .next (completeOk false (publishWrites .huffman (pack (hencBits s.code (input s)))
      (hencBits s.code (input s)).length (inLen s) s)) := by
  rw [execHenc_coded h0 hlen hv hb, publish_fits (pack_fits_iff.2 hfit)]
  rfl

/-- HENC on bits that do not fit OBUF (log entry 7). -/
theorem execHenc_overflows (h0 : 0 < inLen s) (hlen : inLen s ≤ s.maxLen) (hv : s.codeValid = true)
    (hb : ∀ b ∈ input s, codeOf s.code b ≠ []) (hover : 8 * obufSize s < (hencBits s.code (input s)).length) :
    execHenc s = .fault .outByteRange := by
  rw [execHenc_coded h0 hlen hv hb, publish, if_neg (mt pack_fits_iff.1 (Nat.not_le.2 hover))]
  rfl

end Henc

/-- Settles O11, outcome by outcome. -/
theorem hencCompletes : Obligations.HencCompletes := by
  refine ⟨rfl, fun s hp => ⟨fun hlen => finish_lenRange hlen, execHenc_seq, fun h0 hv => ?empty, execHenc_noCode,
    fun h0 hlen hv hb hfit => ?publishes, execHenc_overflows⟩⟩
  case empty =>
    have hpub := publishWrites_published hp .huffman (out := []) (Nat.zero_le _) (Nat.zero_le _) (Nat.zero_le _)
    exact ⟨_, execHenc_empty h0 hv, completed_completeOk _ _, rfl, hpub.completeOk true, rfl, rfl⟩
  case publishes =>
    have hsize : 8 * obufSize s = 24 * s.maxLen := by rw [obufSize]; omega
    have hpub := publishWrites_published hp .huffman (pack_fits_iff.2 hfit) (hsize ▸ hfit) hlen
    exact ⟨_, execHenc_publishes h0 hlen hv hb hfit, completed_completeOk _ _, rfl, hpub.completeOk false, rfl, rfl⟩

/-! ### HUFF (R154) -/

/-- BuildStep makes tree `t` of an input's own table, and `tree` lies in it (R143, R154). -/
structure HuffTree (bytes : List Byte) (t : Tree) (tree : HTree) : Prop where
  built : buildStep (freqStep bytes).toList = some t
  size : t.nodes.length + 1 = 2 * symbolCount (freqStep bytes).toList
  root : t.root + 1 = t.nodes.length
  stored : tree.Stored (t.nodes[·]?) t.root
  treeOf : TreeOf bytes tree

/-- The state with the input's table, the tree `t`, the code `c` and the input encoded with it published, as HUFF leaves
them (R154). -/
def encodedWith (t : Tree) (c : Vector Code 256) (s : State) : State :=
  publishWrites .huffman (pack (hencBits c (input s))) (hencBits c (input s)).length (inLen s)
    (setCode c (setTree t (setFreq (freqStep (input s)) s)))

@[simp] theorem encodedWith_freq (t : Tree) (c : Vector Code 256) (s : State) :
    (encodedWith t c s).freq = (freqStep (input s)).map (BitVec.ofNat 32) := rfl
@[simp] theorem encodedWith_nsym (t : Tree) (c : Vector Code 256) (s : State) :
    (encodedWith t c s).nsym = BitVec.ofNat 9 (symbolCount (freqStep (input s)).toList) := rfl
@[simp] theorem encodedWith_node (t : Tree) (c : Vector Code 256) (s : State) :
    (encodedWith t c s).node = Vector.ofFn fun k => (t.nodes[k.val]?).or s.node[k] := rfl
@[simp] theorem encodedWith_nnodes (t : Tree) (c : Vector Code 256) (s : State) :
    (encodedWith t c s).nnodes = BitVec.ofNat 10 t.nodes.length := rfl
@[simp] theorem encodedWith_root (t : Tree) (c : Vector Code 256) (s : State) :
    (encodedWith t c s).root = BitVec.ofNat 9 t.root := rfl
@[simp] theorem encodedWith_code (t : Tree) (c : Vector Code 256) (s : State) : (encodedWith t c s).code = c := rfl
@[simp] theorem encodedWith_outBits (t : Tree) (c : Vector Code 256) (s : State) :
    (encodedWith t c s).outBits = BitVec.ofNat 32 (hencBits c (input s)).length := rfl

section HuffTree

variable {bytes : List Byte} {t : Tree} {tree : HTree}

theorem HuffTree.fits (h : HuffTree bytes t tree) : t.nodes.length ≤ 511 := by
  have := symbolCount_freqStep_le bytes
  have := h.size
  omega

theorem HuffTree.root_lt (h : HuffTree bytes t tree) : t.root < nodeMax := by
  have := h.root
  have := h.fits
  simp only [nodeMax]
  omega

theorem HuffTree.codegen (h : HuffTree bytes t tree) : codegenStep (t.nodes[·]?) t.root = some (codeTable tree.codes) :=
  h.stored.codegen h.root_lt

/-- CODEGEN on the node store that holds the tree finds the tree's code (R152, R155). -/
theorem HuffTree.codegen_stored (h : HuffTree bytes t tree) (s : State) :
    codegenStep (nodeAt (setTree t s)) (setTree t s).root.toNat = some (codeTable tree.codes) := by
  rw [setTree_root_toNat h.fits h.root]
  exact (h.stored.mono fun _ _ => nodeAt_setTree_of_some h.fits s).codegen h.root_lt

/-- The table FREQ holds after the frequency stage has the tree (R155). -/
theorem HuffTree.built_freqTable (h : HuffTree bytes t tree) (hlen : bytes.length < 2 ^ 32) (s : State) :
    buildStep (freqTable (setFreq (freqStep bytes) s)) = some t := by
  rw [freqTable_setFreq hlen, h.built]

end HuffTree

/-- HUFF on an input that is not empty encodes it with its own tree's code (R154). -/
theorem execHuff_ok {s : State} (h0 : 0 < inLen s) (hlen : inLen s ≤ s.maxLen) :
    ∃ t tree, HuffTree (input s) t tree ∧
      execHuff s = .next (completeOk false (encodedWith t (codeTable tree.codes) s)) := by
  obtain ⟨t, tree, built, size, root, stored, treeOf, -, hbody⟩ := huffBody_ok hlen h0.ne'
  refine ⟨t, tree, ⟨built, size, root, stored, treeOf⟩, (finish_body hlen hbody).trans ?_⟩
  have hempty : (s.len.toNat == 0) = false := beq_eq_false_iff_ne.2 h0.ne'
  rw [hempty]
  rfl

/-- The same of the state HUFF answers. -/
theorem execHuff_next {s t : State} (h0 : 0 < inLen s) (hlen : inLen s ≤ s.maxLen) (h : exec .huff s = .next t) :
    ∃ tr tree, HuffTree (input s) tr tree ∧ t = completeOk false (encodedWith tr (codeTable tree.codes) s) := by
  obtain ⟨tr, tree, htree, hs⟩ := execHuff_ok h0 hlen
  exact ⟨tr, tree, htree, Host.Outcome.next.inj (h.symm.trans hs)⟩

/-- HUFF on an empty input (R154, R301). -/
theorem execHuff_empty {s : State} (h0 : inLen s = 0) :
    execHuff s = .next (completeOk true (publishWrites .huffman [] 0 0 (setFreq (freqStep []) s))) := by
  have hlen : s.len.toNat ≤ s.maxLen := (show s.len.toNat = 0 from h0) ▸ Nat.zero_le _
  have hbody : huffBody s.len.toNat s = .ok (publishWrites .huffman [] 0 0 (setFreq (freqStep []) s)) := by
    rw [show s.len.toNat = 0 from h0, huffBody_empty]
  refine (finish_body hlen hbody).trans ?_
  rw [show (s.len.toNat == 0) = true from beq_iff_eq.2 h0]

/-- The encoded input has at most eight bits a byte (R147). -/
theorem HuffTree.bits_le {s : State} {t : Tree} {tree : HTree} (h : HuffTree (input s) t tree) :
    (hencBits (codeTable tree.codes) (input s)).length ≤ 8 * inLen s := by
  rw [← input_length]
  exact h.treeOf.hencBits_length

/-- HUFF publishes the encoded input (R154, R273). -/
theorem HuffTree.published {s : State} (hp : ParamInv s) (hlen : inLen s ≤ s.maxLen) {t : Tree} {tree : HTree}
    (h : HuffTree (input s) t tree) :
    Published .huffman (pack (hencBits (codeTable tree.codes) (input s)))
      (hencBits (codeTable tree.codes) (input s)).length (inLen s) s (encodedWith t (codeTable tree.codes) s) := by
  have hbits := h.bits_le
  have hfit : (pack (hencBits (codeTable tree.codes) (input s))).length ≤ obufSize s := by
    rw [pack_fits_iff, obufSize]
    omega
  have hcap : (hencBits (codeTable tree.codes) (input s)).length ≤ 24 * s.maxLen := by omega
  have hpub := publishWrites_published
    (s := setCode (codeTable tree.codes) (setTree t (setFreq (freqStep (input s)) s))) hp .huffman hfit hcap hlen
  exact hpub.on (fun _ => rfl) rfl

/-- Settles O12: the empty result after the frequency stage, or the input encoded with the code of its own tree. -/
theorem huffCompletes : Obligations.HuffCompletes := by
  refine ⟨rfl, fun s hp => ⟨fun hlen => finish_lenRange hlen, fun h0 => ?empty, fun h0 hlen => ?encoded⟩⟩
  case empty =>
    have hpub : Published .huffman [] 0 0 (setFreq (freqStep []) s) _ :=
      publishWrites_published (s := setFreq (freqStep []) s) hp .huffman (Nat.zero_le _) (Nat.zero_le _) (Nat.zero_le _)
    exact ⟨_, execHuff_empty h0, completed_completeOk _ _, rfl, (hpub.on (s := s) (fun _ => rfl) rfl).completeOk true,
      fun b => setFreq_freq_get [] s (BitVec.ofFin b), setFreq_nil_nsym s, rfl, rfl, rfl, rfl, rfl, rfl, rfl, rfl, rfl⟩
  case encoded =>
    obtain ⟨tr, tree, htree, hs⟩ := execHuff_ok h0 hlen
    let counted := setFreq (freqStep (input s)) s
    exact ⟨_, tr, hs, completed_completeOk _ _, rfl, setFreq_freq_toNat (input_length_lt s) s,
      setFreq_nsym_countP (input s) s, htree.built_freqTable (input_length_lt s) s,
      fun k n => nodeAt_setTree_of_some htree.fits counted, fun k => nodeAt_setTree_beyond htree.fits counted,
      setTree_nnodes_toNat htree.fits counted, setTree_root_toNat htree.fits htree.root counted,
      htree.codegen_stored counted, fun b => htree.treeOf.codeOf_ne_nil,
      (htree.published hp hlen).completeOk false, rfl, rfl, rfl, rfl, rfl⟩

/-- HENC encodes the input of a state that holds the input's own code (R153, R155). -/
theorem HuffTree.execHenc {s : State} {t : Tree} {tree : HTree} (h : HuffTree (input s) t tree) (h0 : 0 < inLen s)
    (hlen : inLen s ≤ s.maxLen) (hv : s.codeValid = true) (hc : s.code = codeTable tree.codes) :
    execHenc s = .next (completeOk false (publishWrites .huffman (pack (hencBits (codeTable tree.codes) (input s)))
      (hencBits (codeTable tree.codes) (input s)).length (inLen s) s)) := by
  have hbits := h.bits_le
  have hcoded : ∀ b ∈ input s, codeOf s.code b ≠ [] := fun b hb => by
    rw [hc]
    exact h.treeOf.codeOf_ne_nil hb
  rw [← hc] at hbits ⊢
  exact execHenc_publishes h0 hlen hv hcoded (by rw [obufSize]; omega)

/-! ### The size of HUFF's output (R91, R147) -/

/-- A bit-string in which every byte has a codeword has at least one bit a byte (R147). -/
theorem length_le_hencBits_length {c : Vector Code 256} {bytes : List Byte} (h : ∀ b ∈ bytes, codeOf c b ≠ []) :
    bytes.length ≤ (hencBits c bytes).length := by
  rw [hencBits, List.length_flatMap]
  have := List.length_le_sum_of_one_le (bytes.map fun b => (codeOf c b).length) fun n hn => by
    obtain ⟨b, hb, rfl⟩ := List.mem_map.1 hn
    exact List.length_pos_iff.2 (h b hb)
  rwa [List.length_map] at this

/-- Settles O40: every input byte has a codeword, and the weighted length of the code is at most that of eight bits a
byte. -/
theorem huffmanOutputIsNoLongerThanItsInput : Obligations.HuffmanOutputIsNoLongerThanItsInput := by
  intro s t hp h0 hlen h
  obtain ⟨tr, tree, htree, rfl⟩ := execHuff_next h0 hlen h
  have hpub := (htree.published hp hlen).completeOk false
  have hmin := length_le_hencBits_length fun b => htree.treeOf.codeOf_ne_nil (b := b)
  rw [input_length] at hmin
  have hmax := htree.bits_le
  rw [hpub.outBits, hpub.outBytes, pack_length]
  exact ⟨hmin, hmax, by omega⟩

/-! ### One symbol (R144, R146) -/

section OneSymbol

variable {bytes : List Byte} {b : Byte}

/-- A tree over an input of one byte value is its Leaf (R144). -/
theorem TreeOf.eq_leaf {tree : HTree} (h : TreeOf bytes tree) (hb : ∀ c ∈ bytes, c = b) :
    tree = .leaf b bytes.length := by
  have hsyms : ∀ x ∈ tree.leaves.map Prod.fst, x = b := fun x hx => by
    obtain ⟨y, hy, rfl⟩ := List.mem_map.1 hx
    exact hb _ (h.sound y hy)
  have hone : tree.leaves.length ≤ 1 := by
    have := List.nodup_iff_count_le_one.1 h.nodup b
    rw [List.count_eq_length.2 fun x hx => (hsyms x hx).symm, List.length_map] at this
    exact this
  cases tree with
  | leaf s f =>
    have hs : s = b := hsyms s List.mem_cons_self
    have hf : bytes.count s = f := h.count (s, f) List.mem_cons_self
    rw [List.count_eq_length.2 fun x hx => hs.trans (hb x hx).symm] at hf
    rw [hs, hf]
  | bin l r =>
    have := l.leaves_length_pos
    have := r.leaves_length_pos
    rw [HTree.leaves, List.length_append] at hone
    omega

/-- An input of one byte value has one symbol (R140). -/
theorem symbolCount_of_one_byte (hne : bytes ≠ []) (hb : ∀ c ∈ bytes, c = b) :
    symbolCount (freqStep bytes).toList = 1 := by
  have hmem : b ∈ bytes := by
    obtain ⟨c, hc⟩ := List.exists_mem_of_ne_nil bytes hne
    exact hb c hc ▸ hc
  have hcount : (List.range 256).count b.toNat = 1 :=
    List.count_eq_one_of_mem List.nodup_range (List.mem_range.2 b.isLt)
  rw [symbolCount_freqStep, ← hcount, List.count]
  refine List.countP_congr fun v hv => ?_
  have hv : v < 256 := List.mem_range.1 hv
  rw [decide_eq_true_eq, beq_iff_eq]
  constructor
  · intro h
    rw [← hb _ h, BitVec.toNat_ofNat, Nat.mod_eq_of_lt (by omega)]
  · rintro rfl
    rwa [BitVec.ofNat_toNat, BitVec.setWidth_eq]

theorem hencBits_one_bit {c : Vector Code 256} (hb : ∀ x ∈ bytes, x = b) (hc : (codeOf c b).length = 1) :
    (hencBits c bytes).length = bytes.length := by
  rw [hencBits, List.length_flatMap, List.map_congr_left fun x hx => by rw [hb x hx, hc], List.map_const',
    List.sum_replicate, smul_eq_mul, Nat.mul_one]

end OneSymbol

/-- Settles O39: the tree over one byte value is a Leaf, stored alone, and its code has one bit. -/
theorem singleSymbolHasTheOneBitCode : Obligations.SingleSymbolHasTheOneBitCode := by
  intro s t b hp h0 hlen hb h
  obtain ⟨tr, tree, htree, rfl⟩ := execHuff_next h0 hlen h
  have hne : input s ≠ [] := List.ne_nil_of_length_pos (by rwa [input_length])
  obtain rfl := htree.treeOf.eq_leaf hb
  have hpub := (htree.published hp hlen).completeOk false
  have hsize := htree.size
  rw [symbolCount_of_one_byte hne hb] at hsize
  have hnodes : tr.nodes.length = 1 := by omega
  have hroot : tr.root = 0 := by have := htree.root; omega
  have hstored : tr.nodes[tr.root]? = some (.leaf b (input s).length) := htree.stored
  rw [hroot, input_length] at hstored
  have hcode := htree.stored.codeOf_root htree.stored
  refine ⟨?nnodes, ?root, nodeAt_setTree_of_some htree.fits (setFreq (freqStep (input s)) s) hstored, hcode, ?bits⟩
  case nnodes => exact congrArg (BitVec.ofNat 10) hnodes
  case root => exact congrArg (BitVec.ofNat 9) hroot
  case bits => rw [hpub.outBits, hencBits_one_bit hb (congrArg List.length hcode), input_length]

/-! ### The four stages one after another (R155) -/

/-- Acceptance overwrites what a completion left (R114, R115). -/
theorem accept_completeOk (w : Word) (b : Bool) (s : State) : accept w (completeOk b s) = accept w s := rfl

theorem accept_accept (w w' : Word) (s : State) : accept w (accept w' s) = accept w s := rfl

theorem accept_setFreq (w : Word) (f : Vector Nat 256) (s : State) :
    accept w (setFreq f s) = setFreq f (accept w s) := rfl

theorem accept_setTree (w : Word) (t : Tree) (s : State) :
    accept w (setTree t s) = setTree t (accept w s) := rfl

theorem accept_setCode (w : Word) (c : Vector Code 256) (s : State) :
    accept w (setCode c s) = setCode c (accept w s) := rfl

/-- The state HUFF leaves does not show which command was accepted. -/
theorem completeOk_encodedWith_accept (b : Bool) (t : Tree) (c : Vector Code 256) (w w' : Word) (s : State) :
    completeOk b (encodedWith t c (accept w s)) = completeOk b (encodedWith t c (accept w' s)) := rfl

/-- The state FREQ leaves (R150). -/
def afterFreq (s : State) : State :=
  completeOk (inLen s == 0) (setFreq (freqStep (input s)) (accept (encode .freq) s))

/-- The state BUILD leaves after FREQ, where the tree is `tr` (R151). -/
def afterBuild (tr : Tree) (s : State) : State :=
  completeOk false (setTree tr (setFreq (freqStep (input s)) (accept (encode .build) s)))

/-- The state CODEGEN leaves after FREQ and BUILD, where the code is `c` (R152). -/
def afterCodegen (tr : Tree) (c : Vector Code 256) (s : State) : State :=
  completeOk false (setCode c (setTree tr (setFreq (freqStep (input s)) (accept (encode .codegen) s))))

theorem setFreq_nsym_ne_zero {bytes : List Byte} (h : bytes ≠ []) (s : State) :
    (setFreq (freqStep bytes) s).nsym ≠ 0 := by
  intro h0
  have hnone := setFreq_nsym_symbolCount bytes s
  rw [h0] at hnone
  exact (freqStep_symbolCount h).ne hnone

section Staged

variable {s : State} {tr : Tree} {tree : HTree}

theorem runCommand_freq (hlen : inLen s ≤ s.maxLen) : runCommand .freq s = .next (afterFreq s) :=
  execFreq_ok (s := accept (encode .freq) s) hlen

/-- After FREQ on an empty input BUILD finds no symbol (R151, R155). -/
theorem runCommand_build_empty (h0 : inLen s = 0) :
    ∃ t, runCommand .build (afterFreq s) = .next t ∧ t.err = some .emptyTable := by
  have hnil : input s = [] := List.eq_nil_of_length_eq_zero ((input_length s).trans h0)
  rw [runCommand, afterFreq, accept_completeOk, accept_setFreq, accept_accept, hnil]
  exact ⟨_, execBuild_emptyTable rfl (setFreq_nil_nsym _), rfl⟩

theorem runCommand_build (h : HuffTree (input s) tr tree) (h0 : 0 < inLen s) :
    runCommand .build (afterFreq s) = .next (afterBuild tr s) := by
  have hne : input s ≠ [] := List.ne_nil_of_length_pos (by rwa [input_length])
  rw [runCommand, afterFreq, accept_completeOk, accept_setFreq, accept_accept]
  exact execBuild_ok rfl (setFreq_nsym_ne_zero hne _) (h.built_freqTable (input_length_lt s) _)

theorem runCommand_codegen (h : HuffTree (input s) tr tree) :
    runCommand .codegen (afterBuild tr s) = .next (afterCodegen tr (codeTable tree.codes) s) := by
  rw [runCommand, afterBuild, accept_completeOk, accept_setTree, accept_setFreq, accept_accept]
  exact execCodegen_ok rfl (h.codegen_stored _)

theorem runCommand_henc (h : HuffTree (input s) tr tree) (h0 : 0 < inLen s) (hlen : inLen s ≤ s.maxLen) :
    runCommand .henc (afterCodegen tr (codeTable tree.codes) s) =
      .next (completeOk false (encodedWith tr (codeTable tree.codes) (accept (encode .huff) s))) := by
  rw [runCommand, afterCodegen, accept_completeOk, accept_setCode, accept_setTree, accept_setFreq, accept_accept,
    completeOk_encodedWith_accept false tr _ (encode .huff) (encode .henc)]
  exact HuffTree.execHenc (s := setCode _ (setTree tr (setFreq (freqStep (input s)) (accept (encode .henc) s))))
    h h0 hlen rfl rfl

end Staged

/-- Settles O42: for n ≥ 1 each stage runs on what the one before it left; for n = 0 BUILD finds no symbol. -/
theorem stagedPipelineEqualsHuff : Obligations.StagedPipelineEqualsHuff := by
  refine fun s => ⟨fun h0 hlen => ?staged, fun h0 => ?empty⟩
  case staged =>
    obtain ⟨tr, tree, htree, hs⟩ := execHuff_ok (s := accept (encode .huff) s) h0 hlen
    exact ⟨_, _, _, _, runCommand_freq hlen, runCommand_build htree h0, runCommand_codegen htree,
      runCommand_henc htree h0 hlen, hs⟩
  case empty =>
    obtain ⟨t₂, hbuild, herr⟩ := runCommand_build_empty h0
    exact ⟨_, t₂, _, runCommand_freq (h0 ▸ Nat.zero_le _), hbuild, herr,
      execHuff_empty (s := accept (encode .huff) s) h0, rfl⟩

/-! ### Permuted inputs (R156) -/

theorem freqStep_perm {bytes bytes' : List Byte} (h : bytes'.Perm bytes) : freqStep bytes' = freqStep bytes :=
  congrArg Vector.ofFn (funext fun v => h.count_eq (BitVec.ofFin v))

theorem hencBits_length_perm {bytes bytes' : List Byte} (h : bytes'.Perm bytes) (c : Vector Code 256) :
    (hencBits c bytes').length = (hencBits c bytes).length := (h.flatMap_right _).length_eq

/-- Inputs with the same table have the same tree and code. -/
theorem HuffTree.unique {bytes bytes' : List Byte} {t t' : Tree} {tree tree' : HTree} (h : HuffTree bytes t tree)
    (h' : HuffTree bytes' t' tree') (hf : freqStep bytes' = freqStep bytes) :
    t' = t ∧ codeTable tree'.codes = codeTable tree.codes := by
  have hbuilt := h'.built
  rw [hf, h.built] at hbuilt
  obtain rfl := Option.some.inj hbuilt
  exact ⟨rfl, Option.some.inj (h'.codegen.symm.trans h.codegen)⟩

/-- Settles O43: permuted inputs have the same table, from which the tree and the code are made. -/
theorem treeAndCodeIgnoreByteOrder : Obligations.TreeAndCodeIgnoreByteOrder := by
  intro s s' t t' hmax hnode hperm h0 h h' hlen
  have hinLen : inLen s' = inLen s := by rw [← input_length, ← input_length, hperm.length_eq]
  obtain ⟨tr, tree, htree, rfl⟩ := execHuff_next h0 hlen h
  obtain ⟨tr', tree', htree', rfl⟩ := execHuff_next (hinLen ▸ h0) (by rwa [hinLen, hmax]) h'
  have hfreq := freqStep_perm hperm
  obtain ⟨rfl, hcode⟩ := htree.unique htree' hfreq
  simp [hfreq, hnode, hcode, hencBits_length_perm hperm]

end Sys2Proof.Machine
end

section
/-! PROOFS. The RLE family (41_rle.md): RleStep against the maximal runs of its input (R200, R201, R204), the size of its output
(R202), and the RLE command (R205). -/

namespace Sys2Proof.Machine

/-! ### The scan, byte by byte (R200) -/

/-- A byte equal to the run byte lengthens the run. -/
theorem rleScan_cons_run (run : Byte) (cnt : Nat) (bs : List Byte) :
    rleScan run cnt (run :: bs) = rleScan run (cnt + 1) bs := by
  rw [rleScan, if_pos rfl]

/-- A byte that differs from the run byte ends the run and starts the next. -/
theorem rleScan_cons_of_ne {run b : Byte} (h : b ≠ run) (cnt : Nat) (bs : List Byte) :
    rleScan run cnt (b :: bs) = rlePair run cnt ++ rleScan b 1 bs := by
  rw [rleScan, if_neg h]

/-! ### Maximal runs (R200, R201, R204) -/

/-- The text of a list taken as one run: its length in decimal, then its first byte. -/
def runText (run : List Byte) : List Byte := dec run.length ++ run.take 1

/-- The text of a run is the pair that the scan emits for it (R201). -/
theorem runText_replicate {cnt : Nat} (h : 0 < cnt) (run : Byte) :
    runText (List.replicate cnt run) = rlePair run cnt := by
  rw [runText, List.length_replicate, List.take_replicate, Nat.min_eq_left h, List.replicate_one, rlePair]

/-- Equal bytes are one run. -/
theorem splitBy_replicate {cnt : Nat} (h : 0 < cnt) (run : Byte) :
    (List.replicate cnt run).splitBy (· == ·) = [List.replicate cnt run] :=
  List.splitBy_of_isChain (mt (List.replicate_eq_nil_iff run).1 h.ne')
    (List.isChain_replicate_of_rel cnt (beq_self_eq_true run))

/-- A run ends before the first byte that differs from it. -/
theorem splitBy_replicate_append_cons {run b : Byte} {cnt : Nat} (h : 0 < cnt) (hb : b ≠ run) (bs : List Byte) :
    (List.replicate cnt run ++ b :: bs).splitBy (· == ·) =
      List.replicate cnt run :: (b :: bs).splitBy (· == ·) := by
  have hend : ∀ x ∈ (List.replicate cnt run).getLast?, (x == b) = false := by
    intro x hx
    obtain rfl : x = run := List.eq_of_mem_replicate (List.mem_of_getLast? hx)
    exact beq_false_of_ne hb.symm
  rw [List.splitBy_append_cons bs hend, splitBy_replicate h, List.singleton_append]

/-- From inside a run the scan emits the runs of what it has counted and what is left. -/
theorem rleScan_eq_flatMap_runText (bs : List Byte) : ∀ (run : Byte) {cnt : Nat}, 0 < cnt →
    rleScan run cnt bs = ((List.replicate cnt run ++ bs).splitBy (· == ·)).flatMap runText := by
  induction bs with
  | nil =>
    intro run cnt h
    rw [rleScan, List.append_nil, splitBy_replicate h, List.flatMap_singleton, runText_replicate h]
  | cons b bs ih =>
    intro run cnt h
    by_cases hb : b = run
    · subst hb
      rw [rleScan_cons_run, ih b cnt.succ_pos, List.replicate_succ', List.append_assoc, List.singleton_append]
    · rw [rleScan_cons_of_ne hb, splitBy_replicate_append_cons h hb, List.flatMap_cons, runText_replicate h,
        ih b Nat.one_pos, List.replicate_one, List.singleton_append]

/-- Settles O27: the scan starts in a run of one byte. -/
theorem rleEmitsMaximalRuns : Obligations.RleEmitsMaximalRuns
  | [] => rfl
  | b :: bs => rleScan_eq_flatMap_runText bs b Nat.one_pos

/-! ### The size of the output (R202) -/

/-- Only a run of length 1 is emitted as twice as many bytes as it has. -/
theorem rlePair_length_eq_double_iff (run : Byte) {cnt : Nat} (h : 0 < cnt) :
    (rlePair run cnt).length = 2 * cnt ↔ cnt = 1 := by
  have hlength : (rlePair run cnt).length = (dec cnt).length + 1 := List.length_append
  constructor
  · intro heq
    have := dec_length_le h
    omega
  · rintro rfl
    rfl

/-- From inside a run the scan doubles what it has counted and what is left exactly when every run has length 1. -/
theorem rleScan_length_eq_double_iff (bs : List Byte) : ∀ (run : Byte) {cnt : Nat}, 0 < cnt →
    ((rleScan run cnt bs).length = 2 * (cnt + bs.length) ↔ cnt = 1 ∧ (run :: bs).IsChain (· ≠ ·)) := by
  induction bs with
  | nil =>
    intro run cnt h
    rw [rleScan, List.length_nil, Nat.add_zero, rlePair_length_eq_double_iff run h]
    exact (and_iff_left (List.isChain_singleton run)).symm
  | cons b bs ih =>
    intro run cnt h
    by_cases hb : b = run
    · subst hb
      have hsum : cnt + (bs.length + 1) = cnt + 1 + bs.length := by omega
      rw [rleScan_cons_run, List.length_cons, hsum, ih b cnt.succ_pos, List.isChain_cons_cons]
      exact iff_of_false (fun hlong => h.ne' (Nat.succ.inj hlong.1)) fun hchain => hchain.2.1 rfl
    · have hpair := rlePair_length_le run h
      have hrest := rleScan_length_le bs b 1 Nat.one_pos
      have hboth : (rlePair run cnt).length + (rleScan b 1 bs).length = 2 * (cnt + (bs.length + 1)) ↔
          (rlePair run cnt).length = 2 * cnt ∧ (rleScan b 1 bs).length = 2 * (1 + bs.length) := by omega
      rw [rleScan_cons_of_ne hb, List.length_append, List.length_cons, hboth, rlePair_length_eq_double_iff run h,
        ih b Nat.one_pos, and_iff_right rfl, List.isChain_cons_cons, and_iff_right (Ne.symm hb)]

theorem rleStep_length_eq_double_iff (bs : List Byte) :
    (rleStep bs).length = 2 * bs.length ↔ bs.IsChain (· ≠ ·) := by
  cases bs with
  | nil => exact iff_of_true rfl List.isChain_nil
  | cons b bs =>
    rw [rleStep, List.length_cons, Nat.add_comm, rleScan_length_eq_double_iff bs b Nat.one_pos, and_iff_right rfl]

/-- A number below a power of ten has at most as many digits as the exponent (R10). -/
theorem dec_length_le_of_lt_pow {v k : Nat} (hk : k ≠ 0) (h : v < 10 ^ k) : (dec v).length ≤ k := by
  rw [dec_length_eq_log]
  exact Nat.log_lt_of_lt_pow' hk h

/-- Settles O28: a run costs at most twice its length, and exactly twice when its length is 1. -/
theorem rleOutputIsAtMostDouble : Obligations.RleOutputIsAtMostDouble := by
  refine ⟨fun bs => ⟨rleStep_length_le bs, rleStep_length_eq_double_iff bs⟩, fun v => dec_length_le, fun v hv => ?_⟩
  have hlimit : Config.maxLenLimit < 10 ^ 7 := by decide
  exact dec_length_le_of_lt_pow (by decide) (hv.trans_lt hlimit)

/-! ### The command (R205) -/

/-- RLE on an input within the capacity is one Publish of RleStep of the input (R205). -/
theorem execRle_ok {s : State} (h : inLen s ≤ s.maxLen) :
    execRle s = .next (completeOk (inLen s == 0)
      (publishWrites .rle (rleStep (input s)) (8 * (rleStep (input s)).length) (inLen s) s)) :=
  finish_body h (rleBody_ok h)

/-- RleStep of an input within the capacity is at most twice as long as the capacity (R202). -/
theorem rleStep_input_length_le {s : State} (h : inLen s ≤ s.maxLen) : (rleStep (input s)).length ≤ 2 * s.maxLen := by
  have := rleStep_length_le (input s)
  rw [input_length] at this
  omega

/-- Settles O13: the output is at most twice the input, so that it fits OBUF and its registers. -/
theorem rleCompletes : Obligations.RleCompletes := by
  refine ⟨rfl, fun s hp => ⟨fun hlen => finish_lenRange hlen, fun hlen => ?_⟩⟩
  have hout := rleStep_input_length_le hlen
  have hfit : (rleStep (input s)).length ≤ obufSize s := by rw [obufSize]; omega
  have hpub := publishWrites_published hp .rle (bits := 8 * (rleStep (input s)).length) hfit (by omega) hlen
  exact ⟨_, execRle_ok hlen, completed_completeOk _ _, rfl, rfl, hpub.completeOk _, rfl⟩

end Sys2Proof.Machine
end

section
/-! PROOFS. The delta family (42_delta.md): DeltaStep byte by byte (R220, R222), its inverse (R223), and the DELTA command
(R225). -/

namespace Sys2Proof.Machine

/-! ### The differences (R220, R222) -/

theorem ofInt_byte_toNat (b : Byte) : BitVec.ofInt 8 b.toNat = b := by
  rw [BitVec.ofInt_natCast, BitVec.ofNat_toNat, BitVec.setWidth_eq]

/-- A difference of bytes is the integer difference modulo 256. -/
theorem byte_sub_eq_ofInt (cur prev : Byte) : cur - prev = BitVec.ofInt 8 (cur.toNat - prev.toNat) := by
  refine sub_eq_iff_eq_add.2 ?_
  calc cur = BitVec.ofInt 8 (cur.toNat - prev.toNat + prev.toNat) := by rw [sub_add_cancel, ofInt_byte_toNat]
    _ = BitVec.ofInt 8 (cur.toNat - prev.toNat) + prev := by rw [BitVec.ofInt_add, ofInt_byte_toNat]

/-- Each byte of the scan is a byte of the list minus the one before it, which for the first is `prev`. -/
theorem deltaFrom_getElem? {bs : List Byte} {prev : Byte} {j : Nat} {cur before : Byte} (hcur : bs[j]? = some cur)
    (hbefore : (prev :: bs)[j]? = some before) : (deltaFrom prev bs)[j]? = some (cur - before) := by
  induction bs generalizing prev j with
  | nil => cases hcur
  | cons b bs ih =>
    cases j with
    | zero =>
      cases hcur
      cases hbefore
      rfl
    | succ j => exact ih hcur hbefore

theorem deltaStep_head (bs : List Byte) : (deltaStep bs)[0]? = bs[0]? := by
  cases bs <;> rfl

theorem deltaStep_getElem?_succ {bs : List Byte} {j : Nat} {cur prev : Byte} (hcur : bs[j + 1]? = some cur)
    (hprev : bs[j]? = some prev) : (deltaStep bs)[j + 1]? = some (cur - prev) := by
  cases bs with
  | nil => cases hcur
  | cons b bs => exact deltaFrom_getElem? hcur hprev

/-- Settles O29: the scan carries the input byte before the current one. -/
theorem deltaEmitsDifferences : Obligations.DeltaEmitsDifferences := by
  refine fun bs => ⟨deltaStep_length_eq bs, deltaStep_head bs, fun j cur prev hcur hprev => ?_⟩
  rw [← byte_sub_eq_ofInt]
  exact deltaStep_getElem?_succ hcur hprev

/-! ### The inverse (R223) -/

/-- The running sums of the scan's differences, from the byte before the list on, are that byte and the list. -/
theorem deltaFrom_scanl (bs : List Byte) (prev : Byte) :
    (deltaFrom prev bs).scanl (fun before d => d + before) prev = prev :: bs := by
  induction bs generalizing prev with
  | nil => rfl
  | cons b bs ih => rw [deltaFrom, List.scanl_cons, sub_add_cancel, ih]

/-- DeltaStep is the scan with 0 before the input (R220). -/
theorem deltaStep_eq_deltaFrom_zero (bs : List Byte) : deltaStep bs = deltaFrom 0 bs := by
  cases bs with
  | nil => rfl
  | cons b bs => rw [deltaStep, deltaFrom, sub_zero]

/-- Settles O30: each running sum cancels the subtraction of the byte before. -/
theorem deltaIsReversible : Obligations.DeltaIsReversible := by
  intro bs
  simp only [← BitVec.add_def]
  rw [deltaStep_eq_deltaFrom_zero, deltaFrom_scanl, List.tail_cons]

/-! ### The command (R225) -/

/-- DELTA on an input within the capacity is one Publish of DeltaStep of the input (R225). -/
theorem execDelta_ok {s : State} (h : inLen s ≤ s.maxLen) :
    execDelta s = .next (completeOk (inLen s == 0)
      (publishWrites .delta (deltaStep (input s)) (8 * inLen s) (inLen s) s)) :=
  finish_body h (deltaBody_ok h)

/-- An output as long as its input has the ratio's numerator 0 (R225, R271). -/
theorem ratio_same_size (n : Nat) : (ratio (8 * n) n).1 = 0 := by
  unfold ratio
  split
  · rfl
  · exact sub_self _

/-- Settles O14: the output is as long as the input, so that it fits OBUF and the ratio's numerator is 0. -/
theorem deltaCompletes : Obligations.DeltaCompletes := by
  refine ⟨rfl, fun s hp => ⟨fun hlen => finish_lenRange hlen, fun hlen => ?_⟩⟩
  have hout : (deltaStep (input s)).length = inLen s := by rw [deltaStep_length_eq, input_length]
  have hfit : (deltaStep (input s)).length ≤ obufSize s := by rw [obufSize]; omega
  have hpub := publishWrites_published hp .delta (bits := 8 * inLen s) hfit (by omega) hlen
  exact ⟨_, execDelta_ok hlen, completed_completeOk _ _, rfl, rfl, hpub.completeOk _, rfl, hpub.outBytes.trans hout,
    congrArg (BitVec.ofInt 32) (ratio_same_size (inLen s))⟩

end Sys2Proof.Machine
end

section
/-! PROOFS. The LZ77 family (43_lz77.md): MatchLen (R241), FindBest (R242), the greedy loop (R243, R245), the token and the
bounds (R244), and the LZ77 command (R250). -/

namespace Sys2Proof.Machine

/-! ### MatchLen (R241) -/

theorem commonRun_cons_self (cap : Nat) (x : Byte) (xs ys : List Byte) :
    commonRun (cap + 1) (x :: xs) (x :: ys) = commonRun cap xs ys + 1 := if_pos rfl

theorem commonRun_cons_of_ne {x y : Byte} (h : x ≠ y) (cap : Nat) (xs ys : List Byte) :
    commonRun (cap + 1) (x :: xs) (y :: ys) = 0 := if_neg h

/-- The counted bytes are equal. -/
theorem commonRun_getElem?_eq {cap d : Nat} {xs ys : List Byte} (h : d < commonRun cap xs ys) : xs[d]? = ys[d]? := by
  induction cap generalizing xs ys d with
  | zero => simp [commonRun] at h
  | succ cap ih =>
    match xs, ys with
    | [], _ => simp [commonRun] at h
    | _ :: _, [] => simp [commonRun] at h
    | x :: xs, y :: ys =>
      rcases eq_or_ne x y with rfl | hxy
      · rw [commonRun_cons_self] at h
        cases d with
        | zero => rfl
        | succ d =>
          rw [List.getElem?_cons_succ, List.getElem?_cons_succ]
          exact ih (Nat.lt_of_succ_lt_succ h)
      · exact absurd (commonRun_cons_of_ne hxy cap xs ys ▸ h) (Nat.not_lt_zero d)

/-- A count that stops below the cap and inside the second list stops where the lists differ. -/
theorem commonRun_getElem?_ne {cap : Nat} {xs ys : List Byte} (hcap : commonRun cap xs ys < cap)
    (hys : commonRun cap xs ys < ys.length) : xs[commonRun cap xs ys]? ≠ ys[commonRun cap xs ys]? := by
  induction cap generalizing xs ys with
  | zero => exact absurd hcap (Nat.not_lt_zero _)
  | succ cap ih =>
    match xs, ys with
    | _, [] => exact absurd hys (Nat.not_lt_zero _)
    | [], _ :: _ => simp [commonRun]
    | x :: xs, y :: ys =>
      rcases eq_or_ne x y with rfl | hxy
      · rw [commonRun_cons_self] at hcap hys ⊢
        exact ih (Nat.lt_of_succ_lt_succ hcap) (Nat.lt_of_succ_lt_succ hys)
      · rw [commonRun_cons_of_ne hxy]
        exact fun h => hxy (Option.some.inj h)

/-- Settles O31: the count on the two tails of the input, whose byte d is the input's byte d further on. -/
theorem matchLenCountsEqualBytes : Obligations.MatchLenCountsEqualBytes := by
  refine fun bs i pos _ _ => ⟨le_min_iff.2 (matchLen_le bs i pos), fun d hd => ?_, fun hcap hend => ?_⟩
  · rw [← List.getElem?_drop, ← List.getElem?_drop]
    exact commonRun_getElem?_eq hd
  · rw [← List.getElem?_drop, ← List.getElem?_drop]
    refine commonRun_getElem?_ne hcap ?_
    rw [List.length_drop]
    exact Nat.lt_sub_iff_add_lt'.2 hend

/-! ### FindBest (R242) -/

/-- `best` is what the scan of R242 holds once the starts from `first` up to `next` are scanned: the longest match among
them, and the leftmost one of that length. -/
structure LeftmostLongest (input : List Byte) (pos first next : Nat) (best : Nat × Nat) : Prop where
  longest : ∀ i, first ≤ i → i < next → matchLen input i pos ≤ best.2
  noMatch : best.2 = 0 → best.1 = 0
  leftmost : 0 < best.2 → ∃ i, first ≤ i ∧ i < next ∧ best.1 = pos - i ∧ best.2 = matchLen input i pos ∧
    ∀ j, first ≤ j → j < i → matchLen input j pos < best.2

theorem LeftmostLongest.empty (input : List Byte) (pos first : Nat) :
    LeftmostLongest input pos first first (0, 0) :=
  ⟨fun _ h₁ h₂ => absurd h₂ (Nat.not_lt.2 h₁), fun _ => rfl, fun h => absurd h (Nat.lt_irrefl 0)⟩

/-- Scanning one more start keeps it: a strictly longer match is the first of its length, another one changes nothing. -/
theorem LeftmostLongest.scanNext {input : List Byte} {pos first next : Nat} {best : Nat × Nat}
    (h : LeftmostLongest input pos first next best) (hnext : first ≤ next) :
    LeftmostLongest input pos first (next + 1) (betterMatch input pos best next) := by
  unfold betterMatch
  split
  · next hlonger =>
    have hbelow : ∀ j, first ≤ j → j < next → matchLen input j pos < matchLen input next pos :=
      fun j h₁ h₂ => (h.longest j h₁ h₂).trans_lt hlonger
    refine ⟨fun i h₁ h₂ => ?_, fun h₀ => ?_, fun _ => ⟨next, hnext, next.lt_succ_self, rfl, rfl, hbelow⟩⟩
    · rcases Nat.lt_succ_iff_lt_or_eq.1 h₂ with hi | rfl
      · exact (hbelow i h₁ hi).le
      · exact le_rfl
    · exact absurd (hlonger.trans_eq h₀) (Nat.not_lt_zero _)
  · next hshort =>
    refine ⟨fun i h₁ h₂ => ?_, h.noMatch, fun hpos => ?_⟩
    · rcases Nat.lt_succ_iff_lt_or_eq.1 h₂ with hi | rfl
      · exact h.longest i h₁ hi
      · exact Nat.not_lt.1 hshort
    · obtain ⟨i, h₁, h₂, hrest⟩ := h.leftmost hpos
      exact ⟨i, h₁, h₂.trans next.lt_succ_self, hrest⟩

theorem leftmostLongest_foldl (input : List Byte) (pos first count : Nat) :
    LeftmostLongest input pos first (first + count)
      ((List.range' first count).foldl (betterMatch input pos) (0, 0)) := by
  induction count with
  | zero => exact .empty input pos first
  | succ count ih =>
    rw [List.range'_1_concat, List.foldl_concat]
    exact ih.scanNext (Nat.le_add_right first count)

theorem findBest_leftmostLongest (input : List Byte) (pos : Nat) :
    LeftmostLongest input pos (pos - lzWindow) pos (findBest input pos) := by
  have h := leftmostLongest_foldl input pos (pos - lzWindow) (pos - (pos - lzWindow))
  rwa [Nat.add_sub_cancel' (Nat.sub_le pos lzWindow)] at h

/-- Settles O32, start by start of the window. -/
theorem findBestIsLeftmostLongest : Obligations.FindBestIsLeftmostLongest := by
  intro bs pos
  obtain ⟨hlongest, hno, hleftmost⟩ := findBest_leftmostLongest bs pos
  exact ⟨hlongest, hno, hleftmost⟩

/-! ### The greedy loop (R243, R245) -/

theorem lzFrom_end {input : List Byte} {pos : Nat} (h : input.length ≤ pos) (fuel : Nat) :
    lzFrom input fuel pos = [] := by
  cases fuel with
  | zero => rfl
  | succ fuel => rw [lzFrom, List.getElem?_eq_none h]

/-- One turn of the loop inside the input. -/
theorem lzFrom_turn {input : List Byte} {pos : Nat} {b : Byte} (h : input[pos]? = some b) (fuel : Nat) :
    lzFrom input (fuel + 1) pos = if (findBest input pos).2 > 2
      then lzToken (findBest input pos).1 (findBest input pos).2 ++ lzFrom input fuel (pos + (findBest input pos).2)
      else b :: lzFrom input fuel (pos + 1) := by
  rw [lzFrom, h]
  rfl

/-- Every turn advances the cursor, so fuel for the bytes that are left is enough. -/
theorem lzFrom_fuel {input : List Byte} {fuel pos : Nat} (h : input.length ≤ pos + fuel) :
    lzFrom input (fuel + 1) pos = lzFrom input fuel pos := by
  induction fuel generalizing pos with
  | zero => exact lzFrom_end h 1
  | succ fuel ih =>
    rcases Nat.lt_or_ge pos input.length with hpos | hpos
    · have hb := List.getElem?_eq_getElem hpos
      rw [lzFrom_turn hb, lzFrom_turn hb]
      split
      · rw [ih (by omega)]
      · rw [ih (by omega)]
    · rw [lzFrom_end hpos, lzFrom_end hpos]

/-- Settles O33: the loop run with fuel for the whole input, one unit of which no cursor inside the input needs. -/
theorem lzStepIsTheGreedyLoop : Obligations.LzStepIsTheGreedyLoop := by
  refine fun bs => ⟨lzFrom bs bs.length, rfl, fun pos h => lzFrom_end h _, fun pos b hb => ?_⟩
  have hpos : pos < bs.length := (List.getElem?_eq_some_iff.1 hb).1
  rw [← lzFrom_turn hb]
  exact (lzFrom_fuel (by omega)).symm

/-! ### The token and the bounds (R244) -/

theorem lzToken_eq (off len : Nat) : lzToken off len = 0x3C#8 :: dec off ++ 0x2C#8 :: dec len ++ [0x3E#8] := by
  simp [lzToken, tokOpen, tokSep, tokClose]

/-- A token's three marks and at least one digit of each number. -/
theorem five_le_lzToken_length (off len : Nat) : 5 ≤ (lzToken off len).length := by
  have := dec_length_pos off
  have := dec_length_pos len
  simp only [lzToken, List.length_append, List.length_singleton]
  omega

/-- Settles O34: a token has its three marks and two to five digits, and pays for at least three input bytes. -/
theorem lzTokensAndOutputAreBounded : Obligations.LzTokensAndOutputAreBounded := by
  refine ⟨lzToken_eq, fun off len _ hoff _ hlen => ⟨five_le_lzToken_length off len, lzToken_length_le hoff hlen⟩,
    fun bs => ?_⟩
  have := lzStep_length_le bs
  omega

/-! ### The command (R250) -/

/-- LZ77 on an input within the capacity is one Publish of LzStep of the input (R250). -/
theorem execLz77_ok {s : State} (h : inLen s ≤ s.maxLen) :
    execLz77 s = .next (completeOk (inLen s == 0)
      (publishWrites .lz77 (lzStep (input s)) (8 * (lzStep (input s)).length) (inLen s) s)) :=
  finish_body h (lz77Body_ok h)

/-- LzStep of an input within the capacity fits OBUF (R91, R244). -/
theorem lzStep_input_fits {s : State} (h : inLen s ≤ s.maxLen) : (lzStep (input s)).length ≤ obufSize s := by
  have := lzStep_length_le (input s)
  rw [input_length] at this
  rw [obufSize]
  omega

/-- Settles O15: the output fits OBUF, so that the command is one Publish. -/
theorem lz77Completes : Obligations.Lz77Completes := by
  refine ⟨rfl, fun s hp => ⟨fun hlen => finish_lenRange hlen, fun hlen => ?_⟩⟩
  have hfit := lzStep_input_fits hlen
  have hbits : 8 * (lzStep (input s)).length ≤ 24 * s.maxLen := by rw [obufSize] at hfit; omega
  have hpub := publishWrites_published hp .lz77 hfit hbits hlen
  exact ⟨_, execLz77_ok hlen, completed_completeOk _ _, rfl, rfl, hpub.completeOk _, rfl⟩

end Sys2Proof.Machine
end

section
/-! PROOFS. The ratio and benchmark family (44_ratio_bench.md): NOP (R277), what Publish leaves within the bounds of R275
(R271, R273), BENCH as its four encoders one after another (R276), and encoders that carry no state across calls (R279). -/

namespace Sys2Proof.Machine

/-! ### NOP (R277) -/

/-- Settles O7: NOP writes nothing, and its completion sets DONE, which IE passes on to the line. -/
theorem nopCompletes : Obligations.NopCompletes :=
  ⟨rfl, fun s => ⟨_, rfl, rfl, fun hie => (Bool.and_true s.ie).trans hie⟩⟩

/-! ### Publish (R271, R273) -/

/-- Settles O25: an output of at most 3n bytes fits OBUF, where Publish leaves the exact result. -/
theorem publishLeavesTheExactResult : Obligations.PublishLeavesTheExactResult := by
  intro s a out bits n hp hn hout hbits
  have hfit : out.length ≤ obufSize s := hout.trans (Nat.mul_le_mul_left 3 hn)
  have hcap : bits ≤ 24 * s.maxLen := hbits.trans (Nat.mul_le_mul_left 24 hn)
  exact ⟨_, publish_fits hfit, publishWrites_published hp a hfit hcap hn, rfl⟩

/-! ### BENCH (R276) -/

/-- The state after RLE's Publish of its own input (R205). -/
def rlePublished (s : State) : State :=
  publishWrites .rle (rleStep (input s)) (8 * (rleStep (input s)).length) (inLen s) s

/-- The state after DELTA's Publish of its own input (R225). -/
def deltaPublished (s : State) : State :=
  publishWrites .delta (deltaStep (input s)) (8 * inLen s) (inLen s) s

/-- The state after LZ77's Publish of its own input (R250). -/
def lz77Published (s : State) : State :=
  publishWrites .lz77 (lzStep (input s)) (8 * (lzStep (input s)).length) (inLen s) s

/-- The three one after another, as BENCH runs them on the state that HUFF's body answered (R276). -/
def benchPublished (u : State) : State := lz77Published (deltaPublished (rlePublished u))

section Bench

variable {s u : State}

/-- HUFF's body writes neither the input, nor LEN and its limit, nor ERR (R113). -/
theorem huffBody_keeps (hu : huffBody (inLen s) s = .ok u) :
    u.maxLen = s.maxLen ∧ u.len = s.len ∧ u.err = s.err ∧ input u = input s := by
  have hchain : WritesChain s u := huffBody_chain s.len.isLt hu
  have hlen : u.len = s.len := by rw [hchain.frame]
  refine ⟨hchain.maxLen, hlen, by rw [hchain.frame], ?_⟩
  rw [input, inLen, hlen, hchain.inputBytes, input, inLen]

/-- The last three bodies of BENCH run on the input that HUFF's body ran on (R276). -/
theorem benchBody_eq (hu : huffBody (inLen s) s = .ok u) (hlen : inLen s ≤ s.maxLen) :
    benchBody (inLen s) s = .ok (benchPublished u) := by
  obtain ⟨hmax, hl, -, -⟩ := huffBody_keeps hu
  have hn : inLen s = inLen u := congrArg BitVec.toNat hl.symm
  rw [hn] at hu hlen ⊢
  rw [← hmax] at hlen
  have hrle : rleBody (inLen u) u = .ok (rlePublished u) := rleBody_ok hlen
  have hdelta : deltaBody (inLen u) (rlePublished u) = .ok (deltaPublished (rlePublished u)) := deltaBody_ok hlen
  simp only [benchBody, hu, hrle, hdelta, bind, Except.bind]
  exact lz77Body_ok hlen

/-- BENCH on an input within the capacity completes with what HUFF's body and then the other three leave (R276). -/
theorem execBench_ok (hu : huffBody (inLen s) s = .ok u) (hlen : inLen s ≤ s.maxLen) :
    execBench s = .next (completeOk (inLen s == 0) (benchPublished u)) :=
  finish_body hlen (benchBody_eq hu hlen)

/-- A command does not see which command was accepted before it (R114). -/
theorem runCommand_completeOk_accept (i : Instr) (b : Bool) (w : Word) (v : State) :
    runCommand i (completeOk b (accept w v)) = runCommand i (completeOk b v) := rfl

theorem runCommand_rle (hlen : inLen u ≤ u.maxLen) (b : Bool) :
    runCommand .rle (completeOk b u) = .next (completeOk (inLen u == 0) (accept (encode .rle) (rlePublished u))) :=
  execRle_ok (s := accept (encode .rle) u) hlen

theorem runCommand_delta (hlen : inLen u ≤ u.maxLen) (b : Bool) :
    runCommand .delta (completeOk b u) =
      .next (completeOk (inLen u == 0) (accept (encode .delta) (deltaPublished u))) :=
  execDelta_ok (s := accept (encode .delta) u) hlen

theorem runCommand_lz77 (hlen : inLen u ≤ u.maxLen) (b : Bool) :
    runCommand .lz77 (completeOk b u) = .next (completeOk (inLen u == 0) (accept (encode .lz77) (lz77Published u))) :=
  execLz77_ok (s := accept (encode .lz77) u) hlen

/-- The three commands one after another leave what BENCH leaves, the last of them accepted (R276). -/
theorem runCommands_after_huff (hlen : inLen u ≤ u.maxLen) (b : Bool) :
    ∃ t₂ t₃, runCommand .rle (completeOk b u) = .next t₂ ∧ runCommand .delta t₂ = .next t₃ ∧
      runCommand .lz77 t₃ = .next (completeOk (inLen u == 0) (accept (encode .lz77) (benchPublished u))) := by
  have hdelta := runCommand_delta (u := rlePublished u) hlen (inLen u == 0)
  have hlz := runCommand_lz77 (u := deltaPublished (rlePublished u)) hlen (inLen u == 0)
  exact ⟨_, _, runCommand_rle hlen b, (runCommand_completeOk_accept ..).trans hdelta,
    (runCommand_completeOk_accept ..).trans hlz⟩

end Bench

/-- Settles O16: each of the three later commands publishes of the same input what BENCH's body of that name does, and
acceptance and completion between them leave no trace but ERR. -/
theorem benchIsTheFourEncodersInOrder : Obligations.BenchIsTheFourEncodersInOrder := by
  refine ⟨rfl, fun s _ => ⟨fun hlen => finish_lenRange hlen, fun hlen => ?_⟩⟩
  obtain ⟨u, hu⟩ := huffBody_total hlen
  obtain ⟨hmax, hl, herr, -⟩ := huffBody_keeps hu
  have hn : inLen u = inLen s := congrArg BitVec.toNat hl
  obtain ⟨t₂, t₃, hrle, hdelta, hlz⟩ := runCommands_after_huff (u := u) (by rwa [hn, hmax]) (inLen s == 0)
  refine ⟨_, t₂, t₃, _, finish_body hlen hu, hrle, hdelta, hlz, (execBench_ok hu hlen).trans ?_,
    congrArg (· == 0) hn, rfl⟩
  rw [← hn, ← herr]
  rfl

/-! ### No state from one call to the next (R279) -/

/-- Two states hold the same last result: the OUT_* and RATIO_* registers, its record and its bytes in OBUF. -/
structure SameResult (t t' : State) : Prop where
  outAlg : t'.outAlg = t.outAlg
  outBytes : t'.outBytes = t.outBytes
  outBits : t'.outBits = t.outBits
  ratioNum : t'.ratioNum = t.ratioNum
  ratioDen : t'.ratioDen = t.ratioDen
  record : ∀ a, t.outAlg = some a → t'.res[algId a] = t.res[algId a]
  bytes : ∀ j, j < t.outBytes.toNat → outByte t' j = outByte t j

/-- Commands that end with the same Publish leave the same result, whatever they ran on (R273). -/
theorem SameResult.of_publish {a : Alg} {out : List Byte} {bits n : Nat} {b b' : Bool} {v v' : State} :
    SameResult (completeOk b (publishWrites a out bits n v)) (completeOk b' (publishWrites a out bits n v')) where
  outAlg := rfl
  outBytes := rfl
  outBits := rfl
  ratioNum := rfl
  ratioDen := rfl
  record c hc := by
    obtain rfl : a = c := Option.some.inj hc
    exact (publishWrites_record a out bits n v').trans (publishWrites_record a out bits n v).symm
  bytes j hj := by
    have hj : j < out.length := hj.trans_le (Nat.mod_le _ _)
    rw [outByte_completeOk, outByte_completeOk, outByte_publishWrites, outByte_publishWrites, dif_pos hj, dif_pos hj]

/-- The same of a command on two states. -/
theorem SameResult.of_next {i : Instr} {s s' t t' v v' : State} {a : Alg} {out : List Byte} {bits n : Nat} {b b' : Bool}
    (h : exec i s = .next t) (h' : exec i s' = .next t')
    (hp : exec i s = .next (completeOk b (publishWrites a out bits n v)))
    (hp' : exec i s' = .next (completeOk b' (publishWrites a out bits n v'))) : SameResult t t' := by
  obtain rfl := Host.Outcome.next.inj (hp.symm.trans h)
  obtain rfl := Host.Outcome.next.inj (hp'.symm.trans h')
  exact .of_publish

/-- Equal inputs are equally long. -/
theorem inLen_of_input {s s' : State} (hin : input s' = input s) : inLen s' = inLen s := by
  rw [← input_length, hin, input_length]

/-- A command that publishes functions of its input leaves the same result for equal inputs. -/
theorem SameResult.of_input {i : Instr} {a : Alg} {out : List Byte → List Byte} {bits : List Byte → Nat → Nat}
    (hexec : ∀ v, inLen v ≤ v.maxLen → exec i v = .next (completeOk (inLen v == 0)
      (publishWrites a (out (input v)) (bits (input v) (inLen v)) (inLen v) v)))
    {s s' t t' : State} (hin : input s' = input s) (hlen : inLen s ≤ s.maxLen) (hlen' : inLen s' ≤ s'.maxLen)
    (h : exec i s = .next t) (h' : exec i s' = .next t') : SameResult t t' := by
  have hp' := hexec s' hlen'
  rw [hin, inLen_of_input hin] at hp'
  exact .of_next h h' (hexec s hlen) hp'

/-- HUFF's body ends with one Publish that the input alone determines (R154, R279). -/
theorem huffBody_publish_of_input {s s' : State} (hin : input s' = input s) (hlen : inLen s ≤ s.maxLen)
    (hlen' : inLen s' ≤ s'.maxLen) :
    ∃ out bits v v', huffBody (inLen s) s = .ok (publishWrites .huffman out bits (inLen s) v) ∧
      huffBody (inLen s') s' = .ok (publishWrites .huffman out bits (inLen s) v') := by
  have hn : inLen s' = inLen s := inLen_of_input hin
  rw [input, input, hn] at hin
  rw [hn] at hlen' ⊢
  rcases Nat.eq_zero_or_pos (inLen s) with h0 | hpos
  · rw [h0]
    exact ⟨_, _, _, _, huffBody_empty s, huffBody_empty s'⟩
  · obtain ⟨t, tree, hbuilt, -, -, -, -, hcode, hbody⟩ := huffBody_ok hlen hpos.ne'
    obtain ⟨t', tree', hbuilt', -, -, -, -, hcode', hbody'⟩ := huffBody_ok hlen' hpos.ne'
    rw [hin] at hbuilt' hbody'
    obtain rfl := Option.some.inj (hbuilt.symm.trans hbuilt')
    rw [← Option.some.inj (hcode.symm.trans hcode')] at hbody'
    exact ⟨_, _, _, _, hbody, hbody'⟩

/-- The records of RLE, DELTA and LZ77 leave nothing but the first of the records before them. -/
theorem set_last_three_records (old : Vector ResRec 4) (r d l : ResRec) :
    ((old.set 1 r).set 2 d).set 3 l = #v[old[0], r, d, l] := by
  ext i hi
  interval_cases i <;> simp

/-- BENCH keeps HUFF's record and writes the other three (R276). -/
theorem benchPublished_res (u : State) : (benchPublished u).res =
    #v[u.res[algId .huffman], resultRecord .rle (8 * (rleStep (input u)).length) (inLen u),
      resultRecord .delta (8 * inLen u) (inLen u), resultRecord .lz77 (8 * (lzStep (input u)).length) (inLen u)] :=
  set_last_three_records ..

/-- After HUFF's record, what BENCH publishes is determined by the input (R276, R279). -/
theorem benchPublished_alike {u u' : State} (hin : input u' = input u)
    (hrec : u'.res[algId .huffman] = u.res[algId .huffman]) (b b' : Bool) :
    SameResult (completeOk b (benchPublished u)) (completeOk b' (benchPublished u')) ∧
      (benchPublished u').res = (benchPublished u).res := by
  have hn := inLen_of_input hin
  constructor
  · have hlast (w : State) : benchPublished w = publishWrites .lz77 (lzStep (input w)) (8 * (lzStep (input w)).length)
        (inLen w) (deltaPublished (rlePublished w)) := rfl
    rw [hlast, hlast, hin, hn]
    exact .of_publish
  · rw [benchPublished_res, benchPublished_res, hrec, hin, hn]

/-- Settles O44: each encoder ends with a Publish that the input alone determines, and BENCH leaves HUFF's record and those
of the other three. -/
theorem encodersCarryNoStateAcrossCalls : Obligations.EncodersCarryNoStateAcrossCalls := by
  intro i s s' t t' hi hmax _ hin hlen h h'
  have hn := inLen_of_input hin
  have hlen' : inLen s' ≤ s'.maxLen := by rwa [hn, hmax]
  obtain ⟨out, bits, v, v', hu, hu'⟩ := huffBody_publish_of_input hin hlen hlen'
  suffices alike : SameResult t t' ∧ (i = .bench → t'.res = t.res) by
    obtain ⟨⟨outAlg, outBytes, outBits, ratioNum, ratioDen, record, bytes⟩, res⟩ := alike
    exact ⟨outAlg, outBytes, outBits, ratioNum, ratioDen, record, bytes, res⟩
  rcases hi with rfl | rfl | rfl | rfl | rfl
  · exact ⟨.of_next h h' (finish_body hlen hu) (finish_body hlen' hu'), nofun⟩
  · exact ⟨.of_input (out := rleStep) (bits := fun bytes _ => 8 * (rleStep bytes).length) (fun _ => execRle_ok)
      hin hlen hlen' h h', nofun⟩
  · exact ⟨.of_input (out := deltaStep) (bits := fun _ n => 8 * n) (fun _ => execDelta_ok) hin hlen hlen' h h', nofun⟩
  · exact ⟨.of_input (out := lzStep) (bits := fun bytes _ => 8 * (lzStep bytes).length) (fun _ => execLz77_ok)
      hin hlen hlen' h h', nofun⟩
  · obtain rfl := Host.Outcome.next.inj ((execBench_ok hu hlen).symm.trans h)
    obtain rfl := Host.Outcome.next.inj ((execBench_ok hu' hlen').symm.trans h')
    obtain ⟨-, -, -, hkept⟩ := huffBody_keeps hu
    obtain ⟨-, -, -, hkept'⟩ := huffBody_keeps hu'
    have hrec : (publishWrites .huffman out bits (inLen s) v').res[algId .huffman] =
        (publishWrites .huffman out bits (inLen s) v).res[algId .huffman] := by
      rw [publishWrites_record, publishWrites_record]
    obtain ⟨result, res⟩ := benchPublished_alike (hkept'.trans (hin.trans hkept.symm)) hrec
      (inLen s == 0) (inLen s' == 0)
    exact ⟨result, fun _ => res⟩

end Sys2Proof.Machine
end

section
/-! PROOFS. The exceptions family (60_exceptions.md): which errors each command reports and what it leaves with one (R302,
R303), and the empty input, which is no error (R301). -/

namespace Sys2Proof.Machine

/-! ### A completed command reports a listed error or leaves ERR alone (R302, R303) -/

/-- A command that checks LEN and whose body always answers a state with the old ERR can only report LEN_RANGE (R300). -/
theorem finish_body_lenRange_or_err {s t : State} {g : Nat → State → Run State}
    (total : s.len.toNat ≤ s.maxLen → ∃ u, g s.len.toNat s = .ok u)
    (chain : ∀ {u}, g s.len.toNat s = .ok u → WritesChain s u)
    (h : finish s (do let n ← inputLen s; let u ← g n s; .ok (u, n == 0)) = .next t) :
    t = completeError .lenRange s ∨ t.err = s.err := by
  rcases Nat.lt_or_ge s.maxLen s.len.toNat with hlen | hlen
  · exact .inl (Host.Outcome.next.inj (h.symm.trans (finish_lenRange hlen)))
  · obtain ⟨u, hu⟩ := total hlen
    obtain rfl := Host.Outcome.next.inj ((finish_body hlen hu).symm.trans h)
    exact .inr (chain hu).err

/-- BENCH's body is the chain of its four bodies (R276). -/
theorem benchBody_chain {s v : State} {n : Nat} (hn : n < 2 ^ 32) (h : benchBody n s = .ok v) : WritesChain s v := by
  obtain ⟨_, _, _, h₁, h₂, h₃, h₄⟩ := benchBody_result h
  exact (((huffBody_chain hn h₁).trans (rleBody_chain h₂)).trans (deltaBody_chain h₃)).trans (lz77Body_chain h₄)

/-- HENC's outcomes: the errors in the order it checks for them, the fault of log entry 7, or one Publish (R153). -/
theorem execHenc_cases (s : State) :
    execHenc s = .next (completeError .lenRange s) ∨ execHenc s = .next (completeError .seq s) ∨
      execHenc s = .next (completeError .noCode s) ∨ execHenc s = .fault .outByteRange ∨
      ∃ b out bits n, execHenc s = .next (completeOk b (publishWrites .huffman out bits n s)) := by
  rcases Nat.lt_or_ge s.maxLen (inLen s) with hlen | hlen
  · exact .inl (finish_lenRange hlen)
  cases hv : s.codeValid with
  | false => exact .inr (.inl (execHenc_seq hlen hv))
  | true =>
    rcases Nat.eq_zero_or_pos (inLen s) with h0 | h0
    · exact .inr (.inr (.inr (.inr ⟨_, _, _, _, execHenc_empty h0 hv⟩)))
    by_cases hb : ∃ b ∈ input s, codeOf s.code b = []
    · exact .inr (.inr (.inl (execHenc_noCode h0 hlen hv hb)))
    have hcoded : ∀ b ∈ input s, codeOf s.code b ≠ [] := fun b hmem hnil => hb ⟨b, hmem, hnil⟩
    rcases Nat.lt_or_ge (8 * obufSize s) (hencBits s.code (input s)).length with hfit | hfit
    · exact .inr (.inr (.inr (.inl (execHenc_overflows h0 hlen hv hcoded hfit))))
    · exact .inr (.inr (.inr (.inr ⟨_, _, _, _, execHenc_publishes h0 hlen hv hcoded hfit⟩)))

/-- A command reports an error of its row of R303's table and writes nothing else, or it leaves ERR alone (R115, R302). -/
theorem exec_reports_listed_or_keeps_err {i : Instr} {s t : State} (h : exec i s = .next t) :
    (∃ e ∈ errorsOf i, t = completeError e s) ∨ t.err = s.err := by
  have lenRange (hi : .lenRange ∈ errorsOf i) : t = completeError .lenRange s ∨ t.err = s.err →
      (∃ e ∈ errorsOf i, t = completeError e s) ∨ t.err = s.err := .imp_left fun ht => ⟨_, hi, ht⟩
  have hword : s.len.toNat < 2 ^ 32 := s.len.isLt
  cases i with
  | nop =>
    cases h
    exact .inr rfl
  | freq =>
    rcases execFreq_cases s with hs | hs <;> cases hs.symm.trans h
    · exact .inl ⟨_, by decide, rfl⟩
    · exact .inr rfl
  | build =>
    rcases execBuild_cases s with ⟨-, hs⟩ | ⟨-, -, hs⟩ | ⟨-, -, -, hs⟩ | ⟨tree, -, -, -, hs⟩ <;> cases hs.symm.trans h
    · exact .inl ⟨_, by decide, rfl⟩
    · exact .inl ⟨_, by decide, rfl⟩
    · exact .inr rfl
  | codegen =>
    rcases execCodegen_cases s with ⟨-, hs⟩ | ⟨-, -, hs⟩ | ⟨c, -, -, hs⟩ <;> cases hs.symm.trans h
    · exact .inl ⟨_, by decide, rfl⟩
    · exact .inr rfl
  | henc =>
    rcases execHenc_cases s with hs | hs | hs | hs | ⟨b, out, bits, n, hs⟩ <;> cases hs.symm.trans h
    · exact .inl ⟨_, by decide, rfl⟩
    · exact .inl ⟨_, by decide, rfl⟩
    · exact .inl ⟨_, by decide, rfl⟩
    · exact .inr rfl
  | huff => exact lenRange (by decide) (finish_body_lenRange_or_err huffBody_total (huffBody_chain hword) h)
  | rle => exact lenRange (by decide) (finish_body_lenRange_or_err (fun hlen => ⟨_, rleBody_ok hlen⟩) rleBody_chain h)
  | delta =>
    exact lenRange (by decide) (finish_body_lenRange_or_err (fun hlen => ⟨_, deltaBody_ok hlen⟩) deltaBody_chain h)
  | lz77 =>
    exact lenRange (by decide) (finish_body_lenRange_or_err (fun hlen => ⟨_, lz77Body_ok hlen⟩) lz77Body_chain h)
  | bench =>
    exact lenRange (by decide)
      (finish_body_lenRange_or_err (fun hlen => benchBody_total hlen hword) (benchBody_chain hword) h)

/-- Settles O17: a completion with a result leaves ERR clear, and one with an error writes STATUS alone. -/
theorem errorsArePrecise : Obligations.ErrorsArePrecise := by
  intro i s t h hs ht
  rcases exec_reports_listed_or_keeps_err h with ⟨e, -, rfl⟩ | herr
  · rfl
  · exact absurd (herr.trans hs) ht

/-- Settles O18: an error that was not there before is one of the command's own row. -/
theorem commandsReportOnlyTheirErrors : Obligations.CommandsReportOnlyTheirErrors := by
  refine ⟨fun i s t h hs e he => ?_, fun s t h => ?illegal⟩
  case illegal =>
    cases h
    rfl
  rcases exec_reports_listed_or_keeps_err h with ⟨e', hlisted, rfl⟩ | herr
  · obtain rfl : e' = e := Option.some.inj he
    exact hlisted
  · exact nomatch (herr.trans hs).symm.trans he

/-! ### The empty input (R301) -/

section EmptyInput

variable {s : State}

theorem input_eq_nil (h0 : inLen s = 0) : input s = [] := by rw [input, h0, inputBytes_zero]

/-- FREQ on an empty input (R150, R301). -/
theorem execFreq_empty (h0 : inLen s = 0) : execFreq s = .next (completeOk true (setFreq (freqStep []) s)) := by
  have hfreq : execFreq s = .next (completeOk (inLen s == 0) (setFreq (freqStep (input s)) s)) :=
    execFreq_ok (h0.trans_le (Nat.zero_le s.maxLen))
  rw [hfreq, input_eq_nil h0, h0]
  rfl

/-- BENCH on an empty input ends with LZ77's Publish of the empty result (R276, R301). -/
theorem execBench_empty (h0 : inLen s = 0) :
    ∃ v, execBench s = .next (completeOk true (publishWrites .lz77 [] 0 0 v)) ∧ v.err = s.err := by
  obtain ⟨u, hu⟩ := huffBody_total (h0.trans_le (Nat.zero_le s.maxLen))
  obtain ⟨-, hlen, herr, hin⟩ := huffBody_keeps hu
  have hu0 : inLen u = 0 := (congrArg BitVec.toNat hlen).trans h0
  have hlast : benchPublished u = publishWrites .lz77 (lzStep (input u)) (8 * (lzStep (input u)).length) (inLen u)
      (deltaPublished (rlePublished u)) := rfl
  refine ⟨deltaPublished (rlePublished u), ?_, herr⟩
  rw [execBench_ok hu (h0.trans_le (Nat.zero_le _)), hlast, input_eq_nil hu0, hu0, h0]
  rfl

/-- Every encoder ends on an empty input with a Publish of the empty result (R153, R154, R205, R225, R250, R276). -/
theorem exec_publishes_empty (h0 : inLen s = 0) {i : Instr}
    (hi : i = .huff ∨ i = .rle ∨ i = .delta ∨ i = .lz77 ∨ i = .bench ∨ (i = .henc ∧ s.codeValid = true)) :
    ∃ a v, exec i s = .next (completeOk true (publishWrites a [] 0 0 v)) ∧ v.err = s.err := by
  have hlen : inLen s ≤ s.maxLen := h0.trans_le (Nat.zero_le _)
  have hin := input_eq_nil h0
  rcases hi with rfl | rfl | rfl | rfl | rfl | ⟨rfl, hv⟩
  · exact ⟨_, _, execHuff_empty h0, rfl⟩
  · have hrle := execRle_ok hlen
    rw [hin, h0] at hrle
    exact ⟨_, _, hrle, rfl⟩
  · have hdelta := execDelta_ok hlen
    rw [hin, h0] at hdelta
    exact ⟨_, _, hdelta, rfl⟩
  · have hlz := execLz77_ok hlen
    rw [hin, h0] at hlz
    exact ⟨_, _, hlz, rfl⟩
  · exact ⟨_, execBench_empty h0⟩
  · exact ⟨_, _, execHenc_empty h0 hv, rfl⟩

end EmptyInput

/-- BUILD accepted after FREQ on an empty input (R151, R301). -/
theorem runCommand_build_of_empty_freq (s : State) :
    runCommand .build (completeOk true (setFreq (freqStep []) s)) =
      .next (completeError .emptyTable (accept (encode .build) (setFreq (freqStep []) s))) :=
  execBuild_emptyTable (s := accept (encode .build) (setFreq (freqStep []) s)) rfl (setFreq_nil_nsym s)

/-- Settles O19: FREQ counts nothing, which BUILD reports, and every encoder publishes the empty result. -/
theorem emptyInputIsNoError : Obligations.EmptyInputIsNoError := by
  intro s hlen herr
  have h0 : inLen s = 0 := congrArg BitVec.toNat hlen
  refine ⟨fun i hi => ?completes, fun t ht => ?build⟩
  case completes =>
    rcases hi with rfl | hi
    · exact ⟨_, execFreq_empty h0, rfl, herr, fun hne => absurd rfl hne⟩
    · obtain ⟨a, v, hexec, hv⟩ := exec_publishes_empty h0 hi
      exact ⟨_, hexec, rfl, hv.trans herr, fun _ => ⟨rfl, rfl, rfl, rfl⟩⟩
  case build =>
    obtain rfl := Host.Outcome.next.inj ((execFreq_empty h0).symm.trans ht)
    exact ⟨_, runCommand_build_of_empty_freq s, rfl⟩

end Sys2Proof.Machine
end

section
/-! PROOFS. The reset and hazards family (70_reset_and_hazards.md): what the two resets leave (R340, R342), and host writes
and reads while a command runs (R351, R352). -/

namespace Sys2Proof.Machine

/-! ### The registers after a reset (R340, R342)

A state's registers are at their reset values exactly when `resetRegisters` leaves the state as it is. -/

theorem resetRegisters_softReset (s : State) : resetRegisters (softReset s) = softReset s := by
  rcases softReset_cases s with h | h <;> rw [h] <;> rfl

theorem resetRegisters_hardReset (s : State) : resetRegisters (hardReset s) = hardReset s := rfl

theorem resetRegisters_reset : resetRegisters State.reset = State.reset := rfl

theorem resWord_cleared : ∀ w : Fin 4, resWord ResRec.cleared w = 0 := by decide

theorem codeLenWord_nil : codeLenWord [] = 0 := rfl

/-- An empty codeword's image has no bit set (R52). -/
theorem codeBitsWord_nil (w : Nat) : codeBitsWord [] w = 0 := by
  refine BitVec.eq_of_getLsbD_eq fun i hi => ?_
  have hbit := codeBitsWord_getLsbD [] w (k := 31 - i) (by omega)
  rw [Nat.sub_sub_self (Nat.le_of_lt_succ hi)] at hbit
  rw [hbit, List.getD_nil, BitVec.ofNat_eq_ofNat, BitVec.getLsbD_zero]

theorem ctrlWord_eq (s : State) : ctrlWord s = if s.ie then 1 else 0 := by
  rw [ctrlWord]
  cases s.ie <;> rfl

theorem statusWord_resetRegisters (s : State) : statusWord (resetRegisters s) = 0 :=
  calc statusWord (resetRegisters s) = statusWord State.reset := rfl
    _ = 0 := by decide

/-- The reset column of R340's table, NODE apart, which is unspecified. -/
def resetImage (maxLen : Nat) : Reg → Word
  | .id => idWord
  | .param => BitVec.ofNat 32 maxLen
  | .outAlg => outAlgWord none
  | _ => 0

/-- Every register but NODE reads its reset value once the registers have been reset (R340). -/
theorem readReg_resetRegisters (s : State) {r : Reg} (hnode : ∀ k w, r ≠ .node k w) :
    readReg (resetRegisters s) r = resetImage s.maxLen r := by
  cases r with
  | ctrl => exact ctrlWord_eq _
  | status => exact statusWord_resetRegisters s
  | res a w => simp [readReg, resWord_cleared, resetImage]
  | freq b => simp [readReg, resetImage]
  | codeLen b => simp [readReg, codeLenWord_nil, resetImage]
  | codeBits b w => simp [readReg, codeBitsWord_nil, resetImage]
  | node k w => exact absurd rfl (hnode k w)
  | _ => rfl

theorem readReg_of_reset {t : State} (h : resetRegisters t = t) {r : Reg} (hnode : ∀ k w, r ≠ .node k w) :
    readReg t r = resetImage t.maxLen r := by
  have himage := readReg_resetRegisters t hnode
  rwa [h] at himage

/-! ### Soft reset (R342) -/

theorem softReset_idle {s : State} (h : s.busy = false) : softReset s = resetRegisters s :=
  if_neg (Bool.eq_false_iff.1 h)

theorem softReset_busy {s : State} (h : s.busy = true) : softReset s = forgetOutputs (resetRegisters s) := if_pos h

@[simp] theorem softReset_maxLen (s : State) : (softReset s).maxLen = s.maxLen := by
  rcases softReset_cases s with h | h <;> rw [h] <;> rfl

@[simp] theorem inByte_softReset (s : State) (j : Nat) : inByte (softReset s) j = inByte s j := by
  rcases softReset_cases s with h | h <;> rw [h] <;> rfl

theorem target_ctrl (maxLen : Nat) : target maxLen .w32 0x008 = some (.reg .ctrl) := target_w32 rfl (by decide)

theorem hostWrite_ctrl (v : Word) (s : State) : hostWrite .w32 0x008 v s = some (writeCtrl v s) :=
  hostWrite_reg (target_ctrl s.maxLen)

theorem hostWrite_ctrl_ie {v : Word} (h : v.getLsbD 1 = false) (s : State) :
    hostWrite .w32 0x008 v s = some { s with ie := v.getLsbD 0 } :=
  (hostWrite_ctrl v s).trans (congrArg some (if_neg (Bool.eq_false_iff.1 h)))

theorem hostWrite_ctrl_softReset {v : Word} (h : v.getLsbD 1 = true) (s : State) :
    hostWrite .w32 0x008 v s = some (softReset s) :=
  (hostWrite_ctrl v s).trans (congrArg some (if_pos h))

/-- Settles O54: the registers from `resetRegisters`, the memories from the two cases of a soft reset. -/
theorem softResetRestoresRegisters : Obligations.SoftResetRestoresRegisters := by
  intro s v hv
  have hreg : resetRegisters (softReset s) = softReset s := resetRegisters_softReset s
  refine ⟨softReset s, hostWrite_ctrl_softReset hv s, ?registers, fun a w => ?record, fun b => ?tables,
    softReset_maxLen s, inByte_softReset s, fun hidle => ?idle, fun hbusy => ?busy⟩
  case registers =>
    rw [← hreg]
    exact ⟨rfl, rfl, rfl, rfl, rfl, rfl, rfl, rfl, rfl, rfl, rfl, rfl, rfl, rfl, rfl, rfl, rfl, rfl⟩
  case record => exact readReg_of_reset hreg (r := .res a w) nofun
  case tables =>
    have hfreq : (softReset s).freq = Vector.replicate 256 0 := congrArg State.freq hreg.symm
    have hcode : (softReset s).code = Vector.replicate 256 [] := congrArg State.code hreg.symm
    simp [hfreq, hcode]
  case idle =>
    rw [softReset_idle hidle]
    exact ⟨rfl, fun j => rfl⟩
  case busy =>
    rw [softReset_busy hbusy]
    simp [Memory.read]

/-! ### Hardware reset (R340) -/

/-- Settles O55: both states are fixed by `resetRegisters`, and their memories are unwritten. -/
theorem hardwareResetLeavesTheTable : Obligations.HardwareResetLeavesTheTable := by
  intro s t ht
  have hreg : resetRegisters t = t := by
    rcases ht with rfl | rfl
    · exact resetRegisters_hardReset s
    · exact resetRegisters_reset
  have image {r : Reg} (hnode : ∀ k w, r ≠ .node k w) : readReg t r = resetImage t.maxLen r :=
    readReg_of_reset hreg hnode
  obtain ⟨hnode, hibuf, hobuf⟩ : t.node = Vector.replicate 511 none ∧ t.ibuf = [] ∧ t.obuf = [] := by
    rcases ht with rfl | rfl <;> exact ⟨rfl, rfl, rfl⟩
  refine ⟨image nofun, image nofun, image nofun, image nofun, image nofun, image nofun, image nofun, image nofun,
    image nofun, image nofun, image nofun, image nofun, image nofun, image nofun, fun a w => image nofun,
    fun b => image nofun, fun b => image nofun, fun b w => image nofun, ?latched, ?irq, fun k => ?node, fun j => ?ibuf,
    fun j => ?obuf, ?maxLen⟩
  case latched =>
    rw [← hreg]
    rfl
  case irq =>
    rw [← hreg]
    rfl
  case node => simp [hnode]
  case ibuf =>
    rw [hibuf]
    rfl
  case obuf =>
    rw [hobuf]
    rfl
  case maxLen =>
    rintro rfl
    rfl

/-! ### Host writes while BUSY (R351) -/

theorem target_len (maxLen : Nat) : target maxLen .w32 0x014 = some (.reg .len) := target_w32 rfl (by decide)

theorem hostWrite_len_busy {s : State} (h : s.busy = true) (v : Word) : hostWrite .w32 0x014 v s = some (dropWrite s) :=
  (hostWrite_reg (target_len s.maxLen)).trans (congrArg some (if_pos h))

theorem hostWrite_len_idle {s : State} (h : s.busy = false) (v : Word) :
    hostWrite .w32 0x014 v s = some { s with len := v } :=
  (hostWrite_reg (target_len s.maxLen)).trans (congrArg some (if_neg (Bool.eq_false_iff.1 h)))

theorem hostWrite_ibuf_busy {w : Width} {off j : Nat} {s : State} (h : target s.maxLen w off = some (.ibuf j))
    (hb : s.busy = true) (v : Word) : hostWrite w off v s = some (dropWrite s) := by
  simp only [hostWrite, h, hb, if_true]

/-- Settles O50: one register's write at a time, the read-only ones by O49. -/
theorem writesWhileBusyAreDropped : Obligations.WritesWhileBusyAreDropped := by
  obtain ⟨readOnly, -, -⟩ := readOnlyWritesAreIgnored
  intro s v
  refine ⟨fun hb => ⟨hostWrite_cmd_busy hb v, hostWrite_len_busy hb v, fun w off j h => hostWrite_ibuf_busy h hb v⟩,
    fun hb => ⟨hostWrite_len_idle hb v, hostRead_reg_exact (s := { s with len := v }) (target_len s.maxLen) (.inr rfl)⟩,
    fun w off r => readOnly s w off v r, fun hv => hostWrite_ctrl_ie hv s, fun hv => hostWrite_ctrl_softReset hv s,
    ?ctrl, hostWrite_status v s⟩
  case ctrl =>
    rw [hostRead_reg_exact (target_ctrl s.maxLen) (.inr rfl), readReg, ctrlWord_eq]

/-! ### Host reads while BUSY (R352) -/

/-- A read of a mapped offset is handed to the host, BUSY or not (R90, R352). -/
theorem busAccess_read_of_mapped {w : Width} {off : Nat} {s : State} {x : Target} (hwin : off < windowSize)
    (hx : target s.maxLen w off = some x) : ∃ t, busAccess (.read w off) s = .next t := by
  cases hr : hostRead w off s with
  | none => exact nomatch hx.symm.trans (hostRead_eq_none_iff.1 hr)
  | some p =>
    refine ⟨recordRead w off p.1 p.2, (if_pos hwin).trans ?_⟩
    simp only [hr]

/-- Settles O52: a mapped read is answered without a fault, and the exact group takes no free draw. -/
theorem readsWhileBusyNeverFault : Obligations.ReadsWhileBusyNeverFault := by
  intro s w off x _ hwin hx
  refine ⟨?answered, fun r hreg hr => ?exact, fun j hj => ?ibuf⟩
  case answered =>
    obtain ⟨t, ht⟩ := busAccess_read_of_mapped hwin hx
    obtain ⟨hfaults, -⟩ := busAccess_read_mapped ht hx
    exact ⟨t, ht, hfaults⟩
  case exact =>
    subst hreg
    have hexact : isResultReg r = false := by rcases hr with rfl | rfl | rfl | rfl | rfl | rfl <;> rfl
    exact hostRead_reg_exact hx (.inr hexact)
  case ibuf =>
    subst hj
    exact ⟨_, hostRead_ibuf hx, readWord_toNat w fun i => inByte s (j + i)⟩

end Sys2Proof.Machine
end
